-- ==== Sys2Proof/Word.lean ====
section
/-! DEFINITION. The word types of VMC: 32-bit registers, 32-bit host bus addresses, 8-bit bytes (R10, R11, R103, R200). -/

namespace Sys2Proof

/-- A register's contents: a 32-bit unsigned word (R11, R103). -/
abbrev Word := BitVec 32

/-- A byte of a buffer, of the output stream or of a status latch (R11). -/
abbrev Byte := BitVec 8

/-- A host bus address: 32 bits, one address per byte (R200). -/
abbrev Addr := BitVec 32

end Sys2Proof
end

