-- ==== Sys2Proof/Config.lean ====
section
/-! DEFINITION. What an implementation of VMC fixes (R10) and the one free value the spec leaves open (R204). -/

namespace Sys2Proof

/-- The two OPEN parameters of R10: the capacities of the input buffer and of the encode data buffer.
A value of this type stands in State, so that a statement about every state is one about every capacity
(D21: "A model takes IBUF_SIZE and EBUF_SIZE as arguments"). -/
structure Config where
  /-- IBUF_SIZE, an integer in [1, 2^28] (R10). -/
  ibufSize : Nat
  /-- EBUF_SIZE, an integer in [2, 2^28] (R10). -/
  ebufSize : Nat
deriving DecidableEq, Repr

/-- VLQ_MAX_GROUPS = 4, fixed (R10, D6). -/
def vlqMaxGroups : Nat := 4

/-- VLQ_MAX_VALUE = 0x0FFFFFFF = 2^28 - 1, fixed (R10, D7). -/
def vlqMaxValue : Nat := 0x0FFFFFFF

/-- FREE VALUE (log 6). What a host read of a buffer byte returns when the host has not written that byte
since the last reset: the contents are unspecified (R204). The arguments are the number of resets so far and
the byte's bus address, so that a repeated read repeats its value (R219(a)). Nothing can evaluate it. -/
opaque Config.unwrittenByte : Nat → Nat → Byte

end Sys2Proof
end

