-- ==== Sys2Proof/Syntax.lean ====
section
/-! DEFINITION. The commands of the opcode table (R301), the registers (R103), the host's moves on the bus
(R216, R217, R219), and the assembly forms and pseudo-instructions (R330, R331). -/

namespace Sys2Proof

/-- The eleven commands of R301, one constructor per row of the opcode table. A command carries no operand of its
own: it reads whole ARG registers (R302, R305). -/
inductive Instr where
  | vlqdec   -- VLQDEC, R405
  | vlqenc   -- VLQENC, R425
  | msgdec   -- MSGDEC, R460
  | evtdec   -- EVTDEC, R480
  | msgenc   -- MSGENC, R505
  | evtenc   -- EVTENC, R515
  | cvenc    -- CVENC, R525
  | dclr     -- DCLR, R550
  | eclr     -- ECLR, R555
  | ldrs     -- LDRS, R560
  | lers     -- LERS, R565
deriving DecidableEq, Repr

/-- The four encode commands: the ones that can be held for the sink (R149, R614). -/
inductive EncCmd where
  | vlqenc
  | msgenc
  | evtenc
  | cvenc
deriving DecidableEq, Repr

/-- The sixteen registers of R103, by name. -/
inductive Reg where
  | cmd | status | arg0 | arg1 | arg2 | arg3 | inLen | drs | ers
  | resVal | resCons | resMsg0 | resMsg1 | resLen | resPoff | outCnt
deriving DecidableEq, Repr

/-- The access widths a host can put on a 32-bit bus. The register window takes b32 alone and the buffers b8
alone (R216, R217). -/
inductive Width where
  | b8
  | b16
  | b32
deriving DecidableEq, Repr

/-- One move of the host: a bus access (R9, R219), a step in which it does nothing, or an assertion of the reset input
(R700). That the host is the agent that drives the reset input is the model's choice: R9 names no agent for it (log 21).
A write narrower than 32 bits uses the low bits of its data (log 7). -/
inductive HostMove where
  | read (w : Width) (a : Addr)
  | write (w : Width) (a : Addr) (data : Word)
  | idle
  | reset
deriving DecidableEq, Repr

/-- The assembly forms of R330. `none` is an operand the host leaves out: the register keeps its value and the
encoding skips that write. -/
inductive Asm where
  | vlqdec (p : Option Word)
  | vlqenc (v : Option Word)
  | msgdec (p : Option Word)
  | evtdec (p : Option Word)
  | msgenc (s off n : Option Word)
  | evtenc (d s off n : Option Word)
  | cvenc (d f c data : Option Word)
  | dclr
  | eclr
  | ldrs (img : Option Word)
  | lers (img : Option Word)
deriving DecidableEq, Repr

/-- The pseudo-instructions of R331. The operands that R331 packs into ARG3 are bytes here (log 16). -/
inductive Pseudo where
  | noteoff (d c : Word) (key vel : Byte)
  | noteon (d c : Word) (key vel : Byte)
  | polyat (d c : Word) (key p : Byte)
  | ctrl (d c : Word) (ctl val : Byte)
  | prog (d c : Word) (prog : Byte)
  | chanat (d c : Word) (p : Byte)
  | pbend (d c : Word) (d0 d1 : Byte)
  | endtrk (d k : Word)
deriving DecidableEq, Repr

end Sys2Proof
end

