-- ==== Sys2Proof/WellFormed.lean ====
section
/-! DEFINITION. The checks on what is given from outside: the parameters (R10) and a command's operands (R305).
A command word has no operand fields, so `Instr` itself needs no check: every `Instr` is well formed. -/

namespace Sys2Proof

/-- The ranges of R10 for the two OPEN parameters. -/
abbrev Config.wf (c : Config) : Prop :=
  1 ≤ c.ibufSize ∧ c.ibufSize ≤ 2 ^ 28 ∧ 2 ≤ c.ebufSize ∧ c.ebufSize ≤ 2 ^ 28

/-- A VLQ value or delta operand: at most 0x0FFFFFFF (R305, R426). -/
abbrev wfValue (v : Word) : Prop := v.toNat ≤ 0x0FFFFFFF

/-- A status operand: the whole 32-bit value lies in [0x80, 0xFF] (R305, R504). -/
abbrev wfStatus (s : Word) : Prop := 0x80 ≤ s.toNat ∧ s.toNat ≤ 0xFF

/-- A family operand: one of the seven bytes of R17 as a whole 32-bit value (R305, R527). -/
abbrev wfFamily (f : Word) : Prop :=
  f.toNat ∈ [0x80, 0x90, 0xA0, 0xB0, 0xC0, 0xD0, 0xE0]

/-- A channel operand: at most 15 (R305, R526). -/
abbrev wfChannel (c : Word) : Prop := c.toNat ≤ 15

/-- An EBUF range: off + n ≤ EBUF_SIZE as unbounded integers (R305, R501). -/
abbrev wfRange (cfg : Config) (off n : Word) : Prop := off.toNat + n.toNat ≤ cfg.ebufSize

/-- A legal latch image: 0, or 0x100 | s with s in [0x80, 0xFF] (R307). -/
abbrev wfImage (img : Word) : Prop := img.toNat = 0 ∨ (0x180 ≤ img.toNat ∧ img.toNat ≤ 0x1FF)

/-- R305: the ARG values a command accepts. Outside them the command raises InvalidArgument. An IBUF offset has
no range check, and a register the command does not read is not looked at. -/
abbrev Instr.operandsWf (cfg : Config) (i : Instr) (a0 a1 a2 a3 : Word) : Prop :=
  match i with
  | .vlqdec => True
  | .vlqenc => wfValue a0
  | .msgdec => True
  | .evtdec => True
  | .msgenc => wfStatus a1 ∧ wfRange cfg a2 a3
  | .evtenc => wfValue a0 ∧ wfStatus a1 ∧ wfRange cfg a2 a3
  | .cvenc => wfFamily a1 ∧ wfChannel a2 ∧ wfValue a0
  | .dclr => True
  | .eclr => True
  | .ldrs => wfImage a1
  | .lers => wfImage a1

end Sys2Proof
end

