-- ==== Sys2Proof/Decode.lean ====
section
/-! DEFINITION. The command word (R300, R301): its decoder, total and rejecting by name, and its encoder; the
register offsets and window bases (R103, R220); the assembler and its reader (R330, R331). -/

namespace Sys2Proof

/-- What a 32-bit CMD word is: a command, or one of the two ways R325 names to be reserved. -/
inductive Decoded where
  | command (i : Instr)
  | reservedOpcode (op : BitVec 4)   -- bits 31:4 are zero and OP is 0x0 or 0xC-0xF
  | reservedBits (z : BitVec 28)     -- bits 31:4 are not all zero
deriving DecidableEq, Repr

/-- Field OP of a command word: bits 3:0 (R300). -/
def opField (w : Word) : BitVec 4 := w.extractLsb' 0 4

/-- Field Z of a command word: bits 31:4, which must be zero (R300). -/
def zField (w : Word) : BitVec 28 := w.extractLsb' 4 28

/-- The opcode table of R301. -/
def commandOfOp (op : BitVec 4) : Option Instr :=
  match op.toNat with
  | 0x1 => some .vlqdec
  | 0x2 => some .vlqenc
  | 0x3 => some .msgdec
  | 0x4 => some .evtdec
  | 0x5 => some .msgenc
  | 0x6 => some .evtenc
  | 0x7 => some .cvenc
  | 0x8 => some .dclr
  | 0x9 => some .eclr
  | 0xA => some .ldrs
  | 0xB => some .lers
  | _ => none

/-- R301: a word selects a command exactly when it equals `zext_32(OP)`; every other word is reserved (R325). -/
def decode (w : Word) : Decoded :=
  if zField w ≠ 0 then .reservedBits (zField w)
  else
    match commandOfOp (opField w) with
    | some i => .command i
    | none => .reservedOpcode (opField w)

/-- Field OP of each command (R301). -/
def opcode : Instr → BitVec 4
  | .vlqdec => 0x1
  | .vlqenc => 0x2
  | .msgdec => 0x3
  | .evtdec => 0x4
  | .msgenc => 0x5
  | .evtenc => 0x6
  | .cvenc => 0x7
  | .dclr => 0x8
  | .eclr => 0x9
  | .ldrs => 0xA
  | .lers => 0xB

/-- The command word of a command: OP in bits 3:0 and zeros above (R300, R301). -/
def encode (i : Instr) : Word := (opcode i).setWidth 32

/-- The decoder on an instruction given as a number, bit 0 being bit 0 of the CMD word (log 15). A CMD word is one
32-bit register write and has no byte order (R214). -/
def decodeTableWord (nbits w : Nat) : Option Instr :=
  if w % 2 ^ nbits < 2 ^ 32 then
    match decode (BitVec.ofNat 32 (w % 2 ^ nbits)) with
    | .command i => some i
    | .reservedOpcode _ => none
    | .reservedBits _ => none
  else none

/-- The byte offset of each register from REG_BASE = 0x0000_0000 (R103). -/
def regOffset : Reg → Nat
  | .cmd => 0x00
  | .status => 0x04
  | .arg0 => 0x08
  | .arg1 => 0x0C
  | .arg2 => 0x10
  | .arg3 => 0x14
  | .inLen => 0x18
  | .drs => 0x1C
  | .ers => 0x20
  | .resVal => 0x24
  | .resCons => 0x28
  | .resMsg0 => 0x2C
  | .resMsg1 => 0x30
  | .resLen => 0x34
  | .resPoff => 0x38
  | .outCnt => 0x3C

/-- The register at a byte offset of the register window, if the offset is one of R103's. -/
def regAt (off : Nat) : Option Reg :=
  match off with
  | 0x00 => some .cmd
  | 0x04 => some .status
  | 0x08 => some .arg0
  | 0x0C => some .arg1
  | 0x10 => some .arg2
  | 0x14 => some .arg3
  | 0x18 => some .inLen
  | 0x1C => some .drs
  | 0x20 => some .ers
  | 0x24 => some .resVal
  | 0x28 => some .resCons
  | 0x2C => some .resMsg0
  | 0x30 => some .resMsg1
  | 0x34 => some .resLen
  | 0x38 => some .resPoff
  | 0x3C => some .outCnt
  | _ => none

/-- The bus address of a register (R103, R220). -/
def regAddr (r : Reg) : Addr := BitVec.ofNat 32 (regOffset r)

/-- The base of the IBUF window (R220). -/
def ibufBase : Nat := 0x10000000

/-- The base of the EBUF window (R220). -/
def ebufBase : Nat := 0x20000000

/-- A 32-bit host write of a register (R330). -/
def writeReg32 (r : Reg) (w : Word) : HostMove := .write .b32 (regAddr r) w

/-- The write `ARGi <- ai` of a listed operand; an operand left out is skipped (R330). -/
def argWrite (r : Reg) : Option Word → List HostMove
  | none => []
  | some w => [writeReg32 r w]

/-- The write `CMD <- OP` that issues a command (R330). -/
def issueWrite (i : Instr) : List HostMove := [writeReg32 .cmd (encode i)]

/-- R330: a form's encoding is `ARGi <- ai` for each listed operand in ARG order, then `CMD <- OP`. -/
def assemble : Asm → List HostMove
  | .vlqdec p => argWrite .arg0 p ++ issueWrite .vlqdec
  | .vlqenc v => argWrite .arg0 v ++ issueWrite .vlqenc
  | .msgdec p => argWrite .arg0 p ++ issueWrite .msgdec
  | .evtdec p => argWrite .arg0 p ++ issueWrite .evtdec
  | .msgenc s off n => argWrite .arg1 s ++ argWrite .arg2 off ++ argWrite .arg3 n ++ issueWrite .msgenc
  | .evtenc d s off n =>
      argWrite .arg0 d ++ argWrite .arg1 s ++ argWrite .arg2 off ++ argWrite .arg3 n ++ issueWrite .evtenc
  | .cvenc d f c data =>
      argWrite .arg0 d ++ argWrite .arg1 f ++ argWrite .arg2 c ++ argWrite .arg3 data ++ issueWrite .cvenc
  | .dclr => issueWrite .dclr
  | .eclr => issueWrite .eclr
  | .ldrs img => argWrite .arg1 img ++ issueWrite .ldrs
  | .lers img => argWrite .arg1 img ++ issueWrite .lers

/-- Two data bytes packed as R331 writes them: `(d1 << 8) | d0`. -/
def packData (d0 d1 : Byte) : Word := (d1.setWidth 32 <<< 8) ||| d0.setWidth 32

/-- The CVENC form of a pseudo-instruction with all four operands given (R331). -/
def cvencForm (d f c data : Word) : List HostMove := assemble (.cvenc (some d) (some f) (some c) (some data))

/-- The bus address of EBUF[k], 0x2000_0000 + k as an unbounded integer (R330, R11). An index so large that this is no
32-bit address stands at the last bus address, outside every window, so that its access is refused (R217, R221; log 22). -/
def ebufAddr (k : Nat) : Addr := BitVec.ofNat 32 (min (ebufBase + k) (2 ^ 32 - 1))

/-- The 8-bit write `EBUF[k] <- b` (R330). -/
def ebufWrite (k : Nat) (b : Byte) : HostMove := .write .b8 (ebufAddr k) (b.setWidth 32)

/-- R331: the expansion of each pseudo-instruction, as host moves. -/
def expand : Pseudo → List HostMove
  | .noteoff d c key vel => cvencForm d 0x80 c (packData key vel)
  | .noteon d c key vel => cvencForm d 0x90 c (packData key vel)
  | .polyat d c key p => cvencForm d 0xA0 c (packData key p)
  | .ctrl d c ctl val => cvencForm d 0xB0 c (packData ctl val)
  | .prog d c prog => cvencForm d 0xC0 c (prog.setWidth 32)
  | .chanat d c p => cvencForm d 0xD0 c (p.setWidth 32)
  | .pbend d c d0 d1 => cvencForm d 0xE0 c (packData d0 d1)
  | .endtrk d k =>
      [ebufWrite k.toNat 0x2F, ebufWrite (k.toNat + 1) 0x00] ++ assemble (.evtenc (some d) (some 0xFF) (some k) (some 2))

/-- The ARG writes seen so far while reading a form back. -/
structure ArgWrites where
  a0 : Option Word
  a1 : Option Word
  a2 : Option Word
  a3 : Option Word
deriving DecidableEq, Repr

/-- The form of a command with the ARG writes that preceded it; none if it was given an operand it does not
list (R330). -/
def formOf (i : Instr) (a : ArgWrites) : Option Asm :=
  match i, a with
  | .vlqdec, ⟨p, none, none, none⟩ => some (.vlqdec p)
  | .vlqenc, ⟨v, none, none, none⟩ => some (.vlqenc v)
  | .msgdec, ⟨p, none, none, none⟩ => some (.msgdec p)
  | .evtdec, ⟨p, none, none, none⟩ => some (.evtdec p)
  | .msgenc, ⟨none, s, off, n⟩ => some (.msgenc s off n)
  | .evtenc, ⟨d, s, off, n⟩ => some (.evtenc d s off n)
  | .cvenc, ⟨d, f, c, data⟩ => some (.cvenc d f c data)
  | .dclr, ⟨none, none, none, none⟩ => some .dclr
  | .eclr, ⟨none, none, none, none⟩ => some .eclr
  | .ldrs, ⟨none, img, none, none⟩ => some (.ldrs img)
  | .lers, ⟨none, img, none, none⟩ => some (.lers img)
  | _, _ => none

/-- Reads one form from the front of a list of host moves: ARG writes up to a CMD write of a command word.
Answers the form and the moves after it. -/
def readForm (a : ArgWrites) : List HostMove → Option (Asm × List HostMove)
  | .write .b32 addr w :: rest =>
      if addr = regAddr .arg0 then readForm { a with a0 := some w } rest
      else if addr = regAddr .arg1 then readForm { a with a1 := some w } rest
      else if addr = regAddr .arg2 then readForm { a with a2 := some w } rest
      else if addr = regAddr .arg3 then readForm { a with a3 := some w } rest
      else if addr = regAddr .cmd then
        match decode w with
        | .command i => (formOf i a).map fun f => (f, rest)
        | .reservedOpcode _ => none
        | .reservedBits _ => none
      else none
  | _ => none

/-- The reader of R330's encodings. -/
def disassemble (moves : List HostMove) : Option (Asm × List HostMove) :=
  readForm ⟨none, none, none, none⟩ moves

end Sys2Proof
end

