-- ==== Sys2Proof/Machine/State.lean ====
section
/-! DEFINITION. The state of VMC (10_state.md, 20_memory.md), with the host's and the sink's coming moves beside it,
the reasons a step can stop, and the state after reset (R700). -/

namespace Sys2Proof.Machine

/-- The error codes of STATUS.ERR: exactly the eight values 0 to 7 of R600 (I-13). -/
inductive ErrCode where
  | ok
  | truncatedInput
  | needMoreData
  | unknownRunningStatus
  | invalidArgument
  | unknownStatus
  | vlqOverflow
  | illegalCommand
deriving DecidableEq, Repr

/-- A running-status latch: `none`, or `some s` with s a byte in [0x80, 0xFF] (R14, R110, R111). -/
abbrev Latch := Option Byte

/-- The reasons the machine itself could fault. VMC has none: it has no traps (R618), and every error of a command
is a completion with a code in STATUS.ERR (R612). So this type has no constructor (log 11). -/
inductive Fault
deriving DecidableEq, Repr

/-- The reasons the model has no transition. Each is one for which the spec asks a model to refuse. -/
inductive Refusal where
  /-- Raised by an arm of exec for a command that has no meaning yet. Safe. -/
  | notModelled (mnemonic : String)
  /-- Raised by a decode command that reads IBUF byte `i`, below IN_LEN, which the host has not written since reset
  (R204, R733, I-1). Safe. -/
  | unwrittenIbufByte (i : Nat)
  /-- Raised at the issue of MSGENC or EVTENC when EBUF byte `i` of [off, off + n) has not been written since reset
  (R204, R733, I-1). Safe. -/
  | unwrittenEbufByte (i : Nat)
  /-- Raised by a host access in 0x00-0x3F that is not an aligned 32-bit access (R216, I-2). Safe. -/
  | badRegisterAccess (a : Addr)
  /-- Raised by a host access of a buffer window that is wider than 8 bits or beyond the buffer's size
  (R217, I-2). Safe. -/
  | badBufferAccess (a : Addr)
  /-- Raised by a host access in 0x40-0xFFFF (R105, R220, I-3). Safe. -/
  | reservedRegister (a : Addr)
  /-- Raised by a host access of any other address outside the windows (R221, I-3). Safe. -/
  | unmappedAddress (a : Addr)
  /-- Raised by a host write while STATUS.BUSY = 1 (R740, I-4). Safe. -/
  | hostWriteWhileBusy (a : Addr)
deriving DecidableEq, Repr

/-- Everything the spec gives the machine, and the pending moves of the two agents outside it.
STATUS.BUSY is not stored: it is 1 exactly when `held` is present (R149). -/
structure State where
  /-- IBUF_SIZE and EBUF_SIZE (R10). -/
  cfg : Config
  /-- CMD: the last word written (R104). -/
  cmd : Word
  /-- ARG0 to ARG3, the operand registers (R106). -/
  arg0 : Word
  arg1 : Word
  arg2 : Word
  arg3 : Word
  /-- IN_LEN: the number of valid bytes at the start of IBUF (R130). -/
  inLen : Word
  /-- DRS, the decode running-status latch (R110). -/
  drs : Latch
  /-- ERS, the encode running-status latch (R111). -/
  ers : Latch
  /-- STATUS.ERR (R120). -/
  err : ErrCode
  /-- STATUS.DONE (R120). -/
  done : Bool
  /-- STATUS.ERR_SEEN (R120). -/
  errSeen : Bool
  /-- The result registers (R140 to R145). -/
  resVal : Word
  resCons : Word
  resMsg0 : Word
  resMsg1 : Word
  resLen : Word
  resPoff : Word
  /-- OUT_CNT, the bytes appended since reset mod 2^32 (R146). -/
  outCnt : Word
  /-- HELD, the encode command waiting for the sink (R149). -/
  held : Option EncCmd
  /-- IBUF and EBUF, keyed by host bus address (R201, R202, R220): the bytes written since reset. -/
  mem : List Host.Cell
  /-- OUT: the bytes appended since reset, first one first (R207, R210, I-11). -/
  out : List Byte
  /-- The level of the sink's input, which STATUS.SINK_READY copies (R120). -/
  sinkReady : Bool
  /-- The levels the sink drives in the coming steps (R9, I-7; log 2). -/
  sinkInput : List Bool
  /-- The host's coming moves, next one first (R230; log 1). -/
  hostMoves : List HostMove
  /-- What the host's last read returned (R219, R730; log 7). -/
  hostData : Word
  /-- How many resets there have been: it indexes the free value of an unwritten byte (R204; log 6). -/
  epoch : Nat
deriving DecidableEq, Repr

/-- The state after reset (R700). The capacities, the sink's level and the fields of the agents outside the block are
the model's choice (log 2, 3, 4, 7, 14); every other value is R700's. -/
def State.reset : State where
  cfg := { ibufSize := 2 ^ 28, ebufSize := 16 }
  cmd := 0
  arg0 := 0
  arg1 := 0
  arg2 := 0
  arg3 := 0
  inLen := 0
  drs := none
  ers := none
  err := .ok
  done := false
  errSeen := false
  resVal := 0
  resCons := 0
  resMsg0 := 0
  resMsg1 := 0
  resLen := 0
  resPoff := 0
  outCnt := 0
  held := none
  mem := []
  out := []
  sinkReady := true
  sinkInput := []
  hostMoves := []
  hostData := 0
  epoch := 0

end Sys2Proof.Machine
end

