-- ==== Sys2Proof/Machine/Ops.lean ====
section
/-! DEFINITION. The shared operations: memory bytes, the block's reads of IBUF and EBUF (R205, R206), the result of a
command before it commits (R16), completion with a code (R612), which is also how a command fails (R617), and the
sink hold (R614). VMC has no trap entry and no trap return (R618, R619). -/

namespace Sys2Proof.Machine

/-! ### Memory: bytes at bus addresses, in one canonical form -/

/-- What an address with no entry holds: no value. The buffers' contents after reset are unspecified (R204). -/
def unlistedByte (_ : Nat) : Option Byte := none

/-- The byte the host last wrote at an address since reset, if it wrote one. -/
def memRead : List Host.Cell → Nat → Option Byte
  | [], a => unlistedByte a
  | (k, b) :: m, a => if a = k then some b else memRead m a

/-- Stores one byte, keeping the addresses strictly rising. -/
def memWrite : List Host.Cell → Nat → Byte → List Host.Cell
  | [], a, b => [(a, b)]
  | (k, c) :: m, a, b =>
      if a < k then (a, b) :: (k, c) :: m
      else if a = k then (a, b) :: m
      else (k, c) :: memWrite m a b

/-- The canonical form: addresses strictly rising, and no entry that says what an unlisted address says. -/
abbrev memWf (m : List Host.Cell) : Prop :=
  m.Pairwise (fun x y => x.1 < y.1) ∧ ∀ x ∈ m, unlistedByte x.1 ≠ some x.2

/-- Byte `i` of IBUF, if the host has written it since reset (R201, R220). -/
def ibufByte (s : State) (i : Nat) : Option Byte := memRead s.mem (ibufBase + i)

/-- Byte `i` of EBUF, if the host has written it since reset (R202, R220). -/
def ebufByte (s : State) (i : Nat) : Option Byte := memRead s.mem (ebufBase + i)

/-! ### A command's result before it commits -/

/-- What a command computes before its commit point (R16): a value to commit, an error code to complete with, or a
reason the model has no transition. -/
inductive Attempt (α : Type) where
  | ok (a : α)
  | raise (e : ErrCode)
  | refuse (r : Refusal)
deriving Repr

/-- Goes on with a value; an error or a refusal ends the command. -/
def Attempt.bind {α β : Type} (x : Attempt α) (f : α → Attempt β) : Attempt β :=
  match x with
  | .ok a => f a
  | .raise e => .raise e
  | .refuse r => .refuse r

/-! ### The block's reads -/

/-- `InByte(p)` of R205, used only below IN_LEN. A byte not written since reset is refused (R204, I-1; log 5). -/
def inByte (s : State) (p : Nat) : Attempt Byte :=
  match ibufByte s p with
  | some b => .ok b
  | none => .refuse (.unwrittenIbufByte p)

/-- A read of the byte at `p` where exhaustion (p ≥ IN_LEN) is tested first and raises `e` (R205). -/
def nextByte (s : State) (e : ErrCode) (p : Nat) : Attempt Byte :=
  if s.inLen.toNat ≤ p then .raise e else inByte s p

/-- The bytes EBUF[off .. off + n - 1] by `EBufByte` (R206), after the range check of R501. A byte not written since
reset is refused (R204, R733, I-1; log 5). -/
def ebufBytes (s : State) : Nat → Nat → Attempt (List Byte)
  | _, 0 => .ok []
  | off, n + 1 =>
      match ebufByte s off with
      | some b => (ebufBytes s (off + 1) n).bind fun bs => .ok (b :: bs)
      | none => .refuse (.unwrittenEbufByte off)

/-! ### Completion, failure and hold -/

/-- The completion update of R612: ERR, DONE, ERR_SEEN, and BUSY and HELD cleared. A command that raises commits this
and nothing else (R617). -/
def complete (e : ErrCode) (s : State) : State :=
  { s with err := e, done := true, errSeen := s.errSeen || decide (e ≠ .ok), held := none }

/-- R614(c): an encode command whose checks pass while SINK_READY = 0 is held, and BUSY reads 1. -/
def hold (c : EncCmd) (s : State) : State := { s with held := some c }

/-- Ends a command: commit on success, only the completion update on an error (R616, R617). -/
def finish {α : Type} (r : Attempt α) (commit : α → State → State) (s : State) : Host.Outcome State Fault Refusal :=
  match r with
  | .ok a => .next (commit a s)
  | .raise e => .next (complete e s)
  | .refuse r => .refused r

/-- What an encode command appends and the value it leaves in ERS. -/
structure EncOut where
  bytes : List Byte
  ers : Latch
deriving DecidableEq, Repr

/-- The commit of an encode command (R507): SinkAppend of the whole output (R210), ERS, RES_CONS, OUT_CNT mod 2^32
(R146) and STATUS in one step. -/
def commitEncode (o : EncOut) (s : State) : State :=
  complete .ok
    { s with
      out := s.out ++ o.bytes
      ers := o.ers
      resCons := BitVec.ofNat 32 o.bytes.length
      outCnt := s.outCnt + BitVec.ofNat 32 o.bytes.length }

/-- R614: an encode command whose checks passed commits if SINK_READY = 1 and is held otherwise. -/
def commitOrHold (c : EncCmd) (o : EncOut) (s : State) : State :=
  if s.sinkReady then commitEncode o s else hold c s

/-- The instruction of a held command (R149). -/
def heldInstr : EncCmd → Instr
  | .vlqenc => .vlqenc
  | .msgenc => .msgenc
  | .evtenc => .evtenc
  | .cvenc => .cvenc

end Sys2Proof.Machine
end

