-- ==== Sys2Proof/Machine/Operands.lean ====
section
/-! DEFINITION. Operand checks and operand assembly (R305): values, status bytes, families and their lengths (R17),
channels, EBUF ranges (R501), latch images (R307), packed data (R306). -/

namespace Sys2Proof.Machine

/-- The value or delta check: ≤ 0x0FFFFFFF (R426). -/
def valueOk (v : Word) : Bool := decide (v.toNat ≤ vlqMaxValue)

/-- The status check on the whole 32-bit value (R504). -/
def statusOk (s : Word) : Bool := decide (0x80 ≤ s.toNat) && decide (s.toNat ≤ 0xFF)

/-- The EBUF range check, as unbounded integers (R501). -/
def rangeOk (s : State) (off n : Word) : Bool := decide (off.toNat + n.toNat ≤ s.cfg.ebufSize)

/-- The channel check (R526). -/
def channelOk (c : Word) : Bool := decide (c.toNat ≤ 15)

/-- `LEN(f)` of R17 for a family byte; none where R17 leaves it undefined. -/
def familyLen (f : Byte) : Option Nat :=
  if f = 0x80 then some 2        -- NOTE_OFF
  else if f = 0x90 then some 2   -- NOTE_ON
  else if f = 0xA0 then some 2   -- POLYPHONIC_AFTERTOUCH
  else if f = 0xB0 then some 2   -- CONTROL_CHANGE
  else if f = 0xC0 then some 1   -- PROGRAM_CHANGE
  else if f = 0xD0 then some 1   -- CHANNEL_AFTERTOUCH
  else if f = 0xE0 then some 2   -- PITCH_BEND_CHANGE
  else none

/-- The family of a status byte: its channel nibble zeroed (R457). -/
def familyOf (st : Byte) : Byte := st &&& 0xF0

/-- The channel of a channel-voice status byte: its low nibble (R457). -/
def channelOf (st : Byte) : Byte := st &&& 0x0F

/-- The family check of CVENC on the whole 32-bit value, and the family's length (R527, R17). -/
def familyOperand (f : Word) : Option Nat :=
  if f.toNat ≤ 0xFF then familyLen (f.setWidth 8) else none

/-- The data bytes CVENC takes from ARG3: d0 = ARG3[7:0], d1 = ARG3[15:8], the second only for a two-byte family
(R306). -/
def packedData (n : Nat) (data : Word) : List Byte :=
  if n = 2 then [data.extractLsb' 0 8, data.extractLsb' 8 8] else [data.extractLsb' 0 8]

/-- The register image of a latch: bit 8 VALID, bits 7:0 VALUE (R110). -/
def latchImage : Latch → Word
  | none => 0
  | some v => 0x100 ||| v.setWidth 32

/-- The latch a legal image stands for; none for the three illegal kinds of R307, in the order of R560. -/
def latchOfImage (img : Word) : Option Latch :=
  if img.extractLsb' 9 23 ≠ 0 then none
  else if img.getLsbD 8 && !img.getLsbD 7 then none
  else if !img.getLsbD 8 && decide (img.extractLsb' 0 8 ≠ 0) then none
  else if img.getLsbD 8 then some (some (img.extractLsb' 0 8))
  else some none

/-- LDRS and LERS: the latch of an image, or InvalidArgument (R560, R565). -/
def latchOperand (img : Word) : Attempt Latch :=
  match latchOfImage img with
  | some l => .ok l
  | none => .raise .invalidArgument

/-- A check an operand must pass; it raises InvalidArgument otherwise (R305). -/
def check (b : Bool) : Attempt Unit := if b then .ok () else .raise .invalidArgument

end Sys2Proof.Machine
end

