-- ==== Sys2Proof/Machine/Flags.lean ====
section
/-! DEFINITION. The words that carry flags: STATUS (R120), RES_MSG0 (R142) and RES_MSG1 (R143), and the End-Of-Track
test (R470). -/

namespace Sys2Proof.Machine

/-- The number of an error code (R600). -/
def errNumber : ErrCode → Nat
  | .ok => 0
  | .truncatedInput => 1
  | .needMoreData => 2
  | .unknownRunningStatus => 3
  | .invalidArgument => 4
  | .unknownStatus => 5
  | .vlqOverflow => 6
  | .illegalCommand => 7

/-- A flag as a word with that one bit. -/
def flagBit (b : Bool) (k : Nat) : Word := if b then (1 : Word) <<< k else 0

/-- STATUS.BUSY: 1 exactly when HELD is present (R149). -/
def busy (s : State) : Bool := s.held.isSome

/-- STATUS as the host reads it (R120); the reserved bits read 0. -/
def statusWord (s : State) : Word :=
  BitVec.ofNat 32 (errNumber s.err) ||| flagBit s.done 8 ||| flagBit s.errSeen 9 ||| flagBit (busy s) 10
    ||| flagBit s.sinkReady 11

/-- The two kinds of message (R451). -/
inductive MsgKind where
  | voice   -- CV
  | metaEvent   -- META
deriving DecidableEq, Repr

/-- The parse record of R451. -/
structure MsgRec where
  st : Byte
  sc : Bool
  kind : MsgKind
  fam : Byte
  chan : Byte
  d0 : Byte
  d1 : Byte
  vlqn : Nat
  len : Nat
  poff : Nat
  cons : Nat
deriving DecidableEq, Repr

/-- KIND is 1 for a meta message (R142, R460). -/
def isMeta (r : MsgRec) : Bool := decide (r.kind = .metaEvent)

/-- `isEndOfTrack` of R470: a meta message with type byte 0x2F, whatever its length (R471). -/
def isEot (r : MsgRec) : Bool := isMeta r && decide (r.d0 = 0x2F)

/-- RES_MSG0 of a parse record (R142, R460). -/
def msg0Word (r : MsgRec) : Word :=
  r.st.setWidth 32 ||| (r.fam.setWidth 32 <<< 8) ||| (r.chan.setWidth 32 <<< 16) ||| flagBit (isMeta r) 24
    ||| flagBit (isEot r) 25 ||| flagBit r.sc 26

/-- RES_MSG1 of a parse record (R143, R460). -/
def msg1Word (r : MsgRec) : Word :=
  r.d0.setWidth 32 ||| (r.d1.setWidth 32 <<< 8) ||| (BitVec.ofNat 32 r.vlqn <<< 16)

end Sys2Proof.Machine
end

