-- ==== Sys2Proof/Machine/Vlq.lean ====
section
/-! DEFINITION. The VLQ helpers `vlq_read` (R401) and `vlq_bytes` (R420), and the commands VLQDEC (R405) and VLQENC
(R425). -/

namespace Sys2Proof.Machine

/-- The loop of `vlq_read` (R401): `fuel` groups may still be read at offset `p`, `k` bytes are read and `acc` holds
their groups. Exhaustion is tested before each byte; when the last allowed byte has bit 7 set, VlqOverflow. -/
def vlqLoop (s : State) (e : ErrCode) : Nat → Nat → Nat → Nat → Attempt (Nat × Nat)
  | 0, _, _, _ => .raise .vlqOverflow
  | fuel + 1, p, k, acc =>
      (nextByte s e p).bind fun b =>
        let acc' := (acc <<< 7) ||| (b &&& 0x7F).toNat
        if b.getLsbD 7 then vlqLoop s e fuel (p + 1) (k + 1) acc' else .ok (acc', k + 1)

/-- `vlq_read(p, E_trunc)` of R401: the value and the number of bytes read. -/
def vlqRead (s : State) (e : ErrCode) (p : Nat) : Attempt (Nat × Nat) := vlqLoop s e vlqMaxGroups p 0 0

/-- The number of groups of the minimal encoding of a value ≤ 0x0FFFFFFF (R311; above that see log 19). -/
def vlqGroups (v : Nat) : Nat :=
  if v < 2 ^ 7 then 1 else if v < 2 ^ 14 then 2 else if v < 2 ^ 21 then 3 else 4

/-- Group `i` of `k`, the most significant first, with the continuation bit on every byte but the last (R420). -/
def vlqGroupByte (v k i : Nat) : Byte :=
  BitVec.ofNat 8 (((v >>> (7 * (k - 1 - i))) &&& 0x7F) ||| (if i < k - 1 then 0x80 else 0x00))

/-- `vlq_bytes(v)` of R420. -/
def vlqBytes (v : Nat) : List Byte := (List.range (vlqGroups v)).map (vlqGroupByte v (vlqGroups v))

/-- The commit of VLQDEC (R405). -/
def commitVlqdec (r : Nat × Nat) (s : State) : State :=
  complete .ok { s with resVal := BitVec.ofNat 32 r.1, resCons := BitVec.ofNat 32 r.2 }

/-- VLQDEC: one variable-length quantity at IBUF offset ARG0 (R405). -/
def execVlqdec (s : State) : Host.Outcome State Fault Refusal :=
  finish (vlqRead s .truncatedInput s.arg0.toNat) commitVlqdec s

/-- What VLQENC appends: the minimal encoding of ARG0; no latch changes (R425, R427). -/
def vlqencOut (s : State) : Attempt EncOut :=
  (check (valueOk s.arg0)).bind fun _ => .ok { bytes := vlqBytes s.arg0.toNat, ers := s.ers }

/-- VLQENC: append the minimal encoding of ARG0 (R425), held while the sink is not ready (R614). -/
def execVlqenc (s : State) : Host.Outcome State Fault Refusal :=
  finish (vlqencOut s) (commitOrHold .vlqenc) s

end Sys2Proof.Machine
end

