-- ==== Sys2Proof/Machine/MsgDecode.lean ====
section
/-! DEFINITION. The message parser `msg_parse` (R451) and the commands MSGDEC (R460) and EVTDEC (R480). -/

namespace Sys2Proof.Machine

/-- The meta case of R451, from the offset `q` of the type byte (R464). `p` is the message start. -/
def metaBody (s : State) (p : Nat) (sc : Bool) (q : Nat) : Attempt MsgRec :=
  (nextByte s .needMoreData q).bind fun t =>
    (vlqRead s .needMoreData (q + 1)).bind fun r =>
      if s.inLen.toNat < q + 1 + r.2 + r.1 then .raise .needMoreData
      else
        .ok
          { st := 0xFF, sc := sc, kind := .metaEvent, fam := 0xFF, chan := 0, d0 := t, d1 := 0
            vlqn := r.2, len := r.1, poff := q + 1 + r.2, cons := q + 1 + r.2 + r.1 - p }

/-- The channel-voice case of R451, from the offset `q` of the first data byte (R462). A status whose family is not in
the table of R17 raises UnknownStatus (R463; log 12). -/
def voiceBody (s : State) (st : Byte) (sc : Bool) (q : Nat) : Attempt MsgRec :=
  match familyLen (familyOf st) with
  | none => .raise .unknownStatus
  | some n =>
      if s.inLen.toNat < q + n then .raise .needMoreData
      else
        (inByte s q).bind fun d0 =>
          (if n = 2 then inByte s (q + 1) else .ok 0).bind fun d1 =>
            .ok
              { st := st, sc := sc, kind := .voice, fam := familyOf st, chan := channelOf st, d0 := d0, d1 := d1
                vlqn := 0, len := n, poff := q, cons := sc.toNat + n }

/-- The rest of a message once its status is known: meta for 0xFF, else channel voice (R451). -/
def msgBody (s : State) (p : Nat) (st : Byte) (sc : Bool) (q : Nat) : Attempt MsgRec :=
  if st = 0xFF then metaBody s p sc q else voiceBody s st sc q

/-- `msg_parse(p)` of R451: a byte with bit 7 set is consumed as the status (R452); otherwise the status in DRS is
reused and the byte is not consumed (R461), or UnknownRunningStatus is raised (R454). -/
def msgParse (s : State) (p : Nat) : Attempt MsgRec :=
  (nextByte s .needMoreData p).bind fun b =>
    if b.getLsbD 7 then msgBody s p b true (p + 1)
    else
      match s.drs with
      | none => .raise .unknownRunningStatus
      | some st => msgBody s p st false p

/-- The registers a decoded message is committed to (R460), with `pre` bytes of delta before it. -/
def storeMsg (pre : Nat) (r : MsgRec) (s : State) : State :=
  { s with
    drs := some r.st
    resCons := BitVec.ofNat 32 (pre + r.cons)
    resMsg0 := msg0Word r
    resMsg1 := msg1Word r
    resLen := BitVec.ofNat 32 r.len
    resPoff := BitVec.ofNat 32 r.poff }

/-- The commit of MSGDEC (R460, R456). -/
def commitMsg (r : MsgRec) (s : State) : State := complete .ok (storeMsg 0 r s)

/-- MSGDEC: one message at IBUF offset ARG0 with the running status in DRS (R460). -/
def execMsgdec (s : State) : Host.Outcome State Fault Refusal := finish (msgParse s s.arg0.toNat) commitMsg s

/-- A decoded event: the delta, its length in bytes, and the message (R480). -/
structure EvtRec where
  delta : Nat
  deltaLen : Nat
  msg : MsgRec
deriving DecidableEq, Repr

/-- The event at offset `p`: a VLQ delta, then a message (R480). Exhaustion in the delta is NeedMoreData (R481). -/
def evtParse (s : State) (p : Nat) : Attempt EvtRec :=
  (vlqRead s .needMoreData p).bind fun d =>
    (msgParse s (p + d.2)).bind fun r => .ok { delta := d.1, deltaLen := d.2, msg := r }

/-- The commit of EVTDEC: the delta and the message together (R480, R482). -/
def commitEvt (r : EvtRec) (s : State) : State :=
  complete .ok { storeMsg r.deltaLen r.msg s with resVal := BitVec.ofNat 32 r.delta }

/-- EVTDEC: one event at IBUF offset ARG0 (R480). -/
def execEvtdec (s : State) : Host.Outcome State Fault Refusal := finish (evtParse s s.arg0.toNat) commitEvt s

end Sys2Proof.Machine
end

