-- ==== Sys2Proof/Machine/MsgEncode.lean ====
section
/-! DEFINITION. Running-status compression `msg_bytes` (R502) and the commands MSGENC (R505), EVTENC (R515) and CVENC
(R525). -/

namespace Sys2Proof.Machine

/-- `msg_bytes(s, data)` of R502: the status byte is left out when ERS already holds it, for every status (R503). -/
def msgBytes (ers : Latch) (st : Byte) (data : List Byte) : EncOut :=
  if ers = some st then { bytes := data, ers := ers } else { bytes := st :: data, ers := some st }

/-- Puts a delta's VLQ bytes before a message's bytes (R211, R515). -/
def withDelta (d : Word) (o : EncOut) : EncOut := { o with bytes := vlqBytes d.toNat ++ o.bytes }

/-- The message MSGENC and EVTENC emit: the status and EBUF range checks (R504, R501), then ARG3 bytes of EBUF from
offset ARG2 after the status in ARG1. The data are not checked (R506). -/
def messageOut (s : State) : Attempt EncOut :=
  (check (statusOk s.arg1)).bind fun _ =>
    (check (rangeOk s s.arg2 s.arg3)).bind fun _ =>
      (ebufBytes s s.arg2.toNat s.arg3.toNat).bind fun data => .ok (msgBytes s.ers (s.arg1.setWidth 8) data)

/-- What MSGENC appends (R505). -/
def msgencOut (s : State) : Attempt EncOut := messageOut s

/-- What EVTENC appends: the delta, checked first (R516), then the message (R515). -/
def evtencOut (s : State) : Attempt EncOut :=
  (check (valueOk s.arg0)).bind fun _ => (messageOut s).bind fun o => .ok (withDelta s.arg0 o)

/-- What CVENC appends: family, channel and delta checks in that order (R615), then the delta, the status
`family | channel` and the family's number of data bytes from ARG3 (R525). -/
def cvencOut (s : State) : Attempt EncOut :=
  match familyOperand s.arg1 with
  | none => .raise .invalidArgument
  | some n =>
      (check (channelOk s.arg2)).bind fun _ =>
        (check (valueOk s.arg0)).bind fun _ =>
          .ok (withDelta s.arg0 (msgBytes s.ers ((s.arg1 ||| s.arg2).setWidth 8) (packedData n s.arg3)))

/-- MSGENC: one message with running-status compression (R505), held while the sink is not ready (R614). -/
def execMsgenc (s : State) : Host.Outcome State Fault Refusal := finish (msgencOut s) (commitOrHold .msgenc) s

/-- EVTENC: one event, a delta and then a message (R515), held while the sink is not ready (R614). -/
def execEvtenc (s : State) : Host.Outcome State Fault Refusal := finish (evtencOut s) (commitOrHold .evtenc) s

/-- CVENC: one validated channel-voice event (R525), held while the sink is not ready (R614). -/
def execCvenc (s : State) : Host.Outcome State Fault Refusal := finish (cvencOut s) (commitOrHold .cvenc) s

end Sys2Proof.Machine
end

