-- ==== Sys2Proof/Machine/Latch.lean ====
section
/-! DEFINITION. The latch commands DCLR (R550), ECLR (R555), LDRS (R560) and LERS (R565). -/

namespace Sys2Proof.Machine

/-- Writes DRS and completes. -/
def commitDrs (l : Latch) (s : State) : State := complete .ok { s with drs := l }

/-- Writes ERS and completes. -/
def commitErs (l : Latch) (s : State) : State := complete .ok { s with ers := l }

/-- DCLR: clear the decode latch (R550). -/
def execDclr (s : State) : Host.Outcome State Fault Refusal := .next (commitDrs none s)

/-- ECLR: clear the encode latch (R555). -/
def execEclr (s : State) : Host.Outcome State Fault Refusal := .next (commitErs none s)

/-- LDRS: load the decode latch from the image in ARG1 (R560). -/
def execLdrs (s : State) : Host.Outcome State Fault Refusal := finish (latchOperand s.arg1) commitDrs s

/-- LERS: load the encode latch from the image in ARG1 (R565). -/
def execLers (s : State) : Host.Outcome State Fault Refusal := finish (latchOperand s.arg1) commitErs s

end Sys2Proof.Machine
end

