-- ==== Sys2Proof/Machine/Dispatch.lean ====
section
/-! DEFINITION. One arm per command of the opcode table: the command's meaning. -/

namespace Sys2Proof.Machine

def exec (i : Instr) (s : State) : Host.Outcome State Fault Refusal :=
  match i with
  | .vlqdec => Sys2Proof.Machine.execVlqdec s
  | .vlqenc => Sys2Proof.Machine.execVlqenc s
  | .msgdec => Sys2Proof.Machine.execMsgdec s
  | .evtdec => Sys2Proof.Machine.execEvtdec s
  | .msgenc => Sys2Proof.Machine.execMsgenc s
  | .evtenc => Sys2Proof.Machine.execEvtenc s
  | .cvenc => Sys2Proof.Machine.execCvenc s
  | .dclr => Sys2Proof.Machine.execDclr s
  | .eclr => Sys2Proof.Machine.execEclr s
  | .ldrs => Sys2Proof.Machine.execLdrs s
  | .lers => Sys2Proof.Machine.execLers s

end Sys2Proof.Machine
end

