-- ==== Sys2Proof/Machine/Bus.lean ====
section
/-! DEFINITION. The host bus: the address map (R220), register and buffer accesses (R104, R130, R216, R217, R219), and the
issue of a command by a CMD write (R300), with IllegalCommand for a reserved word (R570). -/

namespace Sys2Proof.Machine

/-- Which window of R220 an address falls in. -/
inductive Window where
  | reg (r : Reg)
  | misalignedReg
  | reservedReg
  | ibuf (i : Nat)
  | ebuf (i : Nat)
  | unmapped
deriving DecidableEq, Repr

/-- The address map of R220. The IBUF and EBUF windows get the whole 2^28 addresses from their bases; whether the index
is inside the buffer is tested at the access (R217). -/
def windowOf (a : Addr) : Window :=
  if a.toNat < 0x40 then
    match regAt a.toNat with
    | some r => .reg r
    | none => .misalignedReg
  else if a.toNat < 0x10000 then .reservedReg
  else if a.toNat < ibufBase then .unmapped
  else if a.toNat < ebufBase then .ibuf (a.toNat - ibufBase)
  else if a.toNat < ebufBase + 2 ^ 28 then .ebuf (a.toNat - ebufBase)
  else .unmapped

/-- What a register reads as (R103, R104, R110, R120). -/
def readReg (r : Reg) (s : State) : Word :=
  match r with
  | .cmd => s.cmd
  | .status => statusWord s
  | .arg0 => s.arg0
  | .arg1 => s.arg1
  | .arg2 => s.arg2
  | .arg3 => s.arg3
  | .inLen => s.inLen
  | .drs => latchImage s.drs
  | .ers => latchImage s.ers
  | .resVal => s.resVal
  | .resCons => s.resCons
  | .resMsg0 => s.resMsg0
  | .resMsg1 => s.resMsg1
  | .resLen => s.resLen
  | .resPoff => s.resPoff
  | .outCnt => s.outCnt

/-- What a buffer byte reads as on the bus: the byte written, or the free value of a byte not written since reset
(R204; log 6). -/
def busByte (s : State) (a : Nat) : Byte := (memRead s.mem a).getD (Config.unwrittenByte s.epoch a)

/-- Hands a read's data to the host. The block does not change (R219(a)). -/
def giveHost (w : Word) (s : State) : State := { s with hostData := w }

/-- An 8-bit read inside a buffer, else a refusal (R217). -/
def readBuffer (w : Width) (a : Addr) (i size : Nat) (s : State) : Host.Outcome State Fault Refusal :=
  if w = .b8 ∧ i < size then .next (giveHost ((busByte s a.toNat).setWidth 32) s)
  else .refused (.badBufferAccess a)

/-- A host read (R216, R217, R219, R221). -/
def hostRead (w : Width) (a : Addr) (s : State) : Host.Outcome State Fault Refusal :=
  match windowOf a with
  | .reg r => if w = .b32 then .next (giveHost (readReg r s) s) else .refused (.badRegisterAccess a)
  | .misalignedReg => .refused (.badRegisterAccess a)
  | .reservedReg => .refused (.reservedRegister a)
  | .ibuf i => readBuffer w a i s.cfg.ibufSize s
  | .ebuf i => readBuffer w a i s.cfg.ebufSize s
  | .unmapped => .refused (.unmappedAddress a)

/-- IN_LEN's write clamp: `min(w, IBUF_SIZE)` (R130). -/
def clampInLen (s : State) (w : Word) : Word := BitVec.ofNat 32 (min w.toNat s.cfg.ibufSize)

/-- A CMD write with BUSY = 0 stores the word and issues the command it encodes (R300, R104); a reserved word completes
as IllegalCommand and changes nothing else (R570). -/
def issue (w : Word) (s : State) : Host.Outcome State Fault Refusal :=
  match decode w with
  | .command i => exec i { s with cmd := w }
  | .reservedOpcode _ => .next (complete .illegalCommand { s with cmd := w })
  | .reservedBits _ => .next (complete .illegalCommand { s with cmd := w })

/-- A 32-bit write of a register: CMD issues, ARG0 to ARG3 store, IN_LEN clamps, and a write to a read-only register is
ignored (R104, R106, R130, R300). -/
def writeReg (r : Reg) (w : Word) (s : State) : Host.Outcome State Fault Refusal :=
  match r with
  | .cmd => issue w s
  | .arg0 => .next { s with arg0 := w }
  | .arg1 => .next { s with arg1 := w }
  | .arg2 => .next { s with arg2 := w }
  | .arg3 => .next { s with arg3 := w }
  | .inLen => .next { s with inLen := clampInLen s w }
  | .status => .next s
  | .drs => .next s
  | .ers => .next s
  | .resVal => .next s
  | .resCons => .next s
  | .resMsg0 => .next s
  | .resMsg1 => .next s
  | .resLen => .next s
  | .resPoff => .next s
  | .outCnt => .next s

/-- Stores a byte at a bus address of a buffer (R219(d)). -/
def storeByte (a : Nat) (b : Byte) (s : State) : State := { s with mem := memWrite s.mem a b }

/-- An 8-bit write inside a buffer, else a refusal (R217). -/
def writeBuffer (w : Width) (a : Addr) (data : Word) (i size : Nat) (s : State) : Host.Outcome State Fault Refusal :=
  if w = .b8 ∧ i < size then .next (storeByte a.toNat (data.setWidth 8) s) else .refused (.badBufferAccess a)

/-- A host write with BUSY = 0 (R216, R217, R219, R221). -/
def hostWrite (w : Width) (a : Addr) (data : Word) (s : State) : Host.Outcome State Fault Refusal :=
  match windowOf a with
  | .reg r => if w = .b32 then writeReg r data s else .refused (.badRegisterAccess a)
  | .misalignedReg => .refused (.badRegisterAccess a)
  | .reservedReg => .refused (.reservedRegister a)
  | .ibuf i => writeBuffer w a data i s.cfg.ibufSize s
  | .ebuf i => writeBuffer w a data i s.cfg.ebufSize s
  | .unmapped => .refused (.unmappedAddress a)

end Sys2Proof.Machine
end

