-- ==== Sys2Proof/Machine/Agents.lean ====
section
/-! DEFINITION. What the three agents of R9 do in one step: the sink drives SINK_READY, then the reset input, the held
command or the host's next move takes the step (R230, R614, R701; log 1, log 2). -/

namespace Sys2Proof.Machine

/-- The sink drives its next level; with no level pending the input keeps the level it has (I-7; log 2). -/
def drawSink (s : State) : State :=
  match s.sinkInput with
  | [] => s
  | b :: rest => { s with sinkReady := b, sinkInput := rest }

/-- The reset input (R700): every piece of the block's state takes its reset value, so a held command is dropped and
appends nothing (R701). The capacities, the sink and the host stay as they are (log 8). The input is driven by a move of the
host (log 21). -/
def hwReset (s : State) : State :=
  { State.reset with
    cfg := s.cfg
    sinkReady := s.sinkReady
    sinkInput := s.sinkInput
    hostMoves := s.hostMoves
    hostData := s.hostData
    epoch := s.epoch + 1 }

/-- The host's next move. While BUSY = 1 a write is refused and a read is allowed (R730, R740; log 9). With no move
pending the step leaves the state as it is. -/
def hostTurn (s : State) : Host.Outcome State Fault Refusal :=
  match s.hostMoves with
  | [] => .next s
  | .idle :: rest => .next { s with hostMoves := rest }
  | .reset :: rest => .next (hwReset { s with hostMoves := rest })
  | .read w a :: rest => hostRead w a { s with hostMoves := rest }
  | .write w a data :: rest =>
      if busy s then .refused (.hostWriteWhileBusy a) else hostWrite w a data { s with hostMoves := rest }

/-- The block's turn: a held command completes in the first step with SINK_READY = 1, from the operands it was issued
with, which the host has not been able to change (R614(c), R230, R740; log 13). Otherwise the host moves. -/
def blockTurn (s : State) : Host.Outcome State Fault Refusal :=
  match s.held with
  | some c => if s.sinkReady then exec (heldInstr c) s else hostTurn s
  | none => hostTurn s

/-- A step after the sink has driven its level: an asserted reset comes first (R701; log 1). -/
def turn (s : State) : Host.Outcome State Fault Refusal :=
  match s.hostMoves with
  | .reset :: rest => .next (hwReset { s with hostMoves := rest })
  | _ => blockTurn s

end Sys2Proof.Machine
end

