-- ==== Sys2Proof/Machine/Step.lean ====
section
/-! DEFINITION. One step of the machine, and the host's hook that makes the next step issue a given command word. -/

namespace Sys2Proof.Machine

/-- One step of the total order of R230: the sink drives its level, then one agent moves. -/
def step (s : State) : Host.Outcome State Fault Refusal := turn (drawSink s)

/-- The state with a CMD write of the word put before the host's moves, and no command held, since a held command would
keep the host from writing (R740; log 14). So the next step issues that word. -/
def State.withFetchWord (s : State) (nbits w : Nat) : State :=
  { s with
    held := none
    hostMoves := .write .b32 (regAddr .cmd) (BitVec.ofNat 32 (w % 2 ^ nbits)) :: s.hostMoves }

end Sys2Proof.Machine
end

