-- ==== Sys2Proof/Safety.lean ====
section
/-! DEFINITION. What a legal state is (the invariant of every step), and the words the statements use: bytes standing in
a buffer, the VLQ format as R310 writes it, the start of a message (R315), the result words as R142 and R143 lay them
out, a form's operands (R330), and a run of several steps. -/

namespace Sys2Proof

open Sys2Proof.Machine

/-! ### Legal states -/

/-- A latch holds none or a byte in [0x80, 0xFF] (R14, R110). -/
abbrev latchOk (l : Latch) : Prop := ∀ v ∈ l, 0x80 ≤ v.toNat

/-- The bus addresses of the two buffers (R220). -/
abbrev inBuffers (cfg : Config) (a : Nat) : Prop :=
  (ibufBase ≤ a ∧ a < ibufBase + cfg.ibufSize) ∨ (ebufBase ≤ a ∧ a < ebufBase + cfg.ebufSize)

/-- What an encode command would append (R425, R505, R515, R525). -/
def encodeOf (c : EncCmd) (s : State) : Attempt EncOut :=
  match c with
  | .vlqenc => vlqencOut s
  | .msgenc => msgencOut s
  | .evtenc => evtencOut s
  | .cvenc => cvencOut s

/-- A held command waits for a sink that is not ready, and its operands passed every check (R614(c)). -/
def heldOk (s : State) : Prop := ∀ c ∈ s.held, s.sinkReady = false ∧ ∃ o, encodeOf c s = .ok o

/-- The message words agree with each other as R142 and R143 say, and their reserved bits read 0 (I-12). -/
structure MsgWordsOk (m0 m1 : Word) : Prop where
  reserved : m0.extractLsb' 20 4 = 0 ∧ m0.extractLsb' 27 5 = 0 ∧ m1.extractLsb' 24 8 = 0
  voice : m0.getLsbD 24 = false →
    m0.extractLsb' 8 8 = m0.extractLsb' 0 8 &&& 0xF0#8 ∧
      (m0.extractLsb' 16 4).setWidth 8 = m0.extractLsb' 0 8 &&& 0x0F#8 ∧ m1.extractLsb' 16 8 = 0
  metaEvent : m0.getLsbD 24 = true →
    m0.extractLsb' 0 8 = 0xFF#8 ∧ m0.extractLsb' 8 8 = 0xFF#8 ∧ m0.extractLsb' 16 4 = 0 ∧
      m1.extractLsb' 8 8 = 0 ∧ 1 ≤ (m1.extractLsb' 16 8).toNat ∧ (m1.extractLsb' 16 8).toNat ≤ 4
  eot : m0.getLsbD 25 = (m0.getLsbD 24 && decide (m1.extractLsb' 0 8 = 0x2F#8))

/-- The invariant of the machine: what the rules promise of every state a run reaches. -/
structure Legal (s : State) : Prop where
  /-- R10. -/
  cfg_wf : s.cfg.wf
  /-- The memory's canonical form. -/
  mem_wf : memWf s.mem
  /-- Only buffer bytes are stored (R220). -/
  mem_inside : ∀ x ∈ s.mem, inBuffers s.cfg x.1
  /-- R130. -/
  inLen_le : s.inLen.toNat ≤ s.cfg.ibufSize
  /-- R110. -/
  drs_ok : latchOk s.drs
  /-- R111. -/
  ers_ok : latchOk s.ers
  /-- R140. -/
  resVal_le : s.resVal.toNat ≤ vlqMaxValue
  /-- R144. -/
  resLen_le : s.resLen.toNat ≤ vlqMaxValue
  /-- R145: the data or payload the result registers point at lies in IBUF. -/
  resEnd_le : s.resPoff.toNat + s.resLen.toNat ≤ s.cfg.ibufSize
  /-- R142, R143. -/
  msg_ok : MsgWordsOk s.resMsg0 s.resMsg1
  /-- R146. -/
  outCnt_eq : s.outCnt = BitVec.ofNat 32 s.out.length
  /-- R120: ERR_SEEN is set by every completion with an error. -/
  err_seen : s.err ≠ .ok → s.errSeen = true
  /-- R120: an error seen is a command completed. -/
  seen_done : s.errSeen = true → s.done = true
  /-- R149, R614. -/
  held_ok : heldOk s

/-! ### Bytes in the buffers -/

/-- The bytes stand in IBUF from offset `p`, all below IN_LEN, and the host has written them since reset. -/
abbrev ibufAt (s : State) (p : Nat) (bs : List Byte) : Prop :=
  p + bs.length ≤ s.inLen.toNat ∧ ∀ i b, bs[i]? = some b → ibufByte s (p + i) = some b

/-- The bytes stand in EBUF from offset `off`, and the host has written them since reset. -/
abbrev ebufAt (s : State) (off : Nat) (bs : List Byte) : Prop :=
  ∀ i b, bs[i]? = some b → ebufByte s (off + i) = some b

/-- From offset `p` on, `j` is the first byte of a buffer that the host has not written since reset. -/
abbrev firstUnwritten (byte : Nat → Option Byte) (p j : Nat) : Prop :=
  p ≤ j ∧ byte j = none ∧ ∀ k, p ≤ k → k < j → byte k ≠ none

/-! ### The formats of 30_encoding.md -/

/-- R310: bit 7 is set on every byte but the last. -/
def isVlq : List Byte → Bool
  | [] => false
  | b :: bs => if bs.isEmpty then !b.getLsbD 7 else b.getLsbD 7 && isVlq bs

/-- R310: the sum of b_i[6:0] · 2^(7·(k-1-i)). -/
def vlqValue : List Byte → Nat
  | [] => 0
  | b :: bs => b.toNat % 2 ^ 7 * 2 ^ (7 * bs.length) + vlqValue bs

/-- A VLQ of R310: 1 to 4 bytes. -/
abbrev vlqForm (bs : List Byte) : Prop := isVlq bs = true ∧ bs.length ≤ 4

/-- The start of a message at offset `p` with status `st` in effect and its data from `q` (R315, R452, R461): either the
status byte stands at `p` (`sc`), or DRS holds it and the byte at `p` has bit 7 clear. -/
abbrev msgHead (s : State) (p : Nat) (st : Byte) (sc : Bool) (q : Nat) : Prop :=
  (sc = true ∧ q = p + 1 ∧ ibufAt s p [st] ∧ st.getLsbD 7 = true) ∨
    (sc = false ∧ q = p ∧ s.drs = some st ∧ ∃ b, ibufAt s p [b] ∧ b.getLsbD 7 = false)

/-- R142 as a number: ST, FAM, CHAN, KIND, EOT and SC at their places. -/
def msg0Image (st fam chan : Nat) (kind eot sc : Bool) : Word :=
  BitVec.ofNat 32
    (st + fam * 2 ^ 8 + chan * 2 ^ 16 + kind.toNat * 2 ^ 24 + eot.toNat * 2 ^ 25 + sc.toNat * 2 ^ 26)

/-- R143 as a number: D0, D1 and VLQN at their places. -/
def msg1Image (d0 d1 vlqn : Nat) : Word := BitVec.ofNat 32 (d0 + d1 * 2 ^ 8 + vlqn * 2 ^ 16)

/-- The registers after a successful decode of a channel-voice message with its data at `q` (R142 to R145, R456, R612);
`pre` bytes of delta were read before it. -/
def afterVoice (s : State) (pre : Nat) (st : Byte) (sc : Bool) (q : Nat) (data : List Byte) : State :=
  { s with
    drs := some st
    resCons := BitVec.ofNat 32 (pre + sc.toNat + data.length)
    resMsg0 := msg0Image st.toNat (st.toNat / 16 * 16) (st.toNat % 16) false false sc
    resMsg1 := msg1Image (data.getD 0 0).toNat (data.getD 1 0).toNat 0
    resLen := BitVec.ofNat 32 data.length
    resPoff := BitVec.ofNat 32 q
    err := .ok
    done := true
    held := none }

/-- The registers after a successful decode of a meta message with type `t` at `q`, the VLQ length `lenBytes` after it
and its payload after that (R142 to R145, R456, R612); `pre` bytes of delta were read before it. -/
def afterMeta (s : State) (pre : Nat) (sc : Bool) (q : Nat) (t : Byte) (lenBytes : List Byte) : State :=
  { s with
    drs := some 0xFF
    resCons := BitVec.ofNat 32 (pre + sc.toNat + 1 + lenBytes.length + vlqValue lenBytes)
    resMsg0 := msg0Image 0xFF 0xFF 0 true (decide (t.toNat = 0x2F)) sc
    resMsg1 := msg1Image t.toNat 0 lenBytes.length
    resLen := BitVec.ofNat 32 (vlqValue lenBytes)
    resPoff := BitVec.ofNat 32 (q + 1 + lenBytes.length)
    err := .ok
    done := true
    held := none }

/-- The number of data bytes of a channel-voice status: 1 for 0xC0-0xDF, else 2 (R17). -/
abbrev voiceLen (st : Byte) : Nat := if 0xC0 ≤ st.toNat ∧ st.toNat ≤ 0xDF then 1 else 2

/-- A channel-voice status byte: 0x80 to 0xEF (R19). -/
abbrev voiceStatus (st : Byte) : Prop := 0x80 ≤ st.toNat ∧ st.toNat ≤ 0xEF

/-- The registers after an encode command that appended `bs` and left `e` in ERS (R507, R612). -/
def afterAppend (s : State) (bs : List Byte) (e : Latch) : State :=
  { s with
    out := s.out ++ bs
    ers := e
    resCons := BitVec.ofNat 32 bs.length
    outCnt := BitVec.ofNat 32 (s.outCnt.toNat + bs.length)
    err := .ok
    done := true
    held := none }

/-- The state in which a command has completed with an error code and committed nothing else (R612, R617). -/
def afterError (s : State) (e : ErrCode) : State :=
  { s with err := e, done := true, errSeen := true, held := none }

/-- The bytes of a message after compression against ERS (R502). -/
abbrev compressed (ers : Latch) (st : Byte) (data : List Byte) : List Byte :=
  if ers = some st then data else st :: data

/-- The state `t` has the registers of a complete message at IBUF offset `p`, channel voice or meta, with `pre` bytes of delta
before it (R451, R460). -/
def commitsMessage (s : State) (pre p : Nat) (t : State) : Prop :=
  (∃ st sc q data, msgHead s p st sc q ∧ voiceStatus st ∧ data.length = voiceLen st ∧ ibufAt s q data ∧
    t = afterVoice s pre st sc q data) ∨
  (∃ sc q ty bs, msgHead s p 0xFF sc q ∧ vlqForm bs ∧ ibufAt s q (ty :: bs) ∧
    q + 1 + bs.length + vlqValue bs ≤ s.inLen.toNat ∧ t = afterMeta s pre sc q ty bs)

/-- The state `t` has every write that the command's rule lists for a success, and no other (R616): the commit blocks of R405,
R425, R460, R480, R505, R515, R525, R550, R555, R560 and R565. -/
def commitsAll (i : Instr) (s t : State) : Prop :=
  match i with
  | .vlqdec => ∃ bs, vlqForm bs ∧ ibufAt s s.arg0.toNat bs ∧
      t = { s with
        resVal := BitVec.ofNat 32 (vlqValue bs), resCons := BitVec.ofNat 32 bs.length
        err := .ok, done := true, held := none }
  | .vlqenc => t = afterAppend s (vlqBytes s.arg0.toNat) s.ers
  | .msgdec => commitsMessage s 0 s.arg0.toNat t
  | .evtdec => ∃ ds u, vlqForm ds ∧ ibufAt s s.arg0.toNat ds ∧
      commitsMessage s ds.length (s.arg0.toNat + ds.length) u ∧
      t = { u with resVal := BitVec.ofNat 32 (vlqValue ds) }
  | .msgenc => ∃ data, data.length = s.arg3.toNat ∧ ebufAt s s.arg2.toNat data ∧
      t = afterAppend s (compressed s.ers (BitVec.ofNat 8 s.arg1.toNat) data) (some (BitVec.ofNat 8 s.arg1.toNat))
  | .evtenc => ∃ data, data.length = s.arg3.toNat ∧ ebufAt s s.arg2.toNat data ∧
      t = afterAppend s (vlqBytes s.arg0.toNat ++ compressed s.ers (BitVec.ofNat 8 s.arg1.toNat) data)
        (some (BitVec.ofNat 8 s.arg1.toNat))
  | .cvenc => ∃ st : Byte, st.toNat = s.arg1.toNat + s.arg2.toNat ∧
      t = afterAppend s
        (vlqBytes s.arg0.toNat ++ compressed s.ers st
          ([BitVec.ofNat 8 s.arg3.toNat, BitVec.ofNat 8 (s.arg3.toNat / 2 ^ 8)].take (voiceLen st)))
        (some st)
  | .dclr => t = { s with drs := none, err := .ok, done := true, held := none }
  | .eclr => t = { s with ers := none, err := .ok, done := true, held := none }
  | .ldrs => ∃ l : Latch, latchOk l ∧ s.arg1.toNat = l.elim 0 (fun v => 0x100 + v.toNat) ∧
      t = { s with drs := l, err := .ok, done := true, held := none }
  | .lers => ∃ l : Latch, latchOk l ∧ s.arg1.toNat = l.elim 0 (fun v => 0x100 + v.toNat) ∧
      t = { s with ers := l, err := .ok, done := true, held := none }

/-! ### Steps -/

/-- `k` steps of the machine. -/
def run (k : Nat) (s : State) : Host.Outcome State Fault Refusal := Host.Core.run Sys2Proof.core k s

/-- The command a form writes to CMD (R330). -/
def asmInstr : Asm → Instr
  | .vlqdec _ => .vlqdec
  | .vlqenc _ => .vlqenc
  | .msgdec _ => .msgdec
  | .evtdec _ => .evtdec
  | .msgenc _ _ _ => .msgenc
  | .evtenc _ _ _ _ => .evtenc
  | .cvenc _ _ _ _ => .cvenc
  | .dclr => .dclr
  | .eclr => .eclr
  | .ldrs _ => .ldrs
  | .lers _ => .lers

/-- The operands a form lists, by ARG register (R330). -/
def asmArgs : Asm → ArgWrites
  | .vlqdec p => ⟨p, none, none, none⟩
  | .vlqenc v => ⟨v, none, none, none⟩
  | .msgdec p => ⟨p, none, none, none⟩
  | .evtdec p => ⟨p, none, none, none⟩
  | .msgenc s off n => ⟨none, s, off, n⟩
  | .evtenc d s off n => ⟨d, s, off, n⟩
  | .cvenc d f c data => ⟨d, f, c, data⟩
  | .dclr => ⟨none, none, none, none⟩
  | .eclr => ⟨none, none, none, none⟩
  | .ldrs img => ⟨none, img, none, none⟩
  | .lers img => ⟨none, img, none, none⟩

/-- The ARG registers after a form's operand writes: an operand left out keeps its register (R330). -/
def withArgs (a : ArgWrites) (s : State) : State :=
  { s with
    arg0 := a.a0.getD s.arg0
    arg1 := a.a1.getD s.arg1
    arg2 := a.a2.getD s.arg2
    arg3 := a.a3.getD s.arg3 }

/-- The commands that can be held (R149). -/
abbrev isEncode (i : Instr) : Prop := i = .vlqenc ∨ i = .msgenc ∨ i = .evtenc ∨ i = .cvenc

/-- The error codes each command can raise (R600). -/
def canRaise : Instr → List ErrCode
  | .vlqdec => [.truncatedInput, .vlqOverflow]
  | .vlqenc => [.invalidArgument]
  | .msgdec => [.needMoreData, .unknownRunningStatus, .unknownStatus, .vlqOverflow]
  | .evtdec => [.needMoreData, .unknownRunningStatus, .unknownStatus, .vlqOverflow]
  | .msgenc => [.invalidArgument]
  | .evtenc => [.invalidArgument]
  | .cvenc => [.invalidArgument]
  | .dclr => []
  | .eclr => []
  | .ldrs => [.invalidArgument]
  | .lers => [.invalidArgument]

/-- The accesses R216, R217 and R220 allow: an aligned 32-bit access of a register, or an 8-bit access inside a
buffer. -/
abbrev accessOk (cfg : Config) (w : Width) (a : Addr) : Prop :=
  (w = .b32 ∧ a.toNat < 0x40 ∧ a.toNat % 4 = 0) ∨ (w = .b8 ∧ inBuffers cfg a.toNat)

/-- The sixteen registers of R103 with what each holds: the latches as R110's image and STATUS as R120 lays it out. -/
def registerContents (s : State) : List (Nat × Word) :=
  [(0x00, s.cmd), (0x04, BitVec.ofNat 32 (errNumber s.err + s.done.toNat * 2 ^ 8 + s.errSeen.toNat * 2 ^ 9
      + s.held.isSome.toNat * 2 ^ 10 + s.sinkReady.toNat * 2 ^ 11)),
    (0x08, s.arg0), (0x0C, s.arg1), (0x10, s.arg2), (0x14, s.arg3), (0x18, s.inLen),
    (0x1C, BitVec.ofNat 32 (s.drs.elim 0 fun v => 0x100 + v.toNat)),
    (0x20, BitVec.ofNat 32 (s.ers.elim 0 fun v => 0x100 + v.toNat)),
    (0x24, s.resVal), (0x28, s.resCons), (0x2C, s.resMsg0), (0x30, s.resMsg1), (0x34, s.resLen), (0x38, s.resPoff),
    (0x3C, s.outCnt)]

/-- The offsets of the read-only registers (R103, R104). -/
def readOnlyOffsets : List Nat := [0x04, 0x1C, 0x20, 0x24, 0x28, 0x2C, 0x30, 0x34, 0x38, 0x3C]

/-- Every byte is a continuation byte: bit 7 set (R310). -/
abbrev allContinue (bs : List Byte) : Prop := ∀ b ∈ bs, b.getLsbD 7 = true

/-- Continuation bytes stand from `p` up to the end of the input: fewer than four, and IN_LEN comes next (R401). -/
abbrev runsOut (s : State) (p : Nat) : Prop :=
  s.inLen.toNat ≤ p ∨
    ∃ bs, allContinue bs ∧ bs.length < 4 ∧ ibufAt s p bs ∧ p + bs.length = s.inLen.toNat

/-- Four continuation bytes stand from `p` (R408). -/
abbrev overflows (s : State) (p : Nat) : Prop := ∃ bs, allContinue bs ∧ bs.length = 4 ∧ ibufAt s p bs

/-- Which of ARG0 to ARG3 a command reads (R302). -/
def readsArgs : Instr → Bool × Bool × Bool × Bool
  | .vlqdec => (true, false, false, false)
  | .vlqenc => (true, false, false, false)
  | .msgdec => (true, false, false, false)
  | .evtdec => (true, false, false, false)
  | .msgenc => (false, true, true, true)
  | .evtenc => (true, true, true, true)
  | .cvenc => (true, true, true, true)
  | .dclr => (false, false, false, false)
  | .eclr => (false, false, false, false)
  | .ldrs => (false, true, false, false)
  | .lers => (false, true, false, false)

/-- The state with other words in the ARG registers a command does not read. -/
def withOtherArgs (i : Instr) (w0 w1 w2 w3 : Word) (s : State) : State :=
  { s with
    arg0 := if (readsArgs i).1 then s.arg0 else w0
    arg1 := if (readsArgs i).2.1 then s.arg1 else w1
    arg2 := if (readsArgs i).2.2.1 then s.arg2 else w2
    arg3 := if (readsArgs i).2.2.2 then s.arg3 else w3 }

/-- The block's registers, latches, flags and HELD at the values R700 gives, with no buffer byte written and nothing
appended. -/
structure AtReset (s : State) : Prop where
  cmd : s.cmd = 0
  args : s.arg0 = 0 ∧ s.arg1 = 0 ∧ s.arg2 = 0 ∧ s.arg3 = 0
  inLen : s.inLen = 0
  latches : s.drs = none ∧ s.ers = none
  status : s.err = .ok ∧ s.done = false ∧ s.errSeen = false
  results : s.resVal = 0 ∧ s.resCons = 0 ∧ s.resMsg0 = 0 ∧ s.resMsg1 = 0 ∧ s.resLen = 0 ∧ s.resPoff = 0
  outCnt : s.outCnt = 0
  held : s.held = none
  buffers : ∀ i, ibufByte s i = none ∧ ebufByte s i = none
  out : s.out = []

/-- The host's next move is not an assertion of reset. -/
abbrev noReset (s : State) : Prop := s.hostMoves.head? ≠ some .reset

end Sys2Proof
end

