-- ==== Sys2Proof/Certificates/Slice0/Obligations.lean ====
section
/-! DEFINITION. The statements about VMC for the provers. Each docstring names the rules of spec/ a statement formalises,
and the log entry for a clause that is the model's choice. -/

open Sys2Proof Sys2Proof.Machine

/-! ### The command word and the assembly forms -/

/-- R301: the eleven opcodes, and every other word selects no command. -/
def Obligations.CommandWordsDecode : Prop :=
  decode 0x00000001 = .command .vlqdec ∧ decode 0x00000002 = .command .vlqenc ∧
  decode 0x00000003 = .command .msgdec ∧ decode 0x00000004 = .command .evtdec ∧
  decode 0x00000005 = .command .msgenc ∧ decode 0x00000006 = .command .evtenc ∧
  decode 0x00000007 = .command .cvenc ∧ decode 0x00000008 = .command .dclr ∧
  decode 0x00000009 = .command .eclr ∧ decode 0x0000000A = .command .ldrs ∧
  decode 0x0000000B = .command .lers ∧
  ∀ w : Word, (w.toNat = 0 ∨ 0xC ≤ w.toNat) → ∀ i, decode w ≠ .command i

/-- Decoding and encoding agree both ways (R300, R301), also through the opcode table's numbering (log 15). -/
def Obligations.DecodeEncodeAgree : Prop :=
  (∀ (w : Word) (i : Instr), decode w = .command i ↔ w = encode i) ∧
  ∀ i : Instr, decodeTableWord 32 (encode i).toNat = some i

/-- R330: reading back the host writes of a form gives the form, with every operand at every 32-bit value or left out,
whatever moves follow. -/
def Obligations.AssemblyFormReadsBack : Prop :=
  ∀ (a : Asm) (rest : List HostMove), disassemble (assemble a ++ rest) = some (a, rest)

/-- R330: the host writes of a form load the operands it lists, leave the other ARG registers as they are, and then run its
command. -/
def Obligations.AssemblyFormRunsItsCommand : Prop :=
  ∀ (a : Asm) (rest : List HostMove) (s : State), s.held = none → s.hostMoves = assemble a ++ rest →
    run (assemble a).length s =
      exec (asmInstr a)
        (withArgs (asmArgs a)
          { drawSink^[(assemble a).length] s with cmd := encode (asmInstr a), hostMoves := rest })

/-- R331: each pseudo-instruction, run from a state that is not busy, with a sink that is ready in the step that issues its
command, a delta in range and (where it has one) a channel in range, appends its event's bytes. The status byte is left out
when ERS holds it (R502). That the packed operands are bytes, and their order for the families the source does not show, is
the model's choice (log 16, G-2). -/
def Obligations.PseudoInstructionsEmitTheirEvent : Prop :=
  ∀ (s : State) (d c : Word) (x y : Byte) (rest : List HostMove),
    s.held = none → wfValue d → wfChannel c →
    ((drawSink^[5] s).sinkReady = true → ∀ (p : Pseudo) (fam : Nat) (data : List Byte),
      (p, fam, data) ∈
        [(Pseudo.noteoff d c x y, 0x80, [x, y]), (.noteon d c x y, 0x90, [x, y]), (.polyat d c x y, 0xA0, [x, y]),
          (.ctrl d c x y, 0xB0, [x, y]), (.prog d c x, 0xC0, [x]), (.chanat d c x, 0xD0, [x]),
          (.pbend d c x y, 0xE0, [x, y])] →
      s.hostMoves = expand p ++ rest →
      ∃ t, run 5 s = .next t ∧ t.err = .ok ∧ t.hostMoves = rest ∧
        t.ers = some (BitVec.ofNat 8 (fam + c.toNat)) ∧
        t.out = s.out ++ (vlqBytes d.toNat ++ compressed s.ers (BitVec.ofNat 8 (fam + c.toNat)) data)) ∧
    ((drawSink^[7] s).sinkReady = true → ∀ k : Word, s.cfg.wf → k.toNat + 2 ≤ s.cfg.ebufSize →
      s.hostMoves = expand (.endtrk d k) ++ rest →
      ∃ t, run 7 s = .next t ∧ t.err = .ok ∧ t.hostMoves = rest ∧ t.ers = some 0xFF ∧
        t.out = s.out ++ (vlqBytes d.toNat ++ compressed s.ers 0xFF [0x2F, 0x00]))

/-! ### The host bus -/

/-- R300: a CMD write with BUSY = 0 issues the command of the word with the current registers; with BUSY = 1 and the sink not
ready it is refused (R740). This is where a step runs the decoded instruction. -/
def Obligations.CmdWriteRunsDecodedCommand : Prop :=
  ∀ (s : State) (w : Word) (rest : List HostMove), s.hostMoves = .write .b32 0 w :: rest →
    (∀ i, s.held = none → decode w = .command i →
      step s = exec i { drawSink s with hostMoves := rest, cmd := w }) ∧
    (s.held ≠ none → (drawSink s).sinkReady = false → step s = .refused (.hostWriteWhileBusy 0))

/-- R570: a CMD word with a reserved OP or a non-zero Z completes as IllegalCommand, code 7; beside CMD itself (R104) only
STATUS is written. -/
def Obligations.ReservedWordCompletesIllegal : Prop :=
  errNumber .illegalCommand = 7 ∧
  ∀ (s : State) (w : Word) (rest : List HostMove), s.held = none → s.hostMoves = .write .b32 0 w :: rest →
    (w.toNat / 16 ≠ 0 ∨ w.toNat % 16 = 0 ∨ 0xC ≤ w.toNat % 16) →
    step s = .next (afterError { drawSink s with hostMoves := rest, cmd := w } .illegalCommand)

/-- The step after `withFetchWord` issues exactly that command (log 14), and nothing the host had pending is lost. -/
def Obligations.FetchWordIssuesCommand : Prop :=
  ∀ (s : State) (i : Instr),
    step (s.withFetchWord 32 (encode i).toNat) = exec i { drawSink s with held := none, cmd := encode i }

/-- R103, R110, R120, R219(a): a register read hands the host the register's contents and changes nothing else. A read
waits for a held command that completes in its step (log 1). -/
def Obligations.RegisterReadReturnsContents : Prop :=
  ∀ (s : State) (off : Nat) (v : Word) (rest : List HostMove),
    (s.held = none ∨ (drawSink s).sinkReady = false) →
    (off, v) ∈ registerContents (drawSink s) → s.hostMoves = .read .b32 (BitVec.ofNat 32 off) :: rest →
    step s = .next { drawSink s with hostMoves := rest, hostData := v }

/-- R104: a write to a read-only register changes no state; a read of CMD gives the last word written since reset, or 0: a CMD
write that is taken leaves its word there, nothing but such a write or a reset changes it, and a reset gives 0. -/
def Obligations.ReadOnlyWritesIgnoredAndCmdHolds : Prop :=
  (∀ (s : State) (off : Nat) (w : Word) (rest : List HostMove), s.held = none → off ∈ readOnlyOffsets →
    s.hostMoves = .write .b32 (BitVec.ofNat 32 off) w :: rest →
    step s = .next { drawSink s with hostMoves := rest }) ∧
  (∀ (s t : State) (w : Word) (rest : List HostMove), s.held = none → s.hostMoves = .write .b32 0 w :: rest →
    step s = .next t → t.cmd = w) ∧
  (∀ (s t : State), noReset s → (s.held ≠ none ∨ ∀ w, s.hostMoves.head? ≠ some (.write .b32 0 w)) →
    step s = .next t → t.cmd = s.cmd) ∧
  (∀ (s : State) (rest : List HostMove), s.held = none → s.hostMoves = .read .b32 0 :: rest →
    step s = .next { drawSink s with hostMoves := rest, hostData := s.cmd }) ∧
  (∀ (s t : State) (rest : List HostMove), s.hostMoves = .reset :: rest → step s = .next t → t.cmd = 0) ∧
  State.reset.cmd = 0

/-- R106, R130: a write of ARG0 to ARG3 stores the word, a write of IN_LEN stores min(w, IBUF_SIZE), and nothing else
changes. -/
def Obligations.OperandWritesStore : Prop :=
  ∀ (s : State) (off : Nat) (w : Word) (rest : List HostMove), s.held = none →
    s.hostMoves = .write .b32 (BitVec.ofNat 32 off) w :: rest →
    (off = 0x08 → step s = .next { drawSink s with hostMoves := rest, arg0 := w }) ∧
    (off = 0x0C → step s = .next { drawSink s with hostMoves := rest, arg1 := w }) ∧
    (off = 0x10 → step s = .next { drawSink s with hostMoves := rest, arg2 := w }) ∧
    (off = 0x14 → step s = .next { drawSink s with hostMoves := rest, arg3 := w }) ∧
    (off = 0x18 → step s =
      .next { drawSink s with hostMoves := rest, inLen := BitVec.ofNat 32 (min w.toNat s.cfg.ibufSize) })

/-- R201, R202, R219(d), R220: an 8-bit write inside a buffer, with no command held, stores a byte there; every other byte of
the bus and every register keeps its value. That the byte is bits 7:0 of the move's data is the model's choice (log 7). -/
def Obligations.BufferWriteStoresOneByte : Prop :=
  ∀ (s : State) (base size i : Nat) (w : Word) (rest : List HostMove), s.cfg.wf → s.held = none →
    (base, size) ∈ [(0x10000000, s.cfg.ibufSize), (0x20000000, s.cfg.ebufSize)] → i < size →
    s.hostMoves = .write .b8 (BitVec.ofNat 32 (base + i)) w :: rest →
    ∃ m, step s = .next { drawSink s with hostMoves := rest, mem := m } ∧
      memRead m (base + i) = some (BitVec.ofNat 8 w.toNat) ∧
      ∀ a, a ≠ base + i → memRead m a = memRead s.mem a

/-- R201, R202, R219(a): an 8-bit read inside a buffer, in a step in which no held command completes, hands the host the byte
written there and changes nothing else. A byte not written since reset gives the free value of log 6, whatever it is. That a
held command completes before a read is the model's choice (log 1), and so is the zero extension of the byte (log 7). -/
def Obligations.BufferReadReturnsByte : Prop :=
  ∀ (s : State) (base size i : Nat) (rest : List HostMove), s.cfg.wf →
    (s.held = none ∨ (drawSink s).sinkReady = false) →
    (base, size) ∈ [(0x10000000, s.cfg.ibufSize), (0x20000000, s.cfg.ebufSize)] → i < size →
    s.hostMoves = .read .b8 (BitVec.ofNat 32 (base + i)) :: rest →
    (∀ b, memRead s.mem (base + i) = some b →
      step s = .next { drawSink s with hostMoves := rest, hostData := b.setWidth 32 }) ∧
    (memRead s.mem (base + i) = none →
      step s = .next { drawSink s with
        hostMoves := rest, hostData := (Config.unwrittenByte s.epoch (base + i)).setWidth 32 })

/-- R105, R216, R217, R221: an access of another width or alignment, beyond a buffer, in the reserved register space or
outside the windows is refused; a read the map allows is not. -/
def Obligations.AccessesOutsideTheMapAreRefused : Prop :=
  ∀ (s : State) (w : Width) (a : Addr) (rest : List HostMove), s.cfg.wf →
    (s.held = none ∨ (drawSink s).sinkReady = false) →
    (s.hostMoves = .read w a :: rest →
      (accessOk s.cfg w a → ∃ t, step s = .next t) ∧ (¬ accessOk s.cfg w a → ∃ r, step s = .refused r)) ∧
    (∀ data, s.hostMoves = .write w a data :: rest → ¬ accessOk s.cfg w a → ∃ r, step s = .refused r)

/-- R740: while BUSY = 1 the host writes nothing, and it may read any register. That a write to any address is refused, also
one R740 and I-4 do not list (a read-only register), is the model's reading of them (log 9). -/
def Obligations.NoHostWriteWhileBusy : Prop :=
  ∀ (s : State) (c : EncCmd) (rest : List HostMove), s.held = some c → (drawSink s).sinkReady = false →
    (∀ w a data, s.hostMoves = .write w a data :: rest → step s = .refused (.hostWriteWhileBusy a)) ∧
    (∀ r, s.hostMoves = .read .b32 (regAddr r) :: rest →
      step s = .next { drawSink s with hostMoves := rest, hostData := readReg r (drawSink s) })

/-- R700, R701: the state after reset, and the reset input from any state: every register, latch and flag takes its reset
value, a held command is dropped and appends nothing, and SINK_READY follows its input. The model's choices in it: no buffer
byte counts as written, which is how it holds R700's unspecified contents (log 5, log 6, log 8); the reset comes before a held
command that could complete in the same step (log 1); and it is a move of the host (log 21). -/
def Obligations.ResetGivesResetState : Prop :=
  AtReset State.reset ∧
  ∀ (s : State) (rest : List HostMove), s.hostMoves = .reset :: rest →
    ∃ t, step s = .next t ∧ AtReset t ∧ t.sinkReady = (drawSink s).sinkReady

/-! ### The VLQ codec -/

/-- R420, R310: `vlq_bytes(v)` is a VLQ of at most four bytes whose value is v, without a superfluous leading group. -/
def Obligations.VlqBytesEncodeTheValue : Prop :=
  vlqBytes 0 = [0x00] ∧
  ∀ v : Nat, v ≤ 0x0FFFFFFF →
    vlqForm (vlqBytes v) ∧ vlqValue (vlqBytes v) = v ∧ (vlqBytes v).head? ≠ some 0x80

/-- R311: the length of the encoding by ranges, no VLQ of the same value is shorter, and 0 encodes as the one byte 0x00. -/
def Obligations.VlqBytesMinimalLength : Prop :=
  vlqBytes 0 = [0x00] ∧
  ∀ v : Nat,
    (v ≤ 0x7F → (vlqBytes v).length = 1) ∧
    (0x80 ≤ v → v ≤ 0x3FFF → (vlqBytes v).length = 2) ∧
    (0x4000 ≤ v → v ≤ 0x1FFFFF → (vlqBytes v).length = 3) ∧
    (0x200000 ≤ v → v ≤ 0x0FFFFFFF → (vlqBytes v).length = 4) ∧
    ∀ bs, isVlq bs = true → vlqValue bs = v → v ≤ 0x0FFFFFFF → (vlqBytes v).length ≤ bs.length

/-- R421: the inverse law. The bytes of `vlq_bytes(v)` at any IBUF offset are read back as v; the converse does not hold, as
`vlq_read` also accepts forms with leading 0x80 bytes, which `vlq_bytes` never gives. -/
def Obligations.VlqReadInvertsVlqBytes : Prop :=
  (∀ (s : State) (e : ErrCode) (p v : Nat), v ≤ 0x0FFFFFFF → ibufAt s p (vlqBytes v) →
    vlqRead s e p = .ok (v, (vlqBytes v).length)) ∧
  (∀ (s : State) (e : ErrCode) (p : Nat), ibufAt s p [0x80, 0x00] → vlqRead s e p = .ok (0, 2)) ∧
  ∀ v : Nat, v ≤ 0x0FFFFFFF → (vlqBytes v).head? ≠ some 0x80

/-- R402: a value `vlq_read` answers is the sum of R310 over the bytes read, below 2^(7k) and at most 0x0FFFFFFF. -/
def Obligations.VlqReadValueIsTheSum : Prop :=
  ∀ (s : State) (e : ErrCode) (p v k : Nat), vlqRead s e p = .ok (v, k) →
    v < 2 ^ (7 * k) ∧ v ≤ 0x0FFFFFFF ∧ 1 ≤ k ∧ k ≤ 4 ∧
      ∃ bs, bs.length = k ∧ isVlq bs = true ∧ ibufAt s p bs ∧ v = vlqValue bs

/-- R405, R406, R408: VLQDEC writes the value and the byte count of the VLQ at ARG0; it raises TruncatedInput when the input
runs out first and VlqOverflow when the 4th byte has bit 7 set. -/
def Obligations.VlqdecOutcome : Prop :=
  decode 0x00000001 = .command .vlqdec ∧ errNumber .truncatedInput = 1 ∧ errNumber .vlqOverflow = 6 ∧
  ∀ s : State,
    (∀ bs, vlqForm bs → ibufAt s s.arg0.toNat bs →
      exec .vlqdec s = .next { s with
        resVal := BitVec.ofNat 32 (vlqValue bs), resCons := BitVec.ofNat 32 bs.length
        err := .ok, done := true, held := none }) ∧
    (runsOut s s.arg0.toNat → exec .vlqdec s = .next (afterError s .truncatedInput)) ∧
    (overflows s s.arg0.toNat → exec .vlqdec s = .next (afterError s .vlqOverflow))

/-- R407: leading 0x80 bytes before a minimal encoding, up to four bytes in all, decode to the same value. -/
def Obligations.VlqdecAcceptsNonMinimal : Prop :=
  ∀ (s : State) (v j : Nat), v ≤ 0x0FFFFFFF → j + (vlqBytes v).length ≤ 4 →
    ibufAt s s.arg0.toNat (List.replicate j 0x80 ++ vlqBytes v) →
    ∃ t, exec .vlqdec s = .next t ∧ t.err = .ok ∧ t.resVal = BitVec.ofNat 32 v ∧
      t.resCons = BitVec.ofNat 32 (j + (vlqBytes v).length)

/-- R425, R426: VLQENC appends the minimal encoding of ARG0, is held while the sink is not ready, and raises InvalidArgument
above 0x0FFFFFFF. -/
def Obligations.VlqencOutcome : Prop :=
  decode 0x00000002 = .command .vlqenc ∧
  ∀ s : State,
    (0x0FFFFFFF < s.arg0.toNat → exec .vlqenc s = .next (afterError s .invalidArgument)) ∧
    (s.arg0.toNat ≤ 0x0FFFFFFF → s.sinkReady = false → exec .vlqenc s = .next { s with held := some .vlqenc }) ∧
    (s.arg0.toNat ≤ 0x0FFFFFFF → s.sinkReady = true →
      exec .vlqenc s = .next (afterAppend s (vlqBytes s.arg0.toNat) s.ers))

/-- R427: VLQENC reads no latch and writes no latch. -/
def Obligations.VlqencIgnoresLatches : Prop :=
  ∀ (s t : State) (l l' : Latch), exec .vlqenc s = .next t →
    t.drs = s.drs ∧ t.ers = s.ers ∧
      exec .vlqenc { s with drs := l, ers := l' } = .next { t with drs := l, ers := l' }

/-! ### The message decoder -/

/-- R457, R462: MSGDEC of a channel-voice message, its status consumed or reused from DRS, takes one data byte for 0xC0-0xDF
and two otherwise and reports status, family, channel and data. -/
def Obligations.MsgdecVoiceMessage : Prop :=
  ∀ (s : State) (st : Byte) (sc : Bool) (q : Nat) (data : List Byte),
    msgHead s s.arg0.toNat st sc q → voiceStatus st → data.length = voiceLen st → ibufAt s q data →
    exec .msgdec s = .next (afterVoice s 0 st sc q data)

/-- R458: MSGDEC of a meta message, its status consumed or reused from DRS, reports the type, the payload length, the length of
the VLQ and the payload's offset. -/
def Obligations.MsgdecMetaMessage : Prop :=
  ∀ (s : State) (sc : Bool) (q : Nat) (t : Byte) (bs : List Byte),
    msgHead s s.arg0.toNat 0xFF sc q → vlqForm bs → ibufAt s q (t :: bs) →
    q + 1 + bs.length + vlqValue bs ≤ s.inLen.toNat →
    exec .msgdec s = .next (afterMeta s 0 sc q t bs)

/-- R480: EVTDEC of a VLQ delta and a channel-voice message. -/
def Obligations.EvtdecVoiceEvent : Prop :=
  ∀ (s : State) (ds : List Byte) (st : Byte) (sc : Bool) (q : Nat) (data : List Byte),
    vlqForm ds → ibufAt s s.arg0.toNat ds → msgHead s (s.arg0.toNat + ds.length) st sc q → voiceStatus st →
    data.length = voiceLen st → ibufAt s q data →
    exec .evtdec s =
      .next { afterVoice s ds.length st sc q data with resVal := BitVec.ofNat 32 (vlqValue ds) }

/-- R480: EVTDEC of a VLQ delta and a meta message. -/
def Obligations.EvtdecMetaEvent : Prop :=
  ∀ (s : State) (ds : List Byte) (sc : Bool) (q : Nat) (t : Byte) (bs : List Byte),
    vlqForm ds → ibufAt s s.arg0.toNat ds → msgHead s (s.arg0.toNat + ds.length) 0xFF sc q → vlqForm bs →
    ibufAt s q (t :: bs) → q + 1 + bs.length + vlqValue bs ≤ s.inLen.toNat →
    exec .evtdec s = .next { afterMeta s ds.length sc q t bs with resVal := BitVec.ofNat 32 (vlqValue ds) }

/-- R482: EVTDEC is the delta's VLQ and then MSGDEC behind it, committed together or not at all: what MSGDEC answers at the
offset behind the delta, EVTDEC answers with the delta added, and an error of the message keeps RES_VAL, RES_CONS and DRS. -/
def Obligations.EvtdecIsDeltaThenMsgdec : Prop :=
  ∀ (s u : State) (ds : List Byte), vlqForm ds → ibufAt s s.arg0.toNat ds →
    exec .msgdec { s with arg0 := s.arg0 + BitVec.ofNat 32 ds.length } = .next u →
    exec .evtdec s =
      .next (if u.err = .ok then
        { u with
          arg0 := s.arg0
          resVal := BitVec.ofNat 32 (vlqValue ds)
          resCons := u.resCons + BitVec.ofNat 32 ds.length }
        else afterError s u.err)

/-- R455: MSGDEC raises NeedMoreData when the first byte, a data byte, the meta type, a byte of the meta length or the payload
lies at or beyond IN_LEN; on success of MSGDEC or EVTDEC the bytes consumed end at or below IN_LEN. -/
def Obligations.MsgdecNeedsMoreData : Prop :=
  errNumber .needMoreData = 2 ∧
  ∀ s : State,
    (s.inLen.toNat ≤ s.arg0.toNat → exec .msgdec s = .next (afterError s .needMoreData)) ∧
    (∀ st sc q, msgHead s s.arg0.toNat st sc q → voiceStatus st → s.inLen.toNat < q + voiceLen st →
      exec .msgdec s = .next (afterError s .needMoreData)) ∧
    (∀ sc q, msgHead s s.arg0.toNat 0xFF sc q →
      (s.inLen.toNat ≤ q ∨
        (∃ t, ibufAt s q [t] ∧ runsOut s (q + 1)) ∨
        (∃ t bs, vlqForm bs ∧ ibufAt s q (t :: bs) ∧ s.inLen.toNat < q + 1 + bs.length + vlqValue bs)) →
      exec .msgdec s = .next (afterError s .needMoreData)) ∧
    (∀ i t, i = .msgdec ∨ i = .evtdec → exec i s = .next t → t.err = .ok →
      s.arg0.toNat + t.resCons.toNat ≤ s.inLen.toNat)

/-- R481, and R408 inside an event: EVTDEC raises NeedMoreData when the input runs out in the delta, and VlqOverflow when the
delta's 4th byte has bit 7 set; so does MSGDEC for the length of a meta message (R464). -/
def Obligations.CutOffDeltaAndOverlongVlq : Prop :=
  ∀ s : State,
    (runsOut s s.arg0.toNat → exec .evtdec s = .next (afterError s .needMoreData)) ∧
    (overflows s s.arg0.toNat → exec .evtdec s = .next (afterError s .vlqOverflow)) ∧
    (∀ sc q t, msgHead s s.arg0.toNat 0xFF sc q → ibufAt s q [t] → overflows s (q + 1) →
      exec .msgdec s = .next (afterError s .vlqOverflow))

/-- R454: a byte with bit 7 clear at the message start and DRS = none raise UnknownRunningStatus, code 3, and only STATUS is
written. -/
def Obligations.DataByteWithoutRunningStatus : Prop :=
  errNumber .unknownRunningStatus = 3 ∧
  ∀ (s : State) (b : Byte), s.drs = none → ibufAt s s.arg0.toNat [b] → b.getLsbD 7 = false →
    exec .msgdec s = .next (afterError s .unknownRunningStatus)

/-- R463: a status in effect of 0xF0-0xFE, consumed or held in DRS, raises UnknownStatus, code 5, and only STATUS is
written. -/
def Obligations.UnknownStatusRaises : Prop :=
  errNumber .unknownStatus = 5 ∧
  ∀ (s : State) (st : Byte) (sc : Bool) (q : Nat), msgHead s s.arg0.toNat st sc q →
    0xF0 ≤ st.toNat → st.toNat ≤ 0xFE → exec .msgdec s = .next (afterError s .unknownStatus)

/-- R456: a successful MSGDEC or EVTDEC leaves the status in effect in DRS, which is 0x80-0xEF or 0xFF and, when no status byte
was consumed, the old value; a failed one keeps DRS. -/
def Obligations.DecodeCommitsStatusToDrs : Prop :=
  ∀ (i : Instr) (s t : State), i = .msgdec ∨ i = .evtdec → exec i s = .next t →
    (t.err = .ok → ∃ st : Byte, t.drs = some st ∧ t.resMsg0.extractLsb' 0 8 = st ∧
      (voiceStatus st ∨ st = 0xFF) ∧ (t.resMsg0.getLsbD 26 = false → s.drs = some st)) ∧
    (t.err ≠ .ok → t.drs = s.drs)

/-- R470, R471: after a successful MSGDEC or EVTDEC the EOT flag is 1 exactly for a meta message with type byte 0x2F, whatever
its payload length. -/
def Obligations.EotFlagIsMetaType2F : Prop :=
  ∀ (i : Instr) (s t : State), i = .msgdec ∨ i = .evtdec → exec i s = .next t → t.err = .ok →
    (t.resMsg0.getLsbD 25 = true ↔ t.resMsg0.getLsbD 24 = true ∧ t.resMsg1.extractLsb' 0 8 = 0x2F)

/-- R466: a successful meta parse leaves DRS = some(0xFF), and a later message start with bit 7 clear is then a meta message
with that byte as its type. -/
def Obligations.RunningStatusAfterMeta : Prop :=
  (∀ (i : Instr) (s t : State), i = .msgdec ∨ i = .evtdec → exec i s = .next t → t.err = .ok →
    t.resMsg0.getLsbD 24 = true → t.drs = some 0xFF) ∧
  ∀ (s : State) (t : Byte) (bs : List Byte), s.drs = some 0xFF → t.getLsbD 7 = false → vlqForm bs →
    ibufAt s s.arg0.toNat (t :: bs) → s.arg0.toNat + 1 + bs.length + vlqValue bs ≤ s.inLen.toNat →
    exec .msgdec s = .next (afterMeta s 0 false s.arg0.toNat t bs)

/-- R734: a decode that did not need more data gives the same result after the host appends bytes beyond the old IN_LEN. -/
def Obligations.DecodeIsStableUnderAppend : Prop :=
  ∀ (i : Instr) (s u t : State), i = .vlqdec ∨ i = .msgdec ∨ i = .evtdec →
    u.arg0 = s.arg0 → u.drs = s.drs → s.inLen.toNat ≤ u.inLen.toNat →
    (∀ j, j < s.inLen.toNat → ibufByte u j = ibufByte s j) →
    exec i s = .next t → t.err ≠ .needMoreData → t.err ≠ .truncatedInput →
    ∃ v, exec i u = .next v ∧ v.err = t.err ∧
      (t.err = .ok → v.resCons = t.resCons ∧ (i ≠ .msgdec → v.resVal = t.resVal) ∧
        (i ≠ .vlqdec → v.drs = t.drs ∧ v.resMsg0 = t.resMsg0 ∧ v.resMsg1 = t.resMsg1 ∧ v.resLen = t.resLen ∧
          v.resPoff = t.resPoff))

/-- R734, R735: a retry after NeedMoreData, with any new IBUF contents and IN_LEN, answers what the command would have answered
there without the failed attempt, but for the sticky ERR_SEEN. -/
def Obligations.RetryAfterNeedMoreData : Prop :=
  ∀ (i : Instr) (s t w : State) (m : List Host.Cell) (n : Word), i = .msgdec ∨ i = .evtdec →
    exec i s = .next t → t.err = .needMoreData → exec i { s with mem := m, inLen := n } = .next w →
    exec i { t with mem := m, inLen := n } = .next { w with errSeen := true }

/-! ### The message encoder -/

/-- R501, R504, R505: MSGENC appends the status byte, left out when ERS holds it, and the ARG3 bytes of EBUF from ARG2; it is
held while the sink is not ready, and raises InvalidArgument for a bad status or EBUF range. -/
def Obligations.MsgencOutcome : Prop :=
  decode 0x00000005 = .command .msgenc ∧
  ∀ s : State,
    (¬ (wfStatus s.arg1 ∧ wfRange s.cfg s.arg2 s.arg3) → exec .msgenc s = .next (afterError s .invalidArgument)) ∧
    ∀ data, wfStatus s.arg1 → wfRange s.cfg s.arg2 s.arg3 → data.length = s.arg3.toNat →
      ebufAt s s.arg2.toNat data →
      (s.sinkReady = false → exec .msgenc s = .next { s with held := some .msgenc }) ∧
      (s.sinkReady = true → exec .msgenc s =
        .next (afterAppend s (compressed s.ers (BitVec.ofNat 8 s.arg1.toNat) data)
          (some (BitVec.ofNat 8 s.arg1.toNat))))

/-- R515: EVTENC appends the VLQ delta and then the message as MSGENC does; it also checks the delta. -/
def Obligations.EvtencOutcome : Prop :=
  decode 0x00000006 = .command .evtenc ∧
  ∀ s : State,
    (¬ (wfValue s.arg0 ∧ wfStatus s.arg1 ∧ wfRange s.cfg s.arg2 s.arg3) →
      exec .evtenc s = .next (afterError s .invalidArgument)) ∧
    ∀ data, wfValue s.arg0 → wfStatus s.arg1 → wfRange s.cfg s.arg2 s.arg3 → data.length = s.arg3.toNat →
      ebufAt s s.arg2.toNat data →
      (s.sinkReady = false → exec .evtenc s = .next { s with held := some .evtenc }) ∧
      (s.sinkReady = true → exec .evtenc s =
        .next (afterAppend s
          (vlqBytes s.arg0.toNat ++ compressed s.ers (BitVec.ofNat 8 s.arg1.toNat) data)
          (some (BitVec.ofNat 8 s.arg1.toNat))))

/-- R306, R525, R526, R527: CVENC appends the delta, the status family | channel unless ERS holds it, and the family's one or
two bytes of ARG3; it raises InvalidArgument for a family, channel or delta out of range. -/
def Obligations.CvencOutcome : Prop :=
  decode 0x00000007 = .command .cvenc ∧
  ∀ s : State,
    (¬ (wfFamily s.arg1 ∧ wfChannel s.arg2 ∧ wfValue s.arg0) → exec .cvenc s = .next (afterError s .invalidArgument)) ∧
    ∀ st : Byte, wfFamily s.arg1 → wfChannel s.arg2 → wfValue s.arg0 → st.toNat = s.arg1.toNat + s.arg2.toNat →
      (s.sinkReady = false → exec .cvenc s = .next { s with held := some .cvenc }) ∧
      (s.sinkReady = true → exec .cvenc s =
        .next (afterAppend s
          (vlqBytes s.arg0.toNat ++ compressed s.ers st
            ([BitVec.ofNat 8 s.arg3.toNat, BitVec.ofNat 8 (s.arg3.toNat / 2 ^ 8)].take (voiceLen st)))
          (some st)))

/-- R305, R326: a command raises InvalidArgument exactly when an operand it reads is outside its range; an offset into IBUF has
no range. -/
def Obligations.OperandRangesDecideInvalidArgument : Prop :=
  ∀ (i : Instr) (s : State),
    (¬ i.operandsWf s.cfg s.arg0 s.arg1 s.arg2 s.arg3 → exec i s = .next (afterError s .invalidArgument)) ∧
    (i.operandsWf s.cfg s.arg0 s.arg1 s.arg2 s.arg3 → exec i s ≠ .next (afterError s .invalidArgument))

/-- R302: an ARG register a command does not read has no effect on it. -/
def Obligations.UnreadOperandsHaveNoEffect : Prop :=
  ∀ (i : Instr) (s t : State) (w0 w1 w2 w3 : Word), exec i s = .next t →
    exec i (withOtherArgs i w0 w1 w2 w3 s) = .next (withOtherArgs i w0 w1 w2 w3 t)

/-- R529: the message round trip. What MSGENC appends for a channel-voice status with ERS = none, put at the start of IBUF,
MSGDEC with DRS = none decodes to the same status, channel and data, with SC = 1. -/
def Obligations.MessageRoundTrip : Prop :=
  ∀ (s t u : State) (st : Byte) (data bs : List Byte),
    voiceStatus st → data.length = voiceLen st → s.ers = none → s.sinkReady = true → s.arg1 = st.setWidth 32 →
    s.arg3 = BitVec.ofNat 32 data.length → wfRange s.cfg s.arg2 s.arg3 → ebufAt s s.arg2.toNat data →
    exec .msgenc s = .next t → t.out = s.out ++ bs →
    u.drs = none → u.arg0 = 0 → ibufAt u 0 bs →
    bs = st :: data ∧ exec .msgdec u = .next (afterVoice u 0 st true 1 data)

/-- R528: two CVENC commands with the same status, whose second first data byte has bit 7 clear (R751). The second appends no
status byte, and two EVTDEC commands over the appended bytes give both messages, the second with SC = 0. -/
def Obligations.RunningStatusRoundTrip : Prop :=
  ∀ (s t1 t2 u : State) (d2 data2 : Word) (st : Byte) (x1 x2 : List Byte),
    s.ers = none → s.sinkReady = true → wfFamily s.arg1 → wfChannel s.arg2 → wfValue s.arg0 → wfValue d2 →
    st.toNat = s.arg1.toNat + s.arg2.toNat →
    x1 = [BitVec.ofNat 8 s.arg3.toNat, BitVec.ofNat 8 (s.arg3.toNat / 2 ^ 8)].take (voiceLen st) →
    x2 = [BitVec.ofNat 8 data2.toNat, BitVec.ofNat 8 (data2.toNat / 2 ^ 8)].take (voiceLen st) →
    data2.getLsbD 7 = false →
    exec .cvenc s = .next t1 → exec .cvenc { t1 with arg0 := d2, arg3 := data2 } = .next t2 →
    u.drs = none → u.arg0 = 0 →
    ibufAt u 0 ((vlqBytes s.arg0.toNat ++ st :: x1) ++ (vlqBytes d2.toNat ++ x2)) →
    t2.out = s.out ++ ((vlqBytes s.arg0.toNat ++ st :: x1) ++ (vlqBytes d2.toNat ++ x2)) ∧
    ∃ v1 v2, exec .evtdec u = .next v1 ∧ exec .evtdec { v1 with arg0 := v1.resCons } = .next v2 ∧
      v1.err = .ok ∧ v1.resVal = s.arg0 ∧ v1.drs = some st ∧
      v1.resMsg0 = msg0Image st.toNat s.arg1.toNat s.arg2.toNat false false true ∧
      v1.resMsg1 = msg1Image (x1.getD 0 0).toNat (x1.getD 1 0).toNat 0 ∧
      v2.err = .ok ∧ v2.resVal = d2 ∧ v2.drs = some st ∧
      v2.resMsg0 = msg0Image st.toNat s.arg1.toNat s.arg2.toNat false false false ∧
      v2.resMsg1 = msg1Image (x2.getD 0 0).toNat (x2.getD 1 0).toNat 0

/-! ### The sink hold -/

/-- R614(c), R761: in a legal state a held command waits while the sink is not ready, and completes with its output appended in
the first step with SINK_READY = 1, before any pending access of the host (log 1). -/
def Obligations.HeldCommandCompletesWhenReady : Prop :=
  ∀ (s : State) (c : EncCmd), Legal s → s.held = some c → noReset s →
    ((drawSink s).sinkReady = false → s.hostMoves = [] → step s = .next (drawSink s)) ∧
    ((drawSink s).sinkReady = true → ∃ o, encodeOf c s = .ok o ∧
      step s = .next (afterAppend (drawSink s) o.bytes o.ers))

/-- R230, R614: a held command completes exactly as it would have if the sink had been ready at its issue. -/
def Obligations.HoldChangesNothingElse : Prop :=
  ∀ (c : EncCmd) (s t : State), s.held = none → exec (heldInstr c) s = .next t → t.held = some c →
    t = { s with held := some c } ∧ s.sinkReady = false ∧
    ∃ v, exec (heldInstr c) { s with sinkReady := true } = .next v ∧
      exec (heldInstr c) { t with sinkReady := true } = .next v ∧ v.err = .ok ∧ v.held = none

/-! ### Completion and errors -/

/-- R612, R613, R616, R617: a command that answers a next state has completed with OK and committed every write its rule
lists, or has completed with an error and committed nothing but STATUS, or is an encode command now held with nothing else
changed (R614). -/
def Obligations.CommandCommitsAllOrOnlyStatus : Prop :=
  ∀ (i : Instr) (s t : State), exec i s = .next t →
    (t.err = .ok ∧ t.done = true ∧ t.errSeen = s.errSeen ∧ t.held = none ∧ commitsAll i s t) ∨
    (∃ e, e ≠ .ok ∧ t = afterError s e) ∨
    (∃ c, i = heldInstr c ∧ s.sinkReady = false ∧ t = { s with held := some c })

/-- R600: the error codes and their numbers, and which commands raise which. -/
def Obligations.ErrorCodesPerCommand : Prop :=
  [ErrCode.ok, .truncatedInput, .needMoreData, .unknownRunningStatus, .invalidArgument, .unknownStatus, .vlqOverflow,
    .illegalCommand].map errNumber = [0, 1, 2, 3, 4, 5, 6, 7] ∧
  ∀ (i : Instr) (s t : State), exec i s = .next t → t.held = none → t.err ≠ .ok → t.err ∈ canRaise i

/-- R204, R733, I-1 (log 5): a command stops only on a buffer byte it reads that the host has not written since reset: a decode
command on the first unwritten byte of IBUF from ARG0 on, which lies below IN_LEN; MSGENC and EVTENC on the first unwritten
byte of EBUF in [ARG2, ARG2 + ARG3). It does stop on an unwritten first byte. No command ends in a fault (log 11). -/
def Obligations.OnlyUnwrittenBytesStopACommand : Prop :=
  ∀ (i : Instr) (s : State),
    (∀ f, exec i s ≠ .fault f) ∧
    (∀ r, exec i s = .refused r →
      (∃ j, r = .unwrittenIbufByte j ∧ (i = .vlqdec ∨ i = .msgdec ∨ i = .evtdec) ∧ j < s.inLen.toNat ∧
        firstUnwritten (ibufByte s) s.arg0.toNat j) ∨
      (∃ j, r = .unwrittenEbufByte j ∧ (i = .msgenc ∨ i = .evtenc) ∧ j < s.arg2.toNat + s.arg3.toNat ∧
        firstUnwritten (ebufByte s) s.arg2.toNat j)) ∧
    ((i = .vlqdec ∨ i = .msgdec ∨ i = .evtdec) → s.arg0.toNat < s.inLen.toNat → ibufByte s s.arg0.toNat = none →
      exec i s = .refused (.unwrittenIbufByte s.arg0.toNat)) ∧
    ((i = .msgenc ∨ i = .evtenc) → i.operandsWf s.cfg s.arg0 s.arg1 s.arg2 s.arg3 → 0 < s.arg3.toNat →
      ebufByte s s.arg2.toNat = none → exec i s = .refused (.unwrittenEbufByte s.arg2.toNat))

/-! ### Latch control -/

/-- R550, R555: DCLR and ECLR clear their latch and complete with OK; nothing else changes. -/
def Obligations.LatchClears : Prop :=
  decode 0x00000008 = .command .dclr ∧ decode 0x00000009 = .command .eclr ∧
  ∀ s : State,
    exec .dclr s = .next { s with drs := none, err := .ok, done := true, held := none } ∧
    exec .eclr s = .next { s with ers := none, err := .ok, done := true, held := none }

/-- R307, R560, R565: LDRS and LERS load a legal image and raise InvalidArgument for every other word. -/
def Obligations.LatchLoadsImage : Prop :=
  decode 0x0000000A = .command .ldrs ∧ decode 0x0000000B = .command .lers ∧
  ∀ s : State,
    (¬ wfImage s.arg1 →
      exec .ldrs s = .next (afterError s .invalidArgument) ∧ exec .lers s = .next (afterError s .invalidArgument)) ∧
    (∀ l : Latch, latchOk l → s.arg1.toNat = l.elim 0 (fun v => 0x100 + v.toNat) →
      exec .ldrs s = .next { s with drs := l, err := .ok, done := true, held := none } ∧
      exec .lers s = .next { s with ers := l, err := .ok, done := true, held := none })

/-- R150, R560: the image read from DRS or ERS is legal, and loading it restores the latch. -/
def Obligations.SavedLatchReloads : Prop :=
  ∀ (s u : State), latchOk s.drs → latchOk s.ers →
    (u.arg1 = readReg .drs s → ∃ t, exec .ldrs u = .next t ∧ t.err = .ok ∧ t.drs = s.drs) ∧
    (u.arg1 = readReg .ers s → ∃ t, exec .lers u = .next t ∧ t.err = .ok ∧ t.ers = s.ers)

/-- R112: no command reads or writes both latches: the decode side and its latch commands neither read nor write ERS, and the
encode side and its latch commands neither read nor write DRS. -/
def Obligations.LatchesAreIndependent : Prop :=
  ∀ (i : Instr) (s t : State) (l : Latch), exec i s = .next t →
    ((i = .vlqdec ∨ i = .msgdec ∨ i = .evtdec ∨ i = .dclr ∨ i = .ldrs) →
      t.ers = s.ers ∧ exec i { s with ers := l } = .next { t with ers := l }) ∧
    ((isEncode i ∨ i = .eclr ∨ i = .lers) →
      t.drs = s.drs ∧ exec i { s with drs := l } = .next { t with drs := l })

/-! ### Frames -/

/-- R106, R201, R202: a command never writes CMD, an ARG register, IN_LEN, a byte of IBUF or EBUF, or anything outside the
block; and every command but the encode commands leaves OUT and OUT_CNT as they are. -/
def Obligations.CommandsKeepOperandsAndBuffers : Prop :=
  ∀ (i : Instr) (s t : State), exec i s = .next t →
    t.cfg = s.cfg ∧ t.cmd = s.cmd ∧ t.arg0 = s.arg0 ∧ t.arg1 = s.arg1 ∧ t.arg2 = s.arg2 ∧ t.arg3 = s.arg3 ∧
    t.inLen = s.inLen ∧ t.sinkReady = s.sinkReady ∧ t.sinkInput = s.sinkInput ∧ t.hostMoves = s.hostMoves ∧
    t.hostData = s.hostData ∧ t.epoch = s.epoch ∧ (∀ a, memRead t.mem a = memRead s.mem a) ∧
    (¬ isEncode i → t.out = s.out ∧ t.outCnt = s.outCnt)

/-- R147: the result registers a command does not write keep their values. -/
def Obligations.ResultRegistersPerCommand : Prop :=
  ∀ (i : Instr) (s t : State), exec i s = .next t →
    (i ≠ .vlqdec → i ≠ .evtdec → t.resVal = s.resVal) ∧
    (i ≠ .msgdec → i ≠ .evtdec →
      t.resMsg0 = s.resMsg0 ∧ t.resMsg1 = s.resMsg1 ∧ t.resLen = s.resLen ∧ t.resPoff = s.resPoff) ∧
    ((i = .dclr ∨ i = .eclr ∨ i = .ldrs ∨ i = .lers) → t.resCons = s.resCons) ∧
    (isEncode i → t.held = none → t.err = .ok →
      ∃ bs, t.out = s.out ++ bs ∧ t.resCons = BitVec.ofNat 32 bs.length ∧
        t.outCnt = BitVec.ofNat 32 (s.outCnt.toNat + bs.length))

/-! ### The whole machine -/

/-- R211, R231, R619: without a reset a step only appends to OUT, and DONE and ERR_SEEN stay set once set. -/
def Obligations.OutputAndStickyFlagsOnlyGrow : Prop :=
  ∀ s t : State, noReset s → step s = .next t →
    (∃ bs, t.out = s.out ++ bs) ∧ (s.done = true → t.done = true) ∧ (s.errSeen = true → t.errSeen = true)

/-- The state after reset is legal. Its capacities are the model's choice (log 4). -/
def Obligations.ResetStateIsLegal : Prop := Legal State.reset

/-- Every step keeps the state legal: the capacities, the memory's canonical form and windows, IN_LEN ≤ IBUF_SIZE (R130), the
latch ranges (R110, R111), the result registers' bounds and fields (R140 to R145), OUT_CNT (R146), ERR_SEEN and DONE (R120),
and a held command's checked operands (R614). -/
def Obligations.StepKeepsStateLegal : Prop :=
  ∀ s t : State, Legal s → step s = .next t → Legal t

/-! ### ENDTRK beyond EBUF -/

/-- R331, R217, R11: `ENDTRK d, k` writes EBUF[k] and EBUF[k + 1], with k an unbounded integer. The write that falls at or beyond
EBUF_SIZE is refused, the first one for k ≥ EBUF_SIZE and the second one for k = EBUF_SIZE - 1: no k reaches another window.
How an index without a 32-bit bus address is refused is the model's choice (log 22). -/
def Obligations.EndtrkBeyondEbufIsRefused : Prop :=
  ∀ (s : State) (d k : Word) (rest : List HostMove), s.cfg.wf → s.held = none →
    s.hostMoves = expand (.endtrk d k) ++ rest →
    (s.cfg.ebufSize ≤ k.toNat → ∃ r, step s = .refused r) ∧
    (k.toNat + 1 = s.cfg.ebufSize → ∃ t r, step s = .next t ∧ memRead t.mem (ebufBase + k.toNat) = some 0x2F ∧
      step t = .refused r)
end

