-- ==== Sys2Proof/Laws/State.lean ====
section
/-! SUPPORT. One lemma per field of State per update: what each shared update of the machine leaves in each field. -/

namespace Sys2Proof.Machine

/-! ### complete: the completion update of R612 -/

@[simp] theorem complete_cfg (e : ErrCode) (s : State) : (complete e s).cfg = s.cfg := rfl
@[simp] theorem complete_cmd (e : ErrCode) (s : State) : (complete e s).cmd = s.cmd := rfl
@[simp] theorem complete_arg0 (e : ErrCode) (s : State) : (complete e s).arg0 = s.arg0 := rfl
@[simp] theorem complete_arg1 (e : ErrCode) (s : State) : (complete e s).arg1 = s.arg1 := rfl
@[simp] theorem complete_arg2 (e : ErrCode) (s : State) : (complete e s).arg2 = s.arg2 := rfl
@[simp] theorem complete_arg3 (e : ErrCode) (s : State) : (complete e s).arg3 = s.arg3 := rfl
@[simp] theorem complete_inLen (e : ErrCode) (s : State) : (complete e s).inLen = s.inLen := rfl
@[simp] theorem complete_drs (e : ErrCode) (s : State) : (complete e s).drs = s.drs := rfl
@[simp] theorem complete_ers (e : ErrCode) (s : State) : (complete e s).ers = s.ers := rfl
@[simp] theorem complete_err (e : ErrCode) (s : State) : (complete e s).err = e := rfl
@[simp] theorem complete_done (e : ErrCode) (s : State) : (complete e s).done = true := rfl
@[simp] theorem complete_errSeen (e : ErrCode) (s : State) : (complete e s).errSeen = (s.errSeen || decide (e ≠ .ok)) := rfl
@[simp] theorem complete_resVal (e : ErrCode) (s : State) : (complete e s).resVal = s.resVal := rfl
@[simp] theorem complete_resCons (e : ErrCode) (s : State) : (complete e s).resCons = s.resCons := rfl
@[simp] theorem complete_resMsg0 (e : ErrCode) (s : State) : (complete e s).resMsg0 = s.resMsg0 := rfl
@[simp] theorem complete_resMsg1 (e : ErrCode) (s : State) : (complete e s).resMsg1 = s.resMsg1 := rfl
@[simp] theorem complete_resLen (e : ErrCode) (s : State) : (complete e s).resLen = s.resLen := rfl
@[simp] theorem complete_resPoff (e : ErrCode) (s : State) : (complete e s).resPoff = s.resPoff := rfl
@[simp] theorem complete_outCnt (e : ErrCode) (s : State) : (complete e s).outCnt = s.outCnt := rfl
@[simp] theorem complete_held (e : ErrCode) (s : State) : (complete e s).held = none := rfl
@[simp] theorem complete_mem (e : ErrCode) (s : State) : (complete e s).mem = s.mem := rfl
@[simp] theorem complete_out (e : ErrCode) (s : State) : (complete e s).out = s.out := rfl
@[simp] theorem complete_sinkReady (e : ErrCode) (s : State) : (complete e s).sinkReady = s.sinkReady := rfl
@[simp] theorem complete_sinkInput (e : ErrCode) (s : State) : (complete e s).sinkInput = s.sinkInput := rfl
@[simp] theorem complete_hostMoves (e : ErrCode) (s : State) : (complete e s).hostMoves = s.hostMoves := rfl
@[simp] theorem complete_hostData (e : ErrCode) (s : State) : (complete e s).hostData = s.hostData := rfl
@[simp] theorem complete_epoch (e : ErrCode) (s : State) : (complete e s).epoch = s.epoch := rfl

/-! ### hold: the hold of R614 -/

@[simp] theorem hold_cfg (c : EncCmd) (s : State) : (hold c s).cfg = s.cfg := rfl
@[simp] theorem hold_cmd (c : EncCmd) (s : State) : (hold c s).cmd = s.cmd := rfl
@[simp] theorem hold_arg0 (c : EncCmd) (s : State) : (hold c s).arg0 = s.arg0 := rfl
@[simp] theorem hold_arg1 (c : EncCmd) (s : State) : (hold c s).arg1 = s.arg1 := rfl
@[simp] theorem hold_arg2 (c : EncCmd) (s : State) : (hold c s).arg2 = s.arg2 := rfl
@[simp] theorem hold_arg3 (c : EncCmd) (s : State) : (hold c s).arg3 = s.arg3 := rfl
@[simp] theorem hold_inLen (c : EncCmd) (s : State) : (hold c s).inLen = s.inLen := rfl
@[simp] theorem hold_drs (c : EncCmd) (s : State) : (hold c s).drs = s.drs := rfl
@[simp] theorem hold_ers (c : EncCmd) (s : State) : (hold c s).ers = s.ers := rfl
@[simp] theorem hold_err (c : EncCmd) (s : State) : (hold c s).err = s.err := rfl
@[simp] theorem hold_done (c : EncCmd) (s : State) : (hold c s).done = s.done := rfl
@[simp] theorem hold_errSeen (c : EncCmd) (s : State) : (hold c s).errSeen = s.errSeen := rfl
@[simp] theorem hold_resVal (c : EncCmd) (s : State) : (hold c s).resVal = s.resVal := rfl
@[simp] theorem hold_resCons (c : EncCmd) (s : State) : (hold c s).resCons = s.resCons := rfl
@[simp] theorem hold_resMsg0 (c : EncCmd) (s : State) : (hold c s).resMsg0 = s.resMsg0 := rfl
@[simp] theorem hold_resMsg1 (c : EncCmd) (s : State) : (hold c s).resMsg1 = s.resMsg1 := rfl
@[simp] theorem hold_resLen (c : EncCmd) (s : State) : (hold c s).resLen = s.resLen := rfl
@[simp] theorem hold_resPoff (c : EncCmd) (s : State) : (hold c s).resPoff = s.resPoff := rfl
@[simp] theorem hold_outCnt (c : EncCmd) (s : State) : (hold c s).outCnt = s.outCnt := rfl
@[simp] theorem hold_held (c : EncCmd) (s : State) : (hold c s).held = some c := rfl
@[simp] theorem hold_mem (c : EncCmd) (s : State) : (hold c s).mem = s.mem := rfl
@[simp] theorem hold_out (c : EncCmd) (s : State) : (hold c s).out = s.out := rfl
@[simp] theorem hold_sinkReady (c : EncCmd) (s : State) : (hold c s).sinkReady = s.sinkReady := rfl
@[simp] theorem hold_sinkInput (c : EncCmd) (s : State) : (hold c s).sinkInput = s.sinkInput := rfl
@[simp] theorem hold_hostMoves (c : EncCmd) (s : State) : (hold c s).hostMoves = s.hostMoves := rfl
@[simp] theorem hold_hostData (c : EncCmd) (s : State) : (hold c s).hostData = s.hostData := rfl
@[simp] theorem hold_epoch (c : EncCmd) (s : State) : (hold c s).epoch = s.epoch := rfl

/-! ### commitEncode: the commit of an encode command, R507 -/

@[simp] theorem commitEncode_cfg (o : EncOut) (s : State) : (commitEncode o s).cfg = s.cfg := rfl
@[simp] theorem commitEncode_cmd (o : EncOut) (s : State) : (commitEncode o s).cmd = s.cmd := rfl
@[simp] theorem commitEncode_arg0 (o : EncOut) (s : State) : (commitEncode o s).arg0 = s.arg0 := rfl
@[simp] theorem commitEncode_arg1 (o : EncOut) (s : State) : (commitEncode o s).arg1 = s.arg1 := rfl
@[simp] theorem commitEncode_arg2 (o : EncOut) (s : State) : (commitEncode o s).arg2 = s.arg2 := rfl
@[simp] theorem commitEncode_arg3 (o : EncOut) (s : State) : (commitEncode o s).arg3 = s.arg3 := rfl
@[simp] theorem commitEncode_inLen (o : EncOut) (s : State) : (commitEncode o s).inLen = s.inLen := rfl
@[simp] theorem commitEncode_drs (o : EncOut) (s : State) : (commitEncode o s).drs = s.drs := rfl
@[simp] theorem commitEncode_ers (o : EncOut) (s : State) : (commitEncode o s).ers = o.ers := rfl
@[simp] theorem commitEncode_err (o : EncOut) (s : State) : (commitEncode o s).err = .ok := rfl
@[simp] theorem commitEncode_done (o : EncOut) (s : State) : (commitEncode o s).done = true := rfl
@[simp] theorem commitEncode_errSeen (o : EncOut) (s : State) : (commitEncode o s).errSeen = s.errSeen := by
  show (s.errSeen || decide (ErrCode.ok ≠ ErrCode.ok)) = s.errSeen
  simp
@[simp] theorem commitEncode_resVal (o : EncOut) (s : State) : (commitEncode o s).resVal = s.resVal := rfl
@[simp] theorem commitEncode_resCons (o : EncOut) (s : State) : (commitEncode o s).resCons = BitVec.ofNat 32 o.bytes.length := rfl
@[simp] theorem commitEncode_resMsg0 (o : EncOut) (s : State) : (commitEncode o s).resMsg0 = s.resMsg0 := rfl
@[simp] theorem commitEncode_resMsg1 (o : EncOut) (s : State) : (commitEncode o s).resMsg1 = s.resMsg1 := rfl
@[simp] theorem commitEncode_resLen (o : EncOut) (s : State) : (commitEncode o s).resLen = s.resLen := rfl
@[simp] theorem commitEncode_resPoff (o : EncOut) (s : State) : (commitEncode o s).resPoff = s.resPoff := rfl
@[simp] theorem commitEncode_outCnt (o : EncOut) (s : State) : (commitEncode o s).outCnt = s.outCnt + BitVec.ofNat 32 o.bytes.length := rfl
@[simp] theorem commitEncode_held (o : EncOut) (s : State) : (commitEncode o s).held = none := rfl
@[simp] theorem commitEncode_mem (o : EncOut) (s : State) : (commitEncode o s).mem = s.mem := rfl
@[simp] theorem commitEncode_out (o : EncOut) (s : State) : (commitEncode o s).out = s.out ++ o.bytes := rfl
@[simp] theorem commitEncode_sinkReady (o : EncOut) (s : State) : (commitEncode o s).sinkReady = s.sinkReady := rfl
@[simp] theorem commitEncode_sinkInput (o : EncOut) (s : State) : (commitEncode o s).sinkInput = s.sinkInput := rfl
@[simp] theorem commitEncode_hostMoves (o : EncOut) (s : State) : (commitEncode o s).hostMoves = s.hostMoves := rfl
@[simp] theorem commitEncode_hostData (o : EncOut) (s : State) : (commitEncode o s).hostData = s.hostData := rfl
@[simp] theorem commitEncode_epoch (o : EncOut) (s : State) : (commitEncode o s).epoch = s.epoch := rfl

/-! ### commitVlqdec: the commit of VLQDEC, R405 -/

@[simp] theorem commitVlqdec_cfg (r : Nat × Nat) (s : State) : (commitVlqdec r s).cfg = s.cfg := rfl
@[simp] theorem commitVlqdec_cmd (r : Nat × Nat) (s : State) : (commitVlqdec r s).cmd = s.cmd := rfl
@[simp] theorem commitVlqdec_arg0 (r : Nat × Nat) (s : State) : (commitVlqdec r s).arg0 = s.arg0 := rfl
@[simp] theorem commitVlqdec_arg1 (r : Nat × Nat) (s : State) : (commitVlqdec r s).arg1 = s.arg1 := rfl
@[simp] theorem commitVlqdec_arg2 (r : Nat × Nat) (s : State) : (commitVlqdec r s).arg2 = s.arg2 := rfl
@[simp] theorem commitVlqdec_arg3 (r : Nat × Nat) (s : State) : (commitVlqdec r s).arg3 = s.arg3 := rfl
@[simp] theorem commitVlqdec_inLen (r : Nat × Nat) (s : State) : (commitVlqdec r s).inLen = s.inLen := rfl
@[simp] theorem commitVlqdec_drs (r : Nat × Nat) (s : State) : (commitVlqdec r s).drs = s.drs := rfl
@[simp] theorem commitVlqdec_ers (r : Nat × Nat) (s : State) : (commitVlqdec r s).ers = s.ers := rfl
@[simp] theorem commitVlqdec_err (r : Nat × Nat) (s : State) : (commitVlqdec r s).err = .ok := rfl
@[simp] theorem commitVlqdec_done (r : Nat × Nat) (s : State) : (commitVlqdec r s).done = true := rfl
@[simp] theorem commitVlqdec_errSeen (r : Nat × Nat) (s : State) : (commitVlqdec r s).errSeen = s.errSeen := by
  show (s.errSeen || decide (ErrCode.ok ≠ ErrCode.ok)) = s.errSeen
  simp
@[simp] theorem commitVlqdec_resVal (r : Nat × Nat) (s : State) : (commitVlqdec r s).resVal = BitVec.ofNat 32 r.1 := rfl
@[simp] theorem commitVlqdec_resCons (r : Nat × Nat) (s : State) : (commitVlqdec r s).resCons = BitVec.ofNat 32 r.2 := rfl
@[simp] theorem commitVlqdec_resMsg0 (r : Nat × Nat) (s : State) : (commitVlqdec r s).resMsg0 = s.resMsg0 := rfl
@[simp] theorem commitVlqdec_resMsg1 (r : Nat × Nat) (s : State) : (commitVlqdec r s).resMsg1 = s.resMsg1 := rfl
@[simp] theorem commitVlqdec_resLen (r : Nat × Nat) (s : State) : (commitVlqdec r s).resLen = s.resLen := rfl
@[simp] theorem commitVlqdec_resPoff (r : Nat × Nat) (s : State) : (commitVlqdec r s).resPoff = s.resPoff := rfl
@[simp] theorem commitVlqdec_outCnt (r : Nat × Nat) (s : State) : (commitVlqdec r s).outCnt = s.outCnt := rfl
@[simp] theorem commitVlqdec_held (r : Nat × Nat) (s : State) : (commitVlqdec r s).held = none := rfl
@[simp] theorem commitVlqdec_mem (r : Nat × Nat) (s : State) : (commitVlqdec r s).mem = s.mem := rfl
@[simp] theorem commitVlqdec_out (r : Nat × Nat) (s : State) : (commitVlqdec r s).out = s.out := rfl
@[simp] theorem commitVlqdec_sinkReady (r : Nat × Nat) (s : State) : (commitVlqdec r s).sinkReady = s.sinkReady := rfl
@[simp] theorem commitVlqdec_sinkInput (r : Nat × Nat) (s : State) : (commitVlqdec r s).sinkInput = s.sinkInput := rfl
@[simp] theorem commitVlqdec_hostMoves (r : Nat × Nat) (s : State) : (commitVlqdec r s).hostMoves = s.hostMoves := rfl
@[simp] theorem commitVlqdec_hostData (r : Nat × Nat) (s : State) : (commitVlqdec r s).hostData = s.hostData := rfl
@[simp] theorem commitVlqdec_epoch (r : Nat × Nat) (s : State) : (commitVlqdec r s).epoch = s.epoch := rfl

/-! ### storeMsg: the registers of a decoded message, R460 -/

@[simp] theorem storeMsg_cfg (pre : Nat) (r : MsgRec) (s : State) : (storeMsg pre r s).cfg = s.cfg := rfl
@[simp] theorem storeMsg_cmd (pre : Nat) (r : MsgRec) (s : State) : (storeMsg pre r s).cmd = s.cmd := rfl
@[simp] theorem storeMsg_arg0 (pre : Nat) (r : MsgRec) (s : State) : (storeMsg pre r s).arg0 = s.arg0 := rfl
@[simp] theorem storeMsg_arg1 (pre : Nat) (r : MsgRec) (s : State) : (storeMsg pre r s).arg1 = s.arg1 := rfl
@[simp] theorem storeMsg_arg2 (pre : Nat) (r : MsgRec) (s : State) : (storeMsg pre r s).arg2 = s.arg2 := rfl
@[simp] theorem storeMsg_arg3 (pre : Nat) (r : MsgRec) (s : State) : (storeMsg pre r s).arg3 = s.arg3 := rfl
@[simp] theorem storeMsg_inLen (pre : Nat) (r : MsgRec) (s : State) : (storeMsg pre r s).inLen = s.inLen := rfl
@[simp] theorem storeMsg_drs (pre : Nat) (r : MsgRec) (s : State) : (storeMsg pre r s).drs = some r.st := rfl
@[simp] theorem storeMsg_ers (pre : Nat) (r : MsgRec) (s : State) : (storeMsg pre r s).ers = s.ers := rfl
@[simp] theorem storeMsg_err (pre : Nat) (r : MsgRec) (s : State) : (storeMsg pre r s).err = s.err := rfl
@[simp] theorem storeMsg_done (pre : Nat) (r : MsgRec) (s : State) : (storeMsg pre r s).done = s.done := rfl
@[simp] theorem storeMsg_errSeen (pre : Nat) (r : MsgRec) (s : State) : (storeMsg pre r s).errSeen = s.errSeen := rfl
@[simp] theorem storeMsg_resVal (pre : Nat) (r : MsgRec) (s : State) : (storeMsg pre r s).resVal = s.resVal := rfl
@[simp] theorem storeMsg_resCons (pre : Nat) (r : MsgRec) (s : State) : (storeMsg pre r s).resCons = BitVec.ofNat 32 (pre + r.cons) := rfl
@[simp] theorem storeMsg_resMsg0 (pre : Nat) (r : MsgRec) (s : State) : (storeMsg pre r s).resMsg0 = msg0Word r := rfl
@[simp] theorem storeMsg_resMsg1 (pre : Nat) (r : MsgRec) (s : State) : (storeMsg pre r s).resMsg1 = msg1Word r := rfl
@[simp] theorem storeMsg_resLen (pre : Nat) (r : MsgRec) (s : State) : (storeMsg pre r s).resLen = BitVec.ofNat 32 r.len := rfl
@[simp] theorem storeMsg_resPoff (pre : Nat) (r : MsgRec) (s : State) : (storeMsg pre r s).resPoff = BitVec.ofNat 32 r.poff := rfl
@[simp] theorem storeMsg_outCnt (pre : Nat) (r : MsgRec) (s : State) : (storeMsg pre r s).outCnt = s.outCnt := rfl
@[simp] theorem storeMsg_held (pre : Nat) (r : MsgRec) (s : State) : (storeMsg pre r s).held = s.held := rfl
@[simp] theorem storeMsg_mem (pre : Nat) (r : MsgRec) (s : State) : (storeMsg pre r s).mem = s.mem := rfl
@[simp] theorem storeMsg_out (pre : Nat) (r : MsgRec) (s : State) : (storeMsg pre r s).out = s.out := rfl
@[simp] theorem storeMsg_sinkReady (pre : Nat) (r : MsgRec) (s : State) : (storeMsg pre r s).sinkReady = s.sinkReady := rfl
@[simp] theorem storeMsg_sinkInput (pre : Nat) (r : MsgRec) (s : State) : (storeMsg pre r s).sinkInput = s.sinkInput := rfl
@[simp] theorem storeMsg_hostMoves (pre : Nat) (r : MsgRec) (s : State) : (storeMsg pre r s).hostMoves = s.hostMoves := rfl
@[simp] theorem storeMsg_hostData (pre : Nat) (r : MsgRec) (s : State) : (storeMsg pre r s).hostData = s.hostData := rfl
@[simp] theorem storeMsg_epoch (pre : Nat) (r : MsgRec) (s : State) : (storeMsg pre r s).epoch = s.epoch := rfl

/-! ### commitMsg: the commit of MSGDEC, R460 -/

@[simp] theorem commitMsg_cfg (r : MsgRec) (s : State) : (commitMsg r s).cfg = s.cfg := rfl
@[simp] theorem commitMsg_cmd (r : MsgRec) (s : State) : (commitMsg r s).cmd = s.cmd := rfl
@[simp] theorem commitMsg_arg0 (r : MsgRec) (s : State) : (commitMsg r s).arg0 = s.arg0 := rfl
@[simp] theorem commitMsg_arg1 (r : MsgRec) (s : State) : (commitMsg r s).arg1 = s.arg1 := rfl
@[simp] theorem commitMsg_arg2 (r : MsgRec) (s : State) : (commitMsg r s).arg2 = s.arg2 := rfl
@[simp] theorem commitMsg_arg3 (r : MsgRec) (s : State) : (commitMsg r s).arg3 = s.arg3 := rfl
@[simp] theorem commitMsg_inLen (r : MsgRec) (s : State) : (commitMsg r s).inLen = s.inLen := rfl
@[simp] theorem commitMsg_drs (r : MsgRec) (s : State) : (commitMsg r s).drs = some r.st := rfl
@[simp] theorem commitMsg_ers (r : MsgRec) (s : State) : (commitMsg r s).ers = s.ers := rfl
@[simp] theorem commitMsg_err (r : MsgRec) (s : State) : (commitMsg r s).err = .ok := rfl
@[simp] theorem commitMsg_done (r : MsgRec) (s : State) : (commitMsg r s).done = true := rfl
@[simp] theorem commitMsg_errSeen (r : MsgRec) (s : State) : (commitMsg r s).errSeen = s.errSeen := by
  show (s.errSeen || decide (ErrCode.ok ≠ ErrCode.ok)) = s.errSeen
  simp
@[simp] theorem commitMsg_resVal (r : MsgRec) (s : State) : (commitMsg r s).resVal = s.resVal := rfl
@[simp] theorem commitMsg_resCons (r : MsgRec) (s : State) : (commitMsg r s).resCons = BitVec.ofNat 32 (0 + r.cons) := rfl
@[simp] theorem commitMsg_resMsg0 (r : MsgRec) (s : State) : (commitMsg r s).resMsg0 = msg0Word r := rfl
@[simp] theorem commitMsg_resMsg1 (r : MsgRec) (s : State) : (commitMsg r s).resMsg1 = msg1Word r := rfl
@[simp] theorem commitMsg_resLen (r : MsgRec) (s : State) : (commitMsg r s).resLen = BitVec.ofNat 32 r.len := rfl
@[simp] theorem commitMsg_resPoff (r : MsgRec) (s : State) : (commitMsg r s).resPoff = BitVec.ofNat 32 r.poff := rfl
@[simp] theorem commitMsg_outCnt (r : MsgRec) (s : State) : (commitMsg r s).outCnt = s.outCnt := rfl
@[simp] theorem commitMsg_held (r : MsgRec) (s : State) : (commitMsg r s).held = none := rfl
@[simp] theorem commitMsg_mem (r : MsgRec) (s : State) : (commitMsg r s).mem = s.mem := rfl
@[simp] theorem commitMsg_out (r : MsgRec) (s : State) : (commitMsg r s).out = s.out := rfl
@[simp] theorem commitMsg_sinkReady (r : MsgRec) (s : State) : (commitMsg r s).sinkReady = s.sinkReady := rfl
@[simp] theorem commitMsg_sinkInput (r : MsgRec) (s : State) : (commitMsg r s).sinkInput = s.sinkInput := rfl
@[simp] theorem commitMsg_hostMoves (r : MsgRec) (s : State) : (commitMsg r s).hostMoves = s.hostMoves := rfl
@[simp] theorem commitMsg_hostData (r : MsgRec) (s : State) : (commitMsg r s).hostData = s.hostData := rfl
@[simp] theorem commitMsg_epoch (r : MsgRec) (s : State) : (commitMsg r s).epoch = s.epoch := rfl

/-! ### commitEvt: the commit of EVTDEC, R480 -/

@[simp] theorem commitEvt_cfg (r : EvtRec) (s : State) : (commitEvt r s).cfg = s.cfg := rfl
@[simp] theorem commitEvt_cmd (r : EvtRec) (s : State) : (commitEvt r s).cmd = s.cmd := rfl
@[simp] theorem commitEvt_arg0 (r : EvtRec) (s : State) : (commitEvt r s).arg0 = s.arg0 := rfl
@[simp] theorem commitEvt_arg1 (r : EvtRec) (s : State) : (commitEvt r s).arg1 = s.arg1 := rfl
@[simp] theorem commitEvt_arg2 (r : EvtRec) (s : State) : (commitEvt r s).arg2 = s.arg2 := rfl
@[simp] theorem commitEvt_arg3 (r : EvtRec) (s : State) : (commitEvt r s).arg3 = s.arg3 := rfl
@[simp] theorem commitEvt_inLen (r : EvtRec) (s : State) : (commitEvt r s).inLen = s.inLen := rfl
@[simp] theorem commitEvt_drs (r : EvtRec) (s : State) : (commitEvt r s).drs = some r.msg.st := rfl
@[simp] theorem commitEvt_ers (r : EvtRec) (s : State) : (commitEvt r s).ers = s.ers := rfl
@[simp] theorem commitEvt_err (r : EvtRec) (s : State) : (commitEvt r s).err = .ok := rfl
@[simp] theorem commitEvt_done (r : EvtRec) (s : State) : (commitEvt r s).done = true := rfl
@[simp] theorem commitEvt_errSeen (r : EvtRec) (s : State) : (commitEvt r s).errSeen = s.errSeen := by
  show (s.errSeen || decide (ErrCode.ok ≠ ErrCode.ok)) = s.errSeen
  simp
@[simp] theorem commitEvt_resVal (r : EvtRec) (s : State) : (commitEvt r s).resVal = BitVec.ofNat 32 r.delta := rfl
@[simp] theorem commitEvt_resCons (r : EvtRec) (s : State) : (commitEvt r s).resCons = BitVec.ofNat 32 (r.deltaLen + r.msg.cons) := rfl
@[simp] theorem commitEvt_resMsg0 (r : EvtRec) (s : State) : (commitEvt r s).resMsg0 = msg0Word r.msg := rfl
@[simp] theorem commitEvt_resMsg1 (r : EvtRec) (s : State) : (commitEvt r s).resMsg1 = msg1Word r.msg := rfl
@[simp] theorem commitEvt_resLen (r : EvtRec) (s : State) : (commitEvt r s).resLen = BitVec.ofNat 32 r.msg.len := rfl
@[simp] theorem commitEvt_resPoff (r : EvtRec) (s : State) : (commitEvt r s).resPoff = BitVec.ofNat 32 r.msg.poff := rfl
@[simp] theorem commitEvt_outCnt (r : EvtRec) (s : State) : (commitEvt r s).outCnt = s.outCnt := rfl
@[simp] theorem commitEvt_held (r : EvtRec) (s : State) : (commitEvt r s).held = none := rfl
@[simp] theorem commitEvt_mem (r : EvtRec) (s : State) : (commitEvt r s).mem = s.mem := rfl
@[simp] theorem commitEvt_out (r : EvtRec) (s : State) : (commitEvt r s).out = s.out := rfl
@[simp] theorem commitEvt_sinkReady (r : EvtRec) (s : State) : (commitEvt r s).sinkReady = s.sinkReady := rfl
@[simp] theorem commitEvt_sinkInput (r : EvtRec) (s : State) : (commitEvt r s).sinkInput = s.sinkInput := rfl
@[simp] theorem commitEvt_hostMoves (r : EvtRec) (s : State) : (commitEvt r s).hostMoves = s.hostMoves := rfl
@[simp] theorem commitEvt_hostData (r : EvtRec) (s : State) : (commitEvt r s).hostData = s.hostData := rfl
@[simp] theorem commitEvt_epoch (r : EvtRec) (s : State) : (commitEvt r s).epoch = s.epoch := rfl

/-! ### commitDrs: the commit of DCLR and LDRS -/

@[simp] theorem commitDrs_cfg (l : Latch) (s : State) : (commitDrs l s).cfg = s.cfg := rfl
@[simp] theorem commitDrs_cmd (l : Latch) (s : State) : (commitDrs l s).cmd = s.cmd := rfl
@[simp] theorem commitDrs_arg0 (l : Latch) (s : State) : (commitDrs l s).arg0 = s.arg0 := rfl
@[simp] theorem commitDrs_arg1 (l : Latch) (s : State) : (commitDrs l s).arg1 = s.arg1 := rfl
@[simp] theorem commitDrs_arg2 (l : Latch) (s : State) : (commitDrs l s).arg2 = s.arg2 := rfl
@[simp] theorem commitDrs_arg3 (l : Latch) (s : State) : (commitDrs l s).arg3 = s.arg3 := rfl
@[simp] theorem commitDrs_inLen (l : Latch) (s : State) : (commitDrs l s).inLen = s.inLen := rfl
@[simp] theorem commitDrs_drs (l : Latch) (s : State) : (commitDrs l s).drs = l := rfl
@[simp] theorem commitDrs_ers (l : Latch) (s : State) : (commitDrs l s).ers = s.ers := rfl
@[simp] theorem commitDrs_err (l : Latch) (s : State) : (commitDrs l s).err = .ok := rfl
@[simp] theorem commitDrs_done (l : Latch) (s : State) : (commitDrs l s).done = true := rfl
@[simp] theorem commitDrs_errSeen (l : Latch) (s : State) : (commitDrs l s).errSeen = s.errSeen := by
  show (s.errSeen || decide (ErrCode.ok ≠ ErrCode.ok)) = s.errSeen
  simp
@[simp] theorem commitDrs_resVal (l : Latch) (s : State) : (commitDrs l s).resVal = s.resVal := rfl
@[simp] theorem commitDrs_resCons (l : Latch) (s : State) : (commitDrs l s).resCons = s.resCons := rfl
@[simp] theorem commitDrs_resMsg0 (l : Latch) (s : State) : (commitDrs l s).resMsg0 = s.resMsg0 := rfl
@[simp] theorem commitDrs_resMsg1 (l : Latch) (s : State) : (commitDrs l s).resMsg1 = s.resMsg1 := rfl
@[simp] theorem commitDrs_resLen (l : Latch) (s : State) : (commitDrs l s).resLen = s.resLen := rfl
@[simp] theorem commitDrs_resPoff (l : Latch) (s : State) : (commitDrs l s).resPoff = s.resPoff := rfl
@[simp] theorem commitDrs_outCnt (l : Latch) (s : State) : (commitDrs l s).outCnt = s.outCnt := rfl
@[simp] theorem commitDrs_held (l : Latch) (s : State) : (commitDrs l s).held = none := rfl
@[simp] theorem commitDrs_mem (l : Latch) (s : State) : (commitDrs l s).mem = s.mem := rfl
@[simp] theorem commitDrs_out (l : Latch) (s : State) : (commitDrs l s).out = s.out := rfl
@[simp] theorem commitDrs_sinkReady (l : Latch) (s : State) : (commitDrs l s).sinkReady = s.sinkReady := rfl
@[simp] theorem commitDrs_sinkInput (l : Latch) (s : State) : (commitDrs l s).sinkInput = s.sinkInput := rfl
@[simp] theorem commitDrs_hostMoves (l : Latch) (s : State) : (commitDrs l s).hostMoves = s.hostMoves := rfl
@[simp] theorem commitDrs_hostData (l : Latch) (s : State) : (commitDrs l s).hostData = s.hostData := rfl
@[simp] theorem commitDrs_epoch (l : Latch) (s : State) : (commitDrs l s).epoch = s.epoch := rfl

/-! ### commitErs: the commit of ECLR and LERS -/

@[simp] theorem commitErs_cfg (l : Latch) (s : State) : (commitErs l s).cfg = s.cfg := rfl
@[simp] theorem commitErs_cmd (l : Latch) (s : State) : (commitErs l s).cmd = s.cmd := rfl
@[simp] theorem commitErs_arg0 (l : Latch) (s : State) : (commitErs l s).arg0 = s.arg0 := rfl
@[simp] theorem commitErs_arg1 (l : Latch) (s : State) : (commitErs l s).arg1 = s.arg1 := rfl
@[simp] theorem commitErs_arg2 (l : Latch) (s : State) : (commitErs l s).arg2 = s.arg2 := rfl
@[simp] theorem commitErs_arg3 (l : Latch) (s : State) : (commitErs l s).arg3 = s.arg3 := rfl
@[simp] theorem commitErs_inLen (l : Latch) (s : State) : (commitErs l s).inLen = s.inLen := rfl
@[simp] theorem commitErs_drs (l : Latch) (s : State) : (commitErs l s).drs = s.drs := rfl
@[simp] theorem commitErs_ers (l : Latch) (s : State) : (commitErs l s).ers = l := rfl
@[simp] theorem commitErs_err (l : Latch) (s : State) : (commitErs l s).err = .ok := rfl
@[simp] theorem commitErs_done (l : Latch) (s : State) : (commitErs l s).done = true := rfl
@[simp] theorem commitErs_errSeen (l : Latch) (s : State) : (commitErs l s).errSeen = s.errSeen := by
  show (s.errSeen || decide (ErrCode.ok ≠ ErrCode.ok)) = s.errSeen
  simp
@[simp] theorem commitErs_resVal (l : Latch) (s : State) : (commitErs l s).resVal = s.resVal := rfl
@[simp] theorem commitErs_resCons (l : Latch) (s : State) : (commitErs l s).resCons = s.resCons := rfl
@[simp] theorem commitErs_resMsg0 (l : Latch) (s : State) : (commitErs l s).resMsg0 = s.resMsg0 := rfl
@[simp] theorem commitErs_resMsg1 (l : Latch) (s : State) : (commitErs l s).resMsg1 = s.resMsg1 := rfl
@[simp] theorem commitErs_resLen (l : Latch) (s : State) : (commitErs l s).resLen = s.resLen := rfl
@[simp] theorem commitErs_resPoff (l : Latch) (s : State) : (commitErs l s).resPoff = s.resPoff := rfl
@[simp] theorem commitErs_outCnt (l : Latch) (s : State) : (commitErs l s).outCnt = s.outCnt := rfl
@[simp] theorem commitErs_held (l : Latch) (s : State) : (commitErs l s).held = none := rfl
@[simp] theorem commitErs_mem (l : Latch) (s : State) : (commitErs l s).mem = s.mem := rfl
@[simp] theorem commitErs_out (l : Latch) (s : State) : (commitErs l s).out = s.out := rfl
@[simp] theorem commitErs_sinkReady (l : Latch) (s : State) : (commitErs l s).sinkReady = s.sinkReady := rfl
@[simp] theorem commitErs_sinkInput (l : Latch) (s : State) : (commitErs l s).sinkInput = s.sinkInput := rfl
@[simp] theorem commitErs_hostMoves (l : Latch) (s : State) : (commitErs l s).hostMoves = s.hostMoves := rfl
@[simp] theorem commitErs_hostData (l : Latch) (s : State) : (commitErs l s).hostData = s.hostData := rfl
@[simp] theorem commitErs_epoch (l : Latch) (s : State) : (commitErs l s).epoch = s.epoch := rfl

/-! ### giveHost: a host read's data -/

@[simp] theorem giveHost_cfg (w : Word) (s : State) : (giveHost w s).cfg = s.cfg := rfl
@[simp] theorem giveHost_cmd (w : Word) (s : State) : (giveHost w s).cmd = s.cmd := rfl
@[simp] theorem giveHost_arg0 (w : Word) (s : State) : (giveHost w s).arg0 = s.arg0 := rfl
@[simp] theorem giveHost_arg1 (w : Word) (s : State) : (giveHost w s).arg1 = s.arg1 := rfl
@[simp] theorem giveHost_arg2 (w : Word) (s : State) : (giveHost w s).arg2 = s.arg2 := rfl
@[simp] theorem giveHost_arg3 (w : Word) (s : State) : (giveHost w s).arg3 = s.arg3 := rfl
@[simp] theorem giveHost_inLen (w : Word) (s : State) : (giveHost w s).inLen = s.inLen := rfl
@[simp] theorem giveHost_drs (w : Word) (s : State) : (giveHost w s).drs = s.drs := rfl
@[simp] theorem giveHost_ers (w : Word) (s : State) : (giveHost w s).ers = s.ers := rfl
@[simp] theorem giveHost_err (w : Word) (s : State) : (giveHost w s).err = s.err := rfl
@[simp] theorem giveHost_done (w : Word) (s : State) : (giveHost w s).done = s.done := rfl
@[simp] theorem giveHost_errSeen (w : Word) (s : State) : (giveHost w s).errSeen = s.errSeen := rfl
@[simp] theorem giveHost_resVal (w : Word) (s : State) : (giveHost w s).resVal = s.resVal := rfl
@[simp] theorem giveHost_resCons (w : Word) (s : State) : (giveHost w s).resCons = s.resCons := rfl
@[simp] theorem giveHost_resMsg0 (w : Word) (s : State) : (giveHost w s).resMsg0 = s.resMsg0 := rfl
@[simp] theorem giveHost_resMsg1 (w : Word) (s : State) : (giveHost w s).resMsg1 = s.resMsg1 := rfl
@[simp] theorem giveHost_resLen (w : Word) (s : State) : (giveHost w s).resLen = s.resLen := rfl
@[simp] theorem giveHost_resPoff (w : Word) (s : State) : (giveHost w s).resPoff = s.resPoff := rfl
@[simp] theorem giveHost_outCnt (w : Word) (s : State) : (giveHost w s).outCnt = s.outCnt := rfl
@[simp] theorem giveHost_held (w : Word) (s : State) : (giveHost w s).held = s.held := rfl
@[simp] theorem giveHost_mem (w : Word) (s : State) : (giveHost w s).mem = s.mem := rfl
@[simp] theorem giveHost_out (w : Word) (s : State) : (giveHost w s).out = s.out := rfl
@[simp] theorem giveHost_sinkReady (w : Word) (s : State) : (giveHost w s).sinkReady = s.sinkReady := rfl
@[simp] theorem giveHost_sinkInput (w : Word) (s : State) : (giveHost w s).sinkInput = s.sinkInput := rfl
@[simp] theorem giveHost_hostMoves (w : Word) (s : State) : (giveHost w s).hostMoves = s.hostMoves := rfl
@[simp] theorem giveHost_hostData (w : Word) (s : State) : (giveHost w s).hostData = w := rfl
@[simp] theorem giveHost_epoch (w : Word) (s : State) : (giveHost w s).epoch = s.epoch := rfl

/-! ### storeByte: a host write of a buffer byte -/

@[simp] theorem storeByte_cfg (a : Nat) (b : Byte) (s : State) : (storeByte a b s).cfg = s.cfg := rfl
@[simp] theorem storeByte_cmd (a : Nat) (b : Byte) (s : State) : (storeByte a b s).cmd = s.cmd := rfl
@[simp] theorem storeByte_arg0 (a : Nat) (b : Byte) (s : State) : (storeByte a b s).arg0 = s.arg0 := rfl
@[simp] theorem storeByte_arg1 (a : Nat) (b : Byte) (s : State) : (storeByte a b s).arg1 = s.arg1 := rfl
@[simp] theorem storeByte_arg2 (a : Nat) (b : Byte) (s : State) : (storeByte a b s).arg2 = s.arg2 := rfl
@[simp] theorem storeByte_arg3 (a : Nat) (b : Byte) (s : State) : (storeByte a b s).arg3 = s.arg3 := rfl
@[simp] theorem storeByte_inLen (a : Nat) (b : Byte) (s : State) : (storeByte a b s).inLen = s.inLen := rfl
@[simp] theorem storeByte_drs (a : Nat) (b : Byte) (s : State) : (storeByte a b s).drs = s.drs := rfl
@[simp] theorem storeByte_ers (a : Nat) (b : Byte) (s : State) : (storeByte a b s).ers = s.ers := rfl
@[simp] theorem storeByte_err (a : Nat) (b : Byte) (s : State) : (storeByte a b s).err = s.err := rfl
@[simp] theorem storeByte_done (a : Nat) (b : Byte) (s : State) : (storeByte a b s).done = s.done := rfl
@[simp] theorem storeByte_errSeen (a : Nat) (b : Byte) (s : State) : (storeByte a b s).errSeen = s.errSeen := rfl
@[simp] theorem storeByte_resVal (a : Nat) (b : Byte) (s : State) : (storeByte a b s).resVal = s.resVal := rfl
@[simp] theorem storeByte_resCons (a : Nat) (b : Byte) (s : State) : (storeByte a b s).resCons = s.resCons := rfl
@[simp] theorem storeByte_resMsg0 (a : Nat) (b : Byte) (s : State) : (storeByte a b s).resMsg0 = s.resMsg0 := rfl
@[simp] theorem storeByte_resMsg1 (a : Nat) (b : Byte) (s : State) : (storeByte a b s).resMsg1 = s.resMsg1 := rfl
@[simp] theorem storeByte_resLen (a : Nat) (b : Byte) (s : State) : (storeByte a b s).resLen = s.resLen := rfl
@[simp] theorem storeByte_resPoff (a : Nat) (b : Byte) (s : State) : (storeByte a b s).resPoff = s.resPoff := rfl
@[simp] theorem storeByte_outCnt (a : Nat) (b : Byte) (s : State) : (storeByte a b s).outCnt = s.outCnt := rfl
@[simp] theorem storeByte_held (a : Nat) (b : Byte) (s : State) : (storeByte a b s).held = s.held := rfl
@[simp] theorem storeByte_mem (a : Nat) (b : Byte) (s : State) : (storeByte a b s).mem = memWrite s.mem a b := rfl
@[simp] theorem storeByte_out (a : Nat) (b : Byte) (s : State) : (storeByte a b s).out = s.out := rfl
@[simp] theorem storeByte_sinkReady (a : Nat) (b : Byte) (s : State) : (storeByte a b s).sinkReady = s.sinkReady := rfl
@[simp] theorem storeByte_sinkInput (a : Nat) (b : Byte) (s : State) : (storeByte a b s).sinkInput = s.sinkInput := rfl
@[simp] theorem storeByte_hostMoves (a : Nat) (b : Byte) (s : State) : (storeByte a b s).hostMoves = s.hostMoves := rfl
@[simp] theorem storeByte_hostData (a : Nat) (b : Byte) (s : State) : (storeByte a b s).hostData = s.hostData := rfl
@[simp] theorem storeByte_epoch (a : Nat) (b : Byte) (s : State) : (storeByte a b s).epoch = s.epoch := rfl

/-! ### hwReset: the reset input, R700 -/

@[simp] theorem hwReset_cfg (s : State) : (hwReset s).cfg = s.cfg := rfl
@[simp] theorem hwReset_cmd (s : State) : (hwReset s).cmd = State.reset.cmd := rfl
@[simp] theorem hwReset_arg0 (s : State) : (hwReset s).arg0 = State.reset.arg0 := rfl
@[simp] theorem hwReset_arg1 (s : State) : (hwReset s).arg1 = State.reset.arg1 := rfl
@[simp] theorem hwReset_arg2 (s : State) : (hwReset s).arg2 = State.reset.arg2 := rfl
@[simp] theorem hwReset_arg3 (s : State) : (hwReset s).arg3 = State.reset.arg3 := rfl
@[simp] theorem hwReset_inLen (s : State) : (hwReset s).inLen = State.reset.inLen := rfl
@[simp] theorem hwReset_drs (s : State) : (hwReset s).drs = State.reset.drs := rfl
@[simp] theorem hwReset_ers (s : State) : (hwReset s).ers = State.reset.ers := rfl
@[simp] theorem hwReset_err (s : State) : (hwReset s).err = State.reset.err := rfl
@[simp] theorem hwReset_done (s : State) : (hwReset s).done = State.reset.done := rfl
@[simp] theorem hwReset_errSeen (s : State) : (hwReset s).errSeen = State.reset.errSeen := rfl
@[simp] theorem hwReset_resVal (s : State) : (hwReset s).resVal = State.reset.resVal := rfl
@[simp] theorem hwReset_resCons (s : State) : (hwReset s).resCons = State.reset.resCons := rfl
@[simp] theorem hwReset_resMsg0 (s : State) : (hwReset s).resMsg0 = State.reset.resMsg0 := rfl
@[simp] theorem hwReset_resMsg1 (s : State) : (hwReset s).resMsg1 = State.reset.resMsg1 := rfl
@[simp] theorem hwReset_resLen (s : State) : (hwReset s).resLen = State.reset.resLen := rfl
@[simp] theorem hwReset_resPoff (s : State) : (hwReset s).resPoff = State.reset.resPoff := rfl
@[simp] theorem hwReset_outCnt (s : State) : (hwReset s).outCnt = State.reset.outCnt := rfl
@[simp] theorem hwReset_held (s : State) : (hwReset s).held = State.reset.held := rfl
@[simp] theorem hwReset_mem (s : State) : (hwReset s).mem = State.reset.mem := rfl
@[simp] theorem hwReset_out (s : State) : (hwReset s).out = State.reset.out := rfl
@[simp] theorem hwReset_sinkReady (s : State) : (hwReset s).sinkReady = s.sinkReady := rfl
@[simp] theorem hwReset_sinkInput (s : State) : (hwReset s).sinkInput = s.sinkInput := rfl
@[simp] theorem hwReset_hostMoves (s : State) : (hwReset s).hostMoves = s.hostMoves := rfl
@[simp] theorem hwReset_hostData (s : State) : (hwReset s).hostData = s.hostData := rfl
@[simp] theorem hwReset_epoch (s : State) : (hwReset s).epoch = s.epoch + 1 := rfl

end Sys2Proof.Machine
end

