-- ==== Sys2Proof/Laws/Memory.lean ====
section
/-! SUPPORT. What the memory operations do: a read after a write, and the canonical form kept. -/

namespace Sys2Proof.Machine

@[simp] theorem memRead_nil (a : Nat) : memRead [] a = none := rfl

/-- A read of the address just written gives the byte written. -/
@[simp] theorem memRead_memWrite_same (m : List Host.Cell) (a : Nat) (b : Byte) :
    memRead (memWrite m a b) a = some b := by
  induction m with
  | nil => simp [memWrite, memRead]
  | cons x m ih =>
    obtain ⟨k, c⟩ := x
    simp only [memWrite]
    split
    · simp [memRead]
    · split
      · simp [memRead]
      · rename_i h1 h2
        simp [memRead, h2, ih]

/-- In a list with strictly rising addresses, an address below every entry is not listed. -/
theorem memRead_of_lt {m : List Host.Cell} {a : Nat} (h : ∀ x ∈ m, a < x.1) : memRead m a = none := by
  induction m with
  | nil => rfl
  | cons x m ih =>
    obtain ⟨k, c⟩ := x
    have hk : a < k := h (k, c) (by simp)
    have : a ≠ k := by omega
    simp only [memRead, this, if_false]
    exact ih fun y hy => h y (by simp [hy])

/-- A write leaves every other address alone. -/
theorem memRead_memWrite_other (m : List Host.Cell) {a a' : Nat} (b : Byte) (h : a' ≠ a) :
    memRead (memWrite m a b) a' = memRead m a' := by
  induction m with
  | nil => simp [memWrite, memRead, h, unlistedByte]
  | cons x m ih =>
    obtain ⟨k, c⟩ := x
    simp only [memWrite]
    split
    · simp [memRead, h]
    · split
      · rename_i h1 h2
        subst h2
        simp [memRead, h]
      · simp [memRead, ih]

/-- What an entry of the memory after a write can be. -/
theorem mem_memWrite {m : List Host.Cell} {a : Nat} {b : Byte} {x : Host.Cell} (h : x ∈ memWrite m a b) :
    x = (a, b) ∨ x ∈ m := by
  induction m with
  | nil => simpa [memWrite] using h
  | cons y m ih =>
    obtain ⟨k, c⟩ := y
    simp only [memWrite] at h
    split at h
    · simpa using h
    · split at h
      · rcases List.mem_cons.1 h with h | h
        · exact .inl h
        · exact .inr (by simp [h])
      · rcases List.mem_cons.1 h with h | h
        · exact .inr (by simp [h])
        · rcases ih h with h | h
          · exact .inl h
          · exact .inr (by simp [h])

/-- A write keeps the addresses strictly rising. -/
theorem memWrite_pairwise {m : List Host.Cell} (a : Nat) (b : Byte)
    (h : m.Pairwise (fun x y => x.1 < y.1)) : (memWrite m a b).Pairwise (fun x y => x.1 < y.1) := by
  induction m with
  | nil => simp [memWrite]
  | cons x m ih =>
    obtain ⟨k, c⟩ := x
    obtain ⟨hk, hm⟩ := List.pairwise_cons.1 h
    simp only [memWrite]
    split
    · rename_i hlt
      refine List.pairwise_cons.2 ⟨?_, h⟩
      intro y hy
      rcases List.mem_cons.1 hy with rfl | hy
      · exact hlt
      · exact Nat.lt_trans hlt (hk y hy)
    · split
      · rename_i _ heq
        subst heq
        exact List.pairwise_cons.2 ⟨hk, hm⟩
      · rename_i h1 h2
        refine List.pairwise_cons.2 ⟨?_, ih hm⟩
        intro y hy
        rcases mem_memWrite hy with rfl | hy
        · show k < a
          omega
        · exact hk y hy

/-- A write keeps the canonical form. -/
theorem memWrite_wf {m : List Host.Cell} (a : Nat) (b : Byte) (h : memWf m) : memWf (memWrite m a b) :=
  ⟨memWrite_pairwise a b h.1, fun _ _ => nofun⟩

/-- The empty memory is canonical. -/
theorem memWf_nil : memWf [] := ⟨List.Pairwise.nil, nofun⟩

end Sys2Proof.Machine
end

