-- ==== Sys2Proof/Laws/Ops.lean ====
section
/-! SUPPORT. What each shared operation can do: one lemma per operation, cited instead of unfolding it. -/

namespace Sys2Proof.Machine

/-! ### Attempt -/

@[simp] theorem bind_ok_left {α β : Type} (a : α) (f : α → Attempt β) : (Attempt.ok a).bind f = f a := rfl

@[simp] theorem bind_raise_left {α β : Type} (e : ErrCode) (f : α → Attempt β) :
    (Attempt.raise e).bind f = .raise e := rfl

@[simp] theorem bind_refuse_left {α β : Type} (r : Refusal) (f : α → Attempt β) :
    (Attempt.refuse r).bind f = .refuse r := rfl

/-- A bind succeeds exactly when both parts do. -/
theorem bind_eq_ok {α β : Type} {x : Attempt α} {f : α → Attempt β} {b : β} :
    x.bind f = .ok b ↔ ∃ a, x = .ok a ∧ f a = .ok b := by
  cases x <;> simp

/-- A bind raises when its first part raises, or its second part does after a value. -/
theorem bind_eq_raise {α β : Type} {x : Attempt α} {f : α → Attempt β} {e : ErrCode} :
    x.bind f = .raise e ↔ x = .raise e ∨ ∃ a, x = .ok a ∧ f a = .raise e := by
  cases x <;> simp

/-- A bind refuses when its first part refuses, or its second part does after a value. -/
theorem bind_eq_refuse {α β : Type} {x : Attempt α} {f : α → Attempt β} {r : Refusal} :
    x.bind f = .refuse r ↔ x = .refuse r ∨ ∃ a, x = .ok a ∧ f a = .refuse r := by
  cases x <;> simp

/-! ### finish -/

@[simp] theorem finish_ok {α : Type} (a : α) (f : α → State → State) (s : State) :
    finish (.ok a) f s = .next (f a s) := rfl

@[simp] theorem finish_raise {α : Type} (e : ErrCode) (f : α → State → State) (s : State) :
    finish (.raise e) f s = .next (complete e s) := rfl

@[simp] theorem finish_refuse {α : Type} (r : Refusal) (f : α → State → State) (s : State) :
    finish (.refuse r) f s = .refused r := rfl

/-- A command that answers a next state committed its value, or completed with an error code. -/
theorem finish_next {α : Type} {r : Attempt α} {f : α → State → State} {s t : State} :
    finish r f s = .next t ↔ (∃ a, r = .ok a ∧ t = f a s) ∨ (∃ e, r = .raise e ∧ t = complete e s) := by
  cases r <;> simp [eq_comm]

/-! ### Checks -/

@[simp] theorem check_true : check true = .ok () := rfl

@[simp] theorem check_false : check false = .raise .invalidArgument := rfl

theorem check_eq_ok {b : Bool} {u : Unit} : check b = .ok u ↔ b = true := by
  cases b <;> simp

theorem check_eq_raise {b : Bool} {e : ErrCode} : check b = .raise e ↔ b = false ∧ e = .invalidArgument := by
  cases b <;> simp [eq_comm]

theorem check_ne_refuse {b : Bool} {r : Refusal} : check b ≠ .refuse r := by
  cases b <;> simp

/-! ### The block's reads -/

theorem inByte_eq_ok {s : State} {p : Nat} {b : Byte} : inByte s p = .ok b ↔ ibufByte s p = some b := by
  unfold inByte
  cases ibufByte s p <;> simp

theorem inByte_ne_raise {s : State} {p : Nat} {e : ErrCode} : inByte s p ≠ .raise e := by
  unfold inByte
  cases ibufByte s p <;> simp

/-- A byte is read exactly when it is below IN_LEN and written. -/
theorem nextByte_eq_ok {s : State} {e : ErrCode} {p : Nat} {b : Byte} :
    nextByte s e p = .ok b ↔ p < s.inLen.toNat ∧ ibufByte s p = some b := by
  unfold nextByte
  split
  · rename_i h
    simp
    omega
  · rename_i h
    simp only [inByte_eq_ok, iff_and_self]
    omega

/-- A read of a byte raises exactly at or beyond IN_LEN. -/
theorem nextByte_eq_raise {s : State} {e e' : ErrCode} {p : Nat} :
    nextByte s e p = .raise e' ↔ s.inLen.toNat ≤ p ∧ e' = e := by
  unfold nextByte
  split
  · rename_i h
    simp [h, eq_comm]
  · rename_i h
    simp [h, inByte_ne_raise]

/-- The data bytes read are the ones that stand in EBUF. -/
theorem ebufBytes_eq_ok {s : State} {off n : Nat} {bs : List Byte} :
    ebufBytes s off n = .ok bs ↔ bs.length = n ∧ ebufAt s off bs := by
  induction n generalizing off bs with
  | zero =>
    simp only [ebufBytes, Attempt.ok.injEq]
    constructor
    · rintro rfl
      exact ⟨rfl, nofun⟩
    · rintro ⟨h, -⟩
      exact (List.length_eq_zero_iff.1 h).symm
  | succ n ih =>
    simp only [ebufBytes]
    cases hb : ebufByte s off with
    | none =>
      simp only [reduceCtorEq, false_iff, not_and]
      intro hl h
      cases bs with
      | nil => simp at hl
      | cons b bs => simpa [hb] using h 0 b rfl
    | some b =>
      simp only [bind_eq_ok, ih, Attempt.ok.injEq]
      constructor
      · rintro ⟨bs', ⟨hl, h⟩, rfl⟩
        refine ⟨by simp [hl], ?_⟩
        intro i c hc
        cases i with
        | zero => simpa [hb] using hc
        | succ i =>
          have := h i c (by simpa using hc)
          rwa [Nat.add_right_comm, Nat.add_assoc] at this
      · rintro ⟨hl, h⟩
        cases bs with
        | nil => simp at hl
        | cons c bs =>
          have hc : b = c := by simpa [hb] using h 0 c rfl
          subst hc
          refine ⟨bs, ⟨by simpa using hl, ?_⟩, rfl⟩
          intro i d hd
          have := h (i + 1) d (by simpa using hd)
          rwa [Nat.add_right_comm, Nat.add_assoc]

/-- Reading data bytes never raises: an unwritten byte is refused. -/
theorem ebufBytes_ne_raise {s : State} {off n : Nat} {e : ErrCode} : ebufBytes s off n ≠ .raise e := by
  induction n generalizing off with
  | zero => simp [ebufBytes]
  | succ n ih =>
    simp only [ebufBytes]
    cases ebufByte s off with
    | none => simp
    | some b => simp [bind_eq_raise, ih]

/-! ### Completion -/

/-- A completion with an error code is R612's update. -/
theorem complete_error {e : ErrCode} (h : e ≠ .ok) (s : State) : complete e s = afterError s e := by
  simp [complete, afterError, h]

/-- R614: the two ways an encode command with its checks passed can go. -/
theorem commitOrHold_cases (c : EncCmd) (o : EncOut) (s : State) :
    (s.sinkReady = true ∧ commitOrHold c o s = commitEncode o s) ∨
      (s.sinkReady = false ∧ commitOrHold c o s = hold c s) := by
  unfold commitOrHold
  cases s.sinkReady <;> simp

end Sys2Proof.Machine
end

