-- ==== Sys2Proof/Laws/Vlq.lean ====
section
/-! SUPPORT. What the VLQ helpers do, against the format of R310: the group step, everything `vlqLoop` can answer, and the
bytes `vlqBytes` gives. -/

namespace Sys2Proof.Machine

/-! ### Bytes at an offset -/

theorem ibufAt_nil {s : State} {p : Nat} : ibufAt s p [] ↔ p ≤ s.inLen.toNat := by
  simp [ibufAt]

theorem ibufAt_cons {s : State} {p : Nat} {b : Byte} {bs : List Byte} :
    ibufAt s p (b :: bs) ↔ p < s.inLen.toNat ∧ ibufByte s p = some b ∧ ibufAt s (p + 1) bs := by
  simp only [ibufAt, List.length_cons]
  constructor
  · rintro ⟨hl, h⟩
    refine ⟨by omega, h 0 b rfl, by omega, ?_⟩
    intro i c hc
    have := h (i + 1) c (by simpa using hc)
    rwa [Nat.add_right_comm, Nat.add_assoc]
  · rintro ⟨hp, hb, hl, h⟩
    refine ⟨by omega, ?_⟩
    intro i c hc
    cases i with
    | zero => simpa [hb] using hc
    | succ i =>
      have := h i c (by simpa using hc)
      rwa [Nat.add_right_comm, Nat.add_assoc] at this

theorem ibufAt_append {s : State} {p : Nat} {as bs : List Byte} :
    ibufAt s p (as ++ bs) ↔ ibufAt s p as ∧ ibufAt s (p + as.length) bs := by
  induction as generalizing p with
  | nil =>
    simp only [List.nil_append, List.length_nil, Nat.add_zero, ibufAt_nil]
    constructor
    · intro h
      exact ⟨by have := h.1; omega, h⟩
    · exact fun h => h.2
  | cons a as ih =>
    simp only [List.cons_append, ibufAt_cons, ih, List.length_cons]
    rw [show p + 1 + as.length = p + (as.length + 1) by omega]
    tauto

/-! ### The group step and the format -/

/-- R400's step, "shift the accumulator left by 7 bits then OR in the low 7 bits", as arithmetic. -/
theorem group_step (acc : Nat) (b : Byte) :
    (acc <<< 7) ||| (b &&& 0x7F).toNat = acc * 2 ^ 7 + b.toNat % 2 ^ 7 := by
  have h : (b &&& 0x7F).toNat = b.toNat % 2 ^ 7 := by
    rw [BitVec.toNat_and]
    exact Nat.and_two_pow_sub_one_eq_mod _ 7
  rw [h, ← Nat.shiftLeft_add_eq_or_of_lt (Nat.mod_lt _ (by decide)), Nat.shiftLeft_eq]

@[simp] theorem isVlq_nil : isVlq [] = false := rfl

@[simp] theorem isVlq_single (b : Byte) : isVlq [b] = !b.getLsbD 7 := rfl

@[simp] theorem isVlq_cons_cons (b c : Byte) (bs : List Byte) :
    isVlq (b :: c :: bs) = (b.getLsbD 7 && isVlq (c :: bs)) := rfl

theorem isVlq_cons {b : Byte} {bs : List Byte} :
    isVlq (b :: bs) = true ↔
      (bs = [] ∧ b.getLsbD 7 = false) ∨ (b.getLsbD 7 = true ∧ isVlq bs = true) := by
  cases bs with
  | nil => simp
  | cons c bs => simp

@[simp] theorem vlqValue_nil : vlqValue [] = 0 := rfl

theorem vlqValue_cons (b : Byte) (bs : List Byte) :
    vlqValue (b :: bs) = b.toNat % 2 ^ 7 * 2 ^ (7 * bs.length) + vlqValue bs := rfl

/-- A VLQ of k bytes is below 2^(7k) (R402). -/
theorem vlqValue_lt (bs : List Byte) : vlqValue bs < 2 ^ (7 * bs.length) := by
  induction bs with
  | nil => simp
  | cons b bs ih =>
    rw [vlqValue_cons, List.length_cons, Nat.mul_succ, Nat.pow_add, Nat.mul_comm (2 ^ _) (2 ^ 7)]
    have h : b.toNat % 2 ^ 7 < 2 ^ 7 := Nat.mod_lt _ (by decide)
    have : b.toNat % 2 ^ 7 * 2 ^ (7 * bs.length) + 2 ^ (7 * bs.length) ≤ 2 ^ 7 * 2 ^ (7 * bs.length) := by
      rw [← Nat.succ_mul]
      exact Nat.mul_le_mul_right _ h
    omega

/-- A VLQ of at most four bytes is at most 0x0FFFFFFF (R402). -/
theorem vlqValue_le_max {bs : List Byte} (h : bs.length ≤ 4) : vlqValue bs ≤ vlqMaxValue := by
  have h1 := vlqValue_lt bs
  have h2 : 2 ^ (7 * bs.length) ≤ 2 ^ (7 * 4) := Nat.pow_le_pow_right (by decide) (by omega)
  have h3 : vlqMaxValue = 2 ^ (7 * 4) - 1 := by decide
  omega

/-! ### vlqLoop -/

/-- The loop step of `vlq_read` (R401), with the group step as arithmetic. -/
theorem vlqLoop_succ (s : State) (e : ErrCode) (fuel p k acc : Nat) :
    vlqLoop s e (fuel + 1) p k acc =
      (nextByte s e p).bind fun b =>
        if b.getLsbD 7 then vlqLoop s e fuel (p + 1) (k + 1) (acc * 2 ^ 7 + b.toNat % 2 ^ 7)
        else .ok (acc * 2 ^ 7 + b.toNat % 2 ^ 7, k + 1) := by
  simp only [vlqLoop, group_step]

/-- The loop answers a value exactly when a VLQ of R310 stands at the offset, within the groups left and IN_LEN; the value
is R310's sum after the groups already read. -/
theorem vlqLoop_eq_ok {s : State} {e : ErrCode} {fuel p k acc : Nat} {r : Nat × Nat} :
    vlqLoop s e fuel p k acc = .ok r ↔
      ∃ bs, isVlq bs = true ∧ bs.length ≤ fuel ∧ ibufAt s p bs ∧
        r = (acc * 2 ^ (7 * bs.length) + vlqValue bs, k + bs.length) := by
  induction fuel generalizing p k acc with
  | zero =>
    simp only [vlqLoop, reduceCtorEq, false_iff, not_exists, not_and]
    intro bs hv hl
    cases bs <;> simp_all
  | succ fuel ih =>
    rw [vlqLoop_succ, bind_eq_ok]
    constructor
    · rintro ⟨b, hb, h⟩
      obtain ⟨hp, hb⟩ := nextByte_eq_ok.1 hb
      split at h
      · rename_i h7
        obtain ⟨bs, hv, hl, hat, hr⟩ := ih.1 h
        refine ⟨b :: bs, isVlq_cons.2 (.inr ⟨h7, hv⟩), by simpa using hl, ibufAt_cons.2 ⟨hp, hb, hat⟩, ?_⟩
        rw [hr, vlqValue_cons, List.length_cons]
        refine Prod.ext ?_ (by simp; omega)
        show _ * _ + _ = _ * _ + (_ + _)
        ring
      · rename_i h7
        refine ⟨[b], by simpa using h7, by simp, ibufAt_cons.2 ⟨hp, hb, ibufAt_nil.2 (by omega)⟩, ?_⟩
        simpa [vlqValue_cons, eq_comm] using h
    · rintro ⟨bs, hv, hl, hat, hr⟩
      cases bs with
      | nil => simp at hv
      | cons b bs =>
        obtain ⟨hp, hb, hat⟩ := ibufAt_cons.1 hat
        refine ⟨b, nextByte_eq_ok.2 ⟨hp, hb⟩, ?_⟩
        rcases isVlq_cons.1 hv with ⟨rfl, h7⟩ | ⟨h7, hv⟩
        · rw [if_neg (by rw [h7]; decide), hr]
          simp [vlqValue_cons]
        · rw [if_pos h7]
          refine ih.2 ⟨bs, hv, by simpa using hl, hat, ?_⟩
          rw [hr, vlqValue_cons, List.length_cons]
          refine Prod.ext ?_ (by simp; omega)
          show _ * _ + (_ + _) = _ * _ + _
          ring

/-- The loop raises its exhaustion error after continuation bytes that run to IN_LEN, or VlqOverflow after as many
continuation bytes as groups are allowed (R401, R406, R408). -/
theorem vlqLoop_eq_raise {s : State} {e e' : ErrCode} {fuel p k acc : Nat} :
    vlqLoop s e fuel p k acc = .raise e' ↔
      ∃ bs : List Byte, (∀ b ∈ bs, b.getLsbD 7 = true) ∧
        (∀ i b, bs[i]? = some b → p + i < s.inLen.toNat ∧ ibufByte s (p + i) = some b) ∧
        ((bs.length < fuel ∧ s.inLen.toNat ≤ p + bs.length ∧ e' = e) ∨
          (bs.length = fuel ∧ e' = .vlqOverflow)) := by
  induction fuel generalizing p k acc with
  | zero =>
    simp only [vlqLoop, Attempt.raise.injEq]
    constructor
    · rintro rfl
      exact ⟨[], nofun, nofun, .inr ⟨rfl, rfl⟩⟩
    · rintro ⟨bs, -, -, h | h⟩
      · omega
      · exact h.2.symm
  | succ fuel ih =>
    rw [vlqLoop_succ, bind_eq_raise, nextByte_eq_raise]
    constructor
    · rintro (⟨hp, rfl⟩ | ⟨b, hb, h⟩)
      · exact ⟨[], nofun, nofun, .inl ⟨by simp, by simpa using hp, rfl⟩⟩
      · obtain ⟨hp, hb⟩ := nextByte_eq_ok.1 hb
        split at h
        · rename_i h7
          obtain ⟨bs, hc, hat, hr⟩ := ih.1 h
          refine ⟨b :: bs, by simpa [h7] using hc, ?_, ?_⟩
          · intro i c hi
            cases i with
            | zero =>
              obtain rfl : b = c := by simpa using hi
              exact ⟨hp, hb⟩
            | succ i =>
              have := hat i c (by simpa using hi)
              rwa [Nat.add_right_comm, Nat.add_assoc] at this
          · simp only [List.length_cons]
            rcases hr with ⟨h1, h2, h3⟩ | ⟨h1, h2⟩
            · exact .inl ⟨by omega, by omega, h3⟩
            · exact .inr ⟨by omega, h2⟩
        · simp at h
    · rintro ⟨bs, hc, hat, hr⟩
      cases bs with
      | nil =>
        rcases hr with ⟨h1, h2, h3⟩ | ⟨h1, h2⟩
        · exact .inl ⟨by simpa using h2, h3⟩
        · simp at h1
      | cons b bs =>
        have h0 := hat 0 b rfl
        refine .inr ⟨b, nextByte_eq_ok.2 h0, ?_⟩
        rw [if_pos (hc b (by simp))]
        refine ih.2 ⟨bs, fun c h => hc c (by simp [h]), ?_, ?_⟩
        · intro i c hi
          have := hat (i + 1) c (by simpa using hi)
          rwa [Nat.add_right_comm, Nat.add_assoc]
        · simp only [List.length_cons] at hr
          rcases hr with ⟨h1, h2, h3⟩ | ⟨h1, h2⟩
          · exact .inl ⟨by omega, by omega, h3⟩
          · exact .inr ⟨by omega, h2⟩

/-! ### vlqBytes -/

/-- A group byte: the group's value, plus 0x80 unless it is the last (R420). -/
theorem vlqGroupByte_toNat (v k i : Nat) :
    (vlqGroupByte v k i).toNat = v / 2 ^ (7 * (k - 1 - i)) % 2 ^ 7 + if i < k - 1 then 0x80 else 0 := by
  have h : v >>> (7 * (k - 1 - i)) &&& 0x7F = v / 2 ^ (7 * (k - 1 - i)) % 2 ^ 7 := by
    rw [Nat.shiftRight_eq_div_pow]
    exact Nat.and_two_pow_sub_one_eq_mod _ 7
  have hlt : v / 2 ^ (7 * (k - 1 - i)) % 2 ^ 7 < 2 ^ 7 := Nat.mod_lt _ (by decide)
  unfold vlqGroupByte
  rw [h, BitVec.toNat_ofNat]
  generalize v / 2 ^ (7 * (k - 1 - i)) % 2 ^ 7 = g at *
  split
  · rw [Nat.or_comm, show (0x80 : Nat) = 1 <<< 7 by decide, ← Nat.shiftLeft_add_eq_or_of_lt hlt]
    omega
  · simp
    omega

/-- Bit 7 of a byte is set exactly from 0x80 on (R12). -/
theorem byte_bit7 (b : Byte) : b.getLsbD 7 = decide (0x80 ≤ b.toNat) := by
  have h := b.isLt
  rw [BitVec.getLsbD, Nat.testBit_eq_decide_div_mod_eq]
  congr 1
  apply propext
  omega

@[simp] theorem vlqBytes_length (v : Nat) : (vlqBytes v).length = vlqGroups v := by
  simp [vlqBytes]

theorem vlqGroups_le (v : Nat) : vlqGroups v ≤ 4 := by
  unfold vlqGroups
  split
  · omega
  · split
    · omega
    · split <;> omega

theorem vlqGroups_pos (v : Nat) : 1 ≤ vlqGroups v := by
  unfold vlqGroups
  split
  · omega
  · split
    · omega
    · split <;> omega

/-- The bytes of a value below 2^7 (R311). -/
theorem vlqBytes_one {v : Nat} (h : v < 2 ^ 7) : vlqBytes v = [vlqGroupByte v 1 0] := by
  rw [vlqBytes, show vlqGroups v = 1 from if_pos h]
  rfl

/-- The bytes of a value in [2^7, 2^14) (R311). -/
theorem vlqBytes_two {v : Nat} (h0 : ¬ v < 2 ^ 7) (h : v < 2 ^ 14) :
    vlqBytes v = [vlqGroupByte v 2 0, vlqGroupByte v 2 1] := by
  rw [vlqBytes, show vlqGroups v = 2 from (if_neg h0).trans (if_pos h)]
  rfl

/-- The bytes of a value in [2^14, 2^21) (R311). -/
theorem vlqBytes_three {v : Nat} (h0 : ¬ v < 2 ^ 14) (h : v < 2 ^ 21) :
    vlqBytes v = [vlqGroupByte v 3 0, vlqGroupByte v 3 1, vlqGroupByte v 3 2] := by
  rw [vlqBytes, show vlqGroups v = 3 from (if_neg (by omega)).trans ((if_neg h0).trans (if_pos h))]
  rfl

/-- The bytes of a value of 2^21 or more (R311). -/
theorem vlqBytes_four {v : Nat} (h : ¬ v < 2 ^ 21) :
    vlqBytes v = [vlqGroupByte v 4 0, vlqGroupByte v 4 1, vlqGroupByte v 4 2, vlqGroupByte v 4 3] := by
  rw [vlqBytes, show vlqGroups v = 4 from (if_neg (by omega)).trans ((if_neg (by omega)).trans (if_neg h))]
  rfl

/-- Bit 7 of a group byte: set on every byte but the last (R420). -/
theorem vlqGroupByte_bit7 (v k i : Nat) : (vlqGroupByte v k i).getLsbD 7 = decide (i < k - 1) := by
  rw [byte_bit7, vlqGroupByte_toNat]
  have : v / 2 ^ (7 * (k - 1 - i)) % 2 ^ 7 < 2 ^ 7 := Nat.mod_lt _ (by decide)
  split
  · rename_i h
    simp [h]
  · rename_i h
    rw [decide_eq_false h, decide_eq_false]
    omega

end Sys2Proof.Machine
end

