-- ==== Sys2Proof/Laws/Message.lean ====
section
/-! SUPPORT. What the message parser can answer (R451), the families (R17), and the result words as numbers (R142, R143). -/

namespace Sys2Proof.Machine

/-! ### Families and result words -/

/-- The family table of R17 covers exactly the channel-voice statuses, with 1 data byte for 0xC0-0xDF and 2 otherwise. -/
theorem familyLen_eq_some {st : Byte} {n : Nat} :
    familyLen (familyOf st) = some n ↔ voiceStatus st ∧ n = voiceLen st := by
  have h : ∀ st : Byte, familyLen (familyOf st) = if voiceStatus st then some (voiceLen st) else none := by decide
  rw [h]
  split
  · rename_i hv
    rw [Option.some.injEq]
    exact ⟨fun h => ⟨hv, h.symm⟩, fun h => h.2.symm⟩
  · rename_i hv
    simp only [reduceCtorEq, false_iff]
    exact fun h => hv h.1

/-- The family table of R17 is undefined for every other status (R463). -/
theorem familyLen_eq_none {st : Byte} : familyLen (familyOf st) = none ↔ ¬ voiceStatus st := by
  revert st
  decide

/-- An OR with a value shifted past it adds. -/
theorem or_shift {a k : Nat} (h : a < 2 ^ k) (b : Nat) : a ||| b <<< k = a + b * 2 ^ k := by
  rw [Nat.or_comm, ← Nat.shiftLeft_add_eq_or_of_lt h, Nat.shiftLeft_eq, Nat.add_comm]

theorem flagBit_toNat (b : Bool) {k : Nat} (h : k < 32) : (flagBit b k).toNat = b.toNat <<< k := by
  unfold flagBit
  cases b
  · simp
  · have : 2 ^ k < 2 ^ 32 := Nat.pow_lt_pow_right (by decide) h
    rw [if_pos rfl, BitVec.toNat_shiftLeft, Bool.toNat_true, show BitVec.toNat (1 : Word) = 1 from rfl,
      Nat.shiftLeft_eq, Nat.one_mul, Nat.mod_eq_of_lt this]

/-- RES_MSG0 as R142 lays it out, for a record whose channel is a nibble. -/
theorem msg0Word_eq {r : MsgRec} (h : r.chan.toNat < 16) :
    msg0Word r = msg0Image r.st.toNat r.fam.toNat r.chan.toNat (isMeta r) (isEot r) r.sc := by
  have hst := r.st.isLt
  have hfam := r.fam.isLt
  have hm : (isMeta r).toNat ≤ 1 := Bool.toNat_le _
  have he : (isEot r).toNat ≤ 1 := Bool.toNat_le _
  have hs : r.sc.toNat ≤ 1 := Bool.toNat_le _
  apply BitVec.eq_of_toNat_eq
  simp only [msg0Word, msg0Image, BitVec.toNat_or, BitVec.toNat_shiftLeft, BitVec.toNat_setWidth,
    BitVec.toNat_ofNat, flagBit_toNat _ (by decide : 24 < 32), flagBit_toNat _ (by decide : 25 < 32),
    flagBit_toNat _ (by decide : 26 < 32)]
  have hfam' : r.fam.toNat % 2 ^ 32 = r.fam.toNat := Nat.mod_eq_of_lt (by omega)
  have hst' : r.st.toNat % 2 ^ 32 = r.st.toNat := Nat.mod_eq_of_lt (by omega)
  have hch' : r.chan.toNat % 2 ^ 32 = r.chan.toNat := Nat.mod_eq_of_lt (by omega)
  rw [hfam', hst', hch']
  have hfs : r.fam.toNat <<< 8 % 2 ^ 32 = r.fam.toNat <<< 8 := Nat.mod_eq_of_lt (by rw [Nat.shiftLeft_eq]; omega)
  have hcs : r.chan.toNat <<< 16 % 2 ^ 32 = r.chan.toNat <<< 16 := Nat.mod_eq_of_lt (by rw [Nat.shiftLeft_eq]; omega)
  rw [hfs, hcs, or_shift (k := 8) (by omega), or_shift (k := 16) (by omega), or_shift (k := 24) (by omega),
    or_shift (k := 25) (by omega), or_shift (k := 26) (by omega), Nat.mod_eq_of_lt (by omega)]

/-- RES_MSG1 as R143 lays it out. -/
theorem msg1Word_eq {r : MsgRec} (h : r.vlqn < 256) :
    msg1Word r = msg1Image r.d0.toNat r.d1.toNat r.vlqn := by
  have h0 := r.d0.isLt
  have h1 := r.d1.isLt
  apply BitVec.eq_of_toNat_eq
  simp only [msg1Word, msg1Image, BitVec.toNat_or, BitVec.toNat_shiftLeft, BitVec.toNat_setWidth, BitVec.toNat_ofNat]
  rw [Nat.mod_eq_of_lt (by omega : r.d0.toNat < 2 ^ 32), Nat.mod_eq_of_lt (by omega : r.d1.toNat < 2 ^ 32),
    Nat.mod_eq_of_lt (by omega : r.vlqn < 2 ^ 32),
    Nat.mod_eq_of_lt (by rw [Nat.shiftLeft_eq]; omega : r.d1.toNat <<< 8 < 2 ^ 32),
    Nat.mod_eq_of_lt (by rw [Nat.shiftLeft_eq]; omega : r.vlqn <<< 16 < 2 ^ 32),
    or_shift (k := 8) (by omega), or_shift (k := 16) (by omega), Nat.mod_eq_of_lt (by omega)]

theorem familyOf_toNat (st : Byte) : (familyOf st).toNat = st.toNat / 16 * 16 := by
  revert st
  decide

theorem channelOf_toNat (st : Byte) : (channelOf st).toNat = st.toNat % 16 := by
  revert st
  decide

/-! ### The parser -/

/-- The record of a channel-voice message (R451, R457). -/
def voiceRec (st : Byte) (sc : Bool) (q : Nat) (data : List Byte) : MsgRec :=
  { st := st, sc := sc, kind := .voice, fam := familyOf st, chan := channelOf st
    d0 := data.getD 0 0, d1 := data.getD 1 0
    vlqn := 0, len := data.length, poff := q, cons := sc.toNat + data.length }

/-- The record of a meta message (R451, R458). -/
def metaRec (p : Nat) (sc : Bool) (q : Nat) (t : Byte) (bs : List Byte) : MsgRec :=
  { st := 0xFF, sc := sc, kind := .metaEvent, fam := 0xFF, chan := 0, d0 := t, d1 := 0
    vlqn := bs.length, len := vlqValue bs, poff := q + 1 + bs.length, cons := q + 1 + bs.length + vlqValue bs - p }

/-- `vlq_read` answers exactly the VLQ of R310 that stands at the offset (R401, R402). -/
theorem vlqRead_eq_ok {s : State} {e : ErrCode} {p : Nat} {r : Nat × Nat} :
    vlqRead s e p = .ok r ↔ ∃ bs, vlqForm bs ∧ ibufAt s p bs ∧ r = (vlqValue bs, bs.length) := by
  unfold vlqRead
  rw [vlqLoop_eq_ok]
  constructor
  · rintro ⟨bs, hv, hl, hat, hr⟩
    exact ⟨bs, ⟨hv, hl⟩, hat, by simpa using hr⟩
  · rintro ⟨bs, ⟨hv, hl⟩, hat, hr⟩
    exact ⟨bs, hv, hl, hat, by simpa using hr⟩

/-- The meta case answers exactly a type byte, a VLQ length and a payload inside IN_LEN (R464). -/
theorem metaBody_eq_ok {s : State} {p q : Nat} {sc : Bool} {r : MsgRec} :
    metaBody s p sc q = .ok r ↔
      ∃ t bs, vlqForm bs ∧ ibufAt s q (t :: bs) ∧ q + 1 + bs.length + vlqValue bs ≤ s.inLen.toNat ∧
        r = metaRec p sc q t bs := by
  unfold metaBody
  simp only [bind_eq_ok, nextByte_eq_ok, vlqRead_eq_ok]
  constructor
  · rintro ⟨t, ⟨hq, ht⟩, x, ⟨bs, hf, hat, rfl⟩, h⟩
    split at h
    · simp at h
    · refine ⟨t, bs, hf, ibufAt_cons.2 ⟨hq, ht, hat⟩, by simp at *; omega, ?_⟩
      simpa [metaRec, eq_comm] using h
  · rintro ⟨t, bs, hf, hat, hl, rfl⟩
    obtain ⟨hq, ht, hat⟩ := ibufAt_cons.1 hat
    refine ⟨t, ⟨hq, ht⟩, _, ⟨bs, hf, hat, rfl⟩, ?_⟩
    rw [if_neg (by simp; omega)]
    rfl

theorem list_len_one {bs : List Byte} (h : bs.length = 1) : ∃ a, bs = [a] := by
  match bs, h with
  | [a], _ => exact ⟨a, rfl⟩

theorem list_len_two {bs : List Byte} (h : bs.length = 2) : ∃ a b, bs = [a, b] := by
  match bs, h with
  | [a, b], _ => exact ⟨a, b, rfl⟩

/-- The channel-voice case answers exactly the family's number of data bytes inside IN_LEN (R462). -/
theorem voiceBody_eq_ok {s : State} {st : Byte} {q : Nat} {sc : Bool} {r : MsgRec} :
    voiceBody s st sc q = .ok r ↔
      ∃ data, voiceStatus st ∧ data.length = voiceLen st ∧ ibufAt s q data ∧ r = voiceRec st sc q data := by
  unfold voiceBody
  cases hf : familyLen (familyOf st) with
  | none =>
    have := familyLen_eq_none.1 hf
    simp only [reduceCtorEq, false_iff, not_exists, not_and]
    exact fun _ h => absurd h this
  | some n =>
    obtain ⟨hv, rfl⟩ := familyLen_eq_some.1 hf
    have hn : voiceLen st = 1 ∨ voiceLen st = 2 := by
      unfold voiceLen
      split <;> simp
    simp only
    generalize voiceLen st = n at *
    constructor
    · intro h
      split at h
      · simp at h
      · rename_i hle
        simp only [bind_eq_ok, inByte_eq_ok] at h
        obtain ⟨d0, h0, d1, h1, hr⟩ := h
        rcases hn with rfl | rfl
        · obtain rfl : (0 : Byte) = d1 := by simpa using h1
          refine ⟨[d0], hv, rfl, ibufAt_cons.2 ⟨by omega, h0, ibufAt_nil.2 (by omega)⟩, ?_⟩
          simpa [voiceRec, eq_comm] using hr
        · refine ⟨[d0, d1], hv, rfl, ibufAt_cons.2 ⟨by omega, h0, ibufAt_cons.2
            ⟨by omega, by simpa [inByte_eq_ok] using h1, ibufAt_nil.2 (by omega)⟩⟩, ?_⟩
          simpa [voiceRec, eq_comm] using hr
    · rintro ⟨data, -, hl, hat, rfl⟩
      rw [if_neg (by have := hat.1; omega)]
      simp only [bind_eq_ok, inByte_eq_ok]
      rcases hn with rfl | rfl
      · obtain ⟨a, rfl⟩ := list_len_one hl
        obtain ⟨_, h0, -⟩ := ibufAt_cons.1 hat
        exact ⟨a, h0, 0, rfl, rfl⟩
      · obtain ⟨a, b, rfl⟩ := list_len_two hl
        obtain ⟨_, h0, hat⟩ := ibufAt_cons.1 hat
        obtain ⟨_, h1, -⟩ := ibufAt_cons.1 hat
        exact ⟨a, h0, b, inByte_eq_ok.2 h1, rfl⟩

/-- The parser finds the start of a message and goes on with its status (R452, R461). -/
theorem msgParse_eq_ok {s : State} {p : Nat} {r : MsgRec} :
    msgParse s p = .ok r ↔ ∃ st sc q, msgHead s p st sc q ∧ msgBody s p st sc q = .ok r := by
  unfold msgParse
  simp only [bind_eq_ok, nextByte_eq_ok]
  constructor
  · rintro ⟨b, ⟨hp, hb⟩, h⟩
    split at h
    · rename_i h7
      exact ⟨b, true, p + 1, .inl ⟨rfl, rfl, ibufAt_cons.2 ⟨hp, hb, ibufAt_nil.2 (by omega)⟩, h7⟩, h⟩
    · rename_i h7
      cases hd : s.drs with
      | none => simp [hd] at h
      | some st =>
        rw [hd] at h
        exact ⟨st, false, p, .inr ⟨rfl, rfl, hd, b, ibufAt_cons.2 ⟨hp, hb, ibufAt_nil.2 (by omega)⟩,
          Bool.eq_false_iff.2 h7⟩, h⟩
  · rintro ⟨st, sc, q, ⟨rfl, rfl, hat, h7⟩ | ⟨rfl, rfl, hd, b, hat, h7⟩, h⟩
    · obtain ⟨hp, hb, -⟩ := ibufAt_cons.1 hat
      exact ⟨st, ⟨hp, hb⟩, by rw [if_pos h7]; exact h⟩
    · obtain ⟨hp, hb, -⟩ := ibufAt_cons.1 hat
      exact ⟨b, ⟨hp, hb⟩, by rw [if_neg (by rw [h7]; decide), hd]; exact h⟩

/-- The offset of a message's data lies after its status byte, if that stands in the buffer. -/
theorem msgHead_offset {s : State} {p q : Nat} {st : Byte} {sc : Bool} (h : msgHead s p st sc q) :
    q = p + sc.toNat := by
  rcases h with ⟨rfl, rfl, -⟩ | ⟨rfl, rfl, -⟩ <;> rfl

/-- Every message the parser answers is a channel-voice message or a meta message at its head (R451). -/
theorem msgParse_cases {s : State} {p : Nat} {r : MsgRec} (h : msgParse s p = .ok r) :
    ∃ st sc q, msgHead s p st sc q ∧
      ((∃ data, voiceStatus st ∧ data.length = voiceLen st ∧ ibufAt s q data ∧ r = voiceRec st sc q data) ∨
        (st = 0xFF ∧ ∃ t bs, vlqForm bs ∧ ibufAt s q (t :: bs) ∧
          q + 1 + bs.length + vlqValue bs ≤ s.inLen.toNat ∧ r = metaRec p sc q t bs)) := by
  obtain ⟨st, sc, q, hh, hb⟩ := msgParse_eq_ok.1 h
  refine ⟨st, sc, q, hh, ?_⟩
  unfold msgBody at hb
  split at hb
  · exact .inr ⟨‹_›, metaBody_eq_ok.1 hb⟩
  · exact .inl (voiceBody_eq_ok.1 hb)

/-- A channel-voice message at its head is parsed to its record (R462). -/
theorem msgParse_voice {s : State} {p q : Nat} {st : Byte} {sc : Bool} {data : List Byte}
    (hh : msgHead s p st sc q) (hv : voiceStatus st) (hl : data.length = voiceLen st) (hat : ibufAt s q data) :
    msgParse s p = .ok (voiceRec st sc q data) := by
  refine msgParse_eq_ok.2 ⟨st, sc, q, hh, ?_⟩
  unfold msgBody
  rw [if_neg (by rintro rfl; exact absurd hv (by decide))]
  exact voiceBody_eq_ok.2 ⟨data, hv, hl, hat, rfl⟩

/-- A meta message at its head is parsed to its record (R464). -/
theorem msgParse_meta {s : State} {p q : Nat} {sc : Bool} {t : Byte} {bs : List Byte}
    (hh : msgHead s p 0xFF sc q) (hf : vlqForm bs) (hat : ibufAt s q (t :: bs))
    (hl : q + 1 + bs.length + vlqValue bs ≤ s.inLen.toNat) :
    msgParse s p = .ok (metaRec p sc q t bs) := by
  refine msgParse_eq_ok.2 ⟨0xFF, sc, q, hh, ?_⟩
  unfold msgBody
  rw [if_pos rfl]
  exact metaBody_eq_ok.2 ⟨t, bs, hf, hat, hl, rfl⟩

/-- An event is a VLQ delta and then a message (R480). -/
theorem evtParse_eq_ok {s : State} {p : Nat} {r : EvtRec} :
    evtParse s p = .ok r ↔
      ∃ bs m, vlqForm bs ∧ ibufAt s p bs ∧ msgParse s (p + bs.length) = .ok m ∧
        r = { delta := vlqValue bs, deltaLen := bs.length, msg := m } := by
  unfold evtParse
  simp only [bind_eq_ok, vlqRead_eq_ok]
  constructor
  · rintro ⟨d, ⟨bs, hf, hat, rfl⟩, m, hm, h⟩
    exact ⟨bs, m, hf, hat, hm, by simpa [eq_comm] using h⟩
  · rintro ⟨bs, m, hf, hat, hm, rfl⟩
    exact ⟨_, ⟨bs, hf, hat, rfl⟩, m, hm, rfl⟩

/-! ### Heads and short reads -/

/-- From its head, the parser goes on with the status in effect (R452, R461). -/
theorem msgParse_head {s : State} {p q : Nat} {st : Byte} {sc : Bool} (h : msgHead s p st sc q) :
    msgParse s p = msgBody s p st sc q := by
  rcases h with ⟨rfl, rfl, hat, h7⟩ | ⟨rfl, rfl, hd, b, hat, h7⟩
  · obtain ⟨hp, hb, -⟩ := ibufAt_cons.1 hat
    rw [msgParse, nextByte_eq_ok.2 ⟨hp, hb⟩, bind_ok_left, if_pos h7]
  · obtain ⟨hp, hb, -⟩ := ibufAt_cons.1 hat
    rw [msgParse, nextByte_eq_ok.2 ⟨hp, hb⟩, bind_ok_left, if_neg (by rw [h7]; decide), hd]

/-- Continuation bytes that run to IN_LEN exhaust the input (R401). -/
theorem vlqRead_runsOut {s : State} {e : ErrCode} {p : Nat} (h : runsOut s p) : vlqRead s e p = .raise e := by
  refine vlqLoop_eq_raise.2 ?_
  rcases h with h | ⟨bs, hc, hl, hat, he⟩
  · exact ⟨[], nofun, nofun, .inl ⟨by decide, by simpa using h, rfl⟩⟩
  · refine ⟨bs, hc, fun i b hb => ⟨?_, hat.2 i b hb⟩, .inl ⟨hl, by omega, rfl⟩⟩
    have := (List.getElem?_eq_some_iff.1 hb).1
    omega

/-- Four continuation bytes overflow (R408). -/
theorem vlqRead_overflows {s : State} {e : ErrCode} {p : Nat} (h : overflows s p) :
    vlqRead s e p = .raise .vlqOverflow := by
  obtain ⟨bs, hc, hl, hat⟩ := h
  refine vlqLoop_eq_raise.2 ⟨bs, hc, fun i b hb => ⟨?_, hat.2 i b hb⟩, .inr ⟨hl, rfl⟩⟩
  have := (List.getElem?_eq_some_iff.1 hb).1
  have := hat.1
  omega

/-! ### The committed words -/

/-- What the fields of R142's image are. -/
theorem msg0Image_fields {st fam chan : Nat} (kind eot sc : Bool) (h1 : st < 256) (h2 : fam < 256) (h3 : chan < 16) :
    ((msg0Image st fam chan kind eot sc).extractLsb' 0 8).toNat = st ∧
    ((msg0Image st fam chan kind eot sc).extractLsb' 8 8).toNat = fam ∧
    ((msg0Image st fam chan kind eot sc).extractLsb' 16 4).toNat = chan ∧
    (msg0Image st fam chan kind eot sc).extractLsb' 20 4 = 0 ∧
    (msg0Image st fam chan kind eot sc).extractLsb' 27 5 = 0 ∧
    (msg0Image st fam chan kind eot sc).getLsbD 24 = kind ∧
    (msg0Image st fam chan kind eot sc).getLsbD 25 = eot ∧
    (msg0Image st fam chan kind eot sc).getLsbD 26 = sc := by
  have hk := Bool.toNat_le kind
  have he := Bool.toNat_le eot
  have hc := Bool.toNat_le sc
  have hx : (msg0Image st fam chan kind eot sc).toNat =
      st + fam * 2 ^ 8 + chan * 2 ^ 16 + kind.toNat * 2 ^ 24 + eot.toNat * 2 ^ 25 + sc.toNat * 2 ^ 26 := by
    rw [msg0Image, BitVec.toNat_ofNat, Nat.mod_eq_of_lt (by omega)]
  refine ⟨?_, ?_, ?_, ?_, ?_, ?_, ?_, ?_⟩
  · rw [BitVec.extractLsb'_toNat, hx, Nat.shiftRight_eq_div_pow]
    omega
  · rw [BitVec.extractLsb'_toNat, hx, Nat.shiftRight_eq_div_pow]
    omega
  · rw [BitVec.extractLsb'_toNat, hx, Nat.shiftRight_eq_div_pow]
    omega
  · apply BitVec.eq_of_toNat_eq
    rw [BitVec.extractLsb'_toNat, hx, Nat.shiftRight_eq_div_pow]
    show _ = 0
    omega
  · apply BitVec.eq_of_toNat_eq
    rw [BitVec.extractLsb'_toNat, hx, Nat.shiftRight_eq_div_pow]
    show _ = 0
    omega
  · rw [BitVec.getLsbD, hx, Nat.testBit_eq_decide_div_mod_eq]
    cases kind <;> simp <;> omega
  · rw [BitVec.getLsbD, hx, Nat.testBit_eq_decide_div_mod_eq]
    cases eot <;> simp <;> omega
  · rw [BitVec.getLsbD, hx, Nat.testBit_eq_decide_div_mod_eq]
    cases sc <;> simp <;> omega

/-- What the fields of R143's image are. -/
theorem msg1Image_fields {d0 d1 n : Nat} (h1 : d0 < 256) (h2 : d1 < 256) (h3 : n < 256) :
    ((msg1Image d0 d1 n).extractLsb' 0 8).toNat = d0 ∧ ((msg1Image d0 d1 n).extractLsb' 8 8).toNat = d1 ∧
    ((msg1Image d0 d1 n).extractLsb' 16 8).toNat = n ∧ (msg1Image d0 d1 n).extractLsb' 24 8 = 0 := by
  have hx : (msg1Image d0 d1 n).toNat = d0 + d1 * 2 ^ 8 + n * 2 ^ 16 := by
    rw [msg1Image, BitVec.toNat_ofNat, Nat.mod_eq_of_lt (by omega)]
  refine ⟨?_, ?_, ?_, ?_⟩
  · rw [BitVec.extractLsb'_toNat, hx, Nat.shiftRight_eq_div_pow]
    omega
  · rw [BitVec.extractLsb'_toNat, hx, Nat.shiftRight_eq_div_pow]
    omega
  · rw [BitVec.extractLsb'_toNat, hx, Nat.shiftRight_eq_div_pow]
    omega
  · apply BitVec.eq_of_toNat_eq
    rw [BitVec.extractLsb'_toNat, hx, Nat.shiftRight_eq_div_pow]
    show _ = 0
    omega

theorem voiceRec_words {st : Byte} (sc : Bool) (q : Nat) (data : List Byte) (hv : voiceStatus st) :
    msg0Word (voiceRec st sc q data) = msg0Image st.toNat (st.toNat / 16 * 16) (st.toNat % 16) false false sc ∧
    msg1Word (voiceRec st sc q data) = msg1Image (data.getD 0 0).toNat (data.getD 1 0).toNat 0 := by
  have hst := hv.2
  constructor
  · rw [msg0Word_eq]
    · simp [voiceRec, familyOf_toNat, channelOf_toNat, isMeta, isEot]
    · simp [voiceRec, channelOf_toNat]
      omega
  · rw [msg1Word_eq (by simp [voiceRec])]
    rfl

theorem metaRec_words (p : Nat) (sc : Bool) (q : Nat) (t : Byte) {bs : List Byte} (hf : vlqForm bs) :
    msg0Word (metaRec p sc q t bs) = msg0Image 0xFF 0xFF 0 true (decide (t.toNat = 0x2F)) sc ∧
    msg1Word (metaRec p sc q t bs) = msg1Image t.toNat 0 bs.length := by
  have ht : decide (t.toNat = 0x2F) = decide (t = 0x2F) :=
    decide_eq_decide.2 (by rw [← BitVec.toNat_inj]; rfl)
  have hl := hf.2
  constructor
  · rw [msg0Word_eq (by simp [metaRec]), ht]
    rfl
  · rw [msg1Word_eq (by simp [metaRec]; omega)]
    rfl

/-- The commit of a channel-voice record, as the statements say it (R460). -/
theorem complete_voice (s : State) (pre : Nat) {st : Byte} (sc : Bool) (q : Nat) (data : List Byte)
    (hv : voiceStatus st) :
    complete .ok (storeMsg pre (voiceRec st sc q data) s) = afterVoice s pre st sc q data := by
  have := voiceRec_words sc q data hv
  simp [complete, storeMsg, afterVoice, this]
  simp [voiceRec, Nat.add_assoc]

/-- The commit of a meta record, as the statements say it (R460). -/
theorem complete_meta (s : State) (pre : Nat) {p : Nat} {sc : Bool} {q : Nat} (t : Byte) {bs : List Byte}
    (hf : vlqForm bs) (hq : q = p + sc.toNat) :
    complete .ok (storeMsg pre (metaRec p sc q t bs) s) = afterMeta s pre sc q t bs := by
  have := metaRec_words p sc q t hf
  simp [complete, storeMsg, afterMeta, this]
  simp [metaRec]
  congr 1
  omega

end Sys2Proof.Machine
end

