-- ==== Sys2Proof/Laws/Encode.lean ====
section
/-! SUPPORT. What the encode commands can answer: their checks, their output, and their hold (R502, R505, R515, R525, R614);
and what the latch image operand gives (R307). -/

namespace Sys2Proof.Machine

/-! ### Checks -/

theorem valueOk_iff {v : Word} : valueOk v = true ↔ wfValue v := decide_eq_true_iff

theorem statusOk_iff {v : Word} : statusOk v = true ↔ wfStatus v := by
  simp [statusOk, wfStatus]

theorem rangeOk_iff {s : State} {off n : Word} : rangeOk s off n = true ↔ wfRange s.cfg off n := by
  simp [rangeOk, wfRange]

theorem channelOk_iff {c : Word} : channelOk c = true ↔ wfChannel c := by
  simp [channelOk, wfChannel]

/-- The family table names exactly the seven bytes of R17. -/
theorem familyLen_isSome (f : Byte) :
    (familyLen f).isSome = decide (f.toNat ∈ [0x80, 0x90, 0xA0, 0xB0, 0xC0, 0xD0, 0xE0]) := by
  revert f
  decide

/-- CVENC's family check passes exactly for the seven whole words of R17 (R527). -/
theorem familyOperand_isSome (f : Word) : (familyOperand f).isSome = decide (wfFamily f) := by
  unfold familyOperand
  split
  · rename_i h
    rw [familyLen_isSome, BitVec.toNat_setWidth, Nat.mod_eq_of_lt (by omega)]
  · rename_i h
    rw [Option.isSome_none, eq_comm, decide_eq_false_iff_not]
    simp only [wfFamily, List.mem_cons, List.not_mem_nil, or_false]
    omega

theorem familyOperand_eq_none {f : Word} : familyOperand f = none ↔ ¬ wfFamily f := by
  rw [← Option.isNone_iff_eq_none, ← Option.not_isSome, familyOperand_isSome]
  simp

/-- The status of a family and a channel, and its length (R525, R17). -/
theorem familyOperand_eq_some {f c : Word} {n : Nat} {st : Byte} (h : familyOperand f = some n) (hc : wfChannel c)
    (hst : st.toNat = f.toNat + c.toNat) :
    (f ||| c).setWidth 8 = st ∧ n = voiceLen st ∧ voiceStatus st ∧
      f.toNat = st.toNat / 16 * 16 ∧ c.toNat = st.toNat % 16 := by
  have hf : wfFamily f := by
    by_contra hf
    rw [familyOperand_eq_none.2 hf] at h
    simp at h
  have h8 : f.toNat ≤ 0xFF := by
    simp only [wfFamily, List.mem_cons, List.not_mem_nil, or_false] at hf
    omega
  rw [familyOperand, if_pos h8] at h
  have key : ∀ (g : Byte) (k : Fin 16), (familyLen g).isSome →
      familyLen g = some (voiceLen (g + BitVec.ofNat 8 k)) ∧ g ||| BitVec.ofNat 8 k = g + BitVec.ofNat 8 k ∧
        voiceStatus (g + BitVec.ofNat 8 k) ∧ g.toNat = (g + BitVec.ofNat 8 k).toNat / 16 * 16 ∧
        (k : Nat) = (g + BitVec.ofNat 8 k).toNat % 16 := by
    decide
  have hc' : c.toNat < 16 := Nat.lt_succ_of_le hc
  have hk := key (f.setWidth 8) ⟨c.toNat, hc'⟩ (by rw [h]; rfl)
  have hst' : f.setWidth 8 + BitVec.ofNat 8 c.toNat = st := by
    apply BitVec.eq_of_toNat_eq
    have := st.isLt
    rw [BitVec.toNat_add, BitVec.toNat_setWidth, BitVec.toNat_ofNat, hst]
    omega
  have hor : (f ||| c).setWidth 8 = f.setWidth 8 ||| BitVec.ofNat 8 c.toNat := by
    rw [BitVec.setWidth_or]
    congr 1
  simp only [hst'] at hk
  refine ⟨by rw [hor, hk.2.1], ?_, hk.2.2.1, ?_, hk.2.2.2.2⟩
  · have := hk.1
    rw [h] at this
    exact Option.some.inj this
  · have := hk.2.2.2.1
    rwa [BitVec.toNat_setWidth, Nat.mod_eq_of_lt (by omega)] at this

/-- Two data bytes packed as R331 writes them. -/
theorem packData_toNat (x y : Byte) : (packData x y).toNat = x.toNat + y.toNat * 2 ^ 8 := by
  have := x.isLt
  have := y.isLt
  simp only [packData, BitVec.toNat_or, BitVec.toNat_shiftLeft, BitVec.toNat_setWidth]
  rw [Nat.or_comm, Nat.mod_eq_of_lt (by omega : x.toNat < 2 ^ 32), Nat.mod_eq_of_lt (by omega : y.toNat < 2 ^ 32),
    Nat.mod_eq_of_lt (by rw [Nat.shiftLeft_eq]; omega : y.toNat <<< 8 < 2 ^ 32), or_shift (by omega)]

/-- The data bytes of a word, as numbers (R306). -/
theorem packedData_eq (n : Nat) (w : Word) :
    packedData n w =
      if n = 2 then [BitVec.ofNat 8 w.toNat, BitVec.ofNat 8 (w.toNat / 2 ^ 8)] else [BitVec.ofNat 8 w.toNat] := by
  have h : ∀ k, w.extractLsb' k 8 = BitVec.ofNat 8 (w.toNat / 2 ^ k) := by
    intro k
    apply BitVec.eq_of_toNat_eq
    rw [BitVec.extractLsb'_toNat, BitVec.toNat_ofNat, Nat.shiftRight_eq_div_pow]
  simp [packedData, h]

/-! ### Output -/

/-- R502 as the statements say it. -/
theorem msgBytes_eq (ers : Latch) (st : Byte) (data : List Byte) :
    msgBytes ers st data = { bytes := compressed ers st data, ers := some st } := by
  unfold msgBytes compressed
  split
  · rename_i h
    rw [h]
  · rfl

theorem vlqencOut_eq_ok {s : State} {o : EncOut} :
    vlqencOut s = .ok o ↔ wfValue s.arg0 ∧ o = { bytes := vlqBytes s.arg0.toNat, ers := s.ers } := by
  simp only [vlqencOut, bind_eq_ok, check_eq_ok, valueOk_iff, Attempt.ok.injEq, exists_const]
  exact and_congr_right fun _ => eq_comm

theorem messageOut_eq_ok {s : State} {o : EncOut} :
    messageOut s = .ok o ↔
      wfStatus s.arg1 ∧ wfRange s.cfg s.arg2 s.arg3 ∧
        ∃ data, data.length = s.arg3.toNat ∧ ebufAt s s.arg2.toNat data ∧
          o = msgBytes s.ers (s.arg1.setWidth 8) data := by
  simp only [messageOut, bind_eq_ok, check_eq_ok, statusOk_iff, rangeOk_iff, ebufBytes_eq_ok, Attempt.ok.injEq,
    exists_const]
  constructor
  · rintro ⟨h1, h2, data, ⟨h3, h4⟩, h5⟩
    exact ⟨h1, h2, data, h3, h4, h5.symm⟩
  · rintro ⟨h1, h2, data, h3, h4, h5⟩
    exact ⟨h1, h2, data, ⟨h3, h4⟩, h5.symm⟩

theorem evtencOut_eq_ok {s : State} {o : EncOut} :
    evtencOut s = .ok o ↔ wfValue s.arg0 ∧ ∃ m, messageOut s = .ok m ∧ o = withDelta s.arg0 m := by
  simp only [evtencOut, bind_eq_ok, check_eq_ok, valueOk_iff, Attempt.ok.injEq, exists_const]
  constructor
  · rintro ⟨h1, m, h2, h3⟩
    exact ⟨h1, m, h2, h3.symm⟩
  · rintro ⟨h1, m, h2, h3⟩
    exact ⟨h1, m, h2, h3.symm⟩

theorem cvencOut_eq_ok {s : State} {o : EncOut} :
    cvencOut s = .ok o ↔
      ∃ n, familyOperand s.arg1 = some n ∧ wfChannel s.arg2 ∧ wfValue s.arg0 ∧
        o = withDelta s.arg0 (msgBytes s.ers ((s.arg1 ||| s.arg2).setWidth 8) (packedData n s.arg3)) := by
  unfold cvencOut
  cases familyOperand s.arg1 with
  | none => simp
  | some n =>
    simp only [bind_eq_ok, check_eq_ok, valueOk_iff, channelOk_iff, Attempt.ok.injEq, exists_const, Option.some.injEq]
    constructor
    · rintro ⟨h1, h2, h3⟩
      exact ⟨n, rfl, h1, h2, h3.symm⟩
    · rintro ⟨_, rfl, h1, h2, h3⟩
      exact ⟨h1, h2, h3.symm⟩

/-! ### Failed checks -/

theorem check_eq_false_raise {b : Bool} (h : b ≠ true) : check b = .raise .invalidArgument := by
  cases b
  · rfl
  · exact absurd rfl h

theorem vlqencOut_bad {s : State} (h : ¬ wfValue s.arg0) : vlqencOut s = .raise .invalidArgument := by
  rw [vlqencOut, check_eq_false_raise (by rwa [ne_eq, valueOk_iff]), bind_raise_left]

theorem messageOut_bad {s : State} (h : ¬ (wfStatus s.arg1 ∧ wfRange s.cfg s.arg2 s.arg3)) :
    messageOut s = .raise .invalidArgument := by
  unfold messageOut
  by_cases h1 : wfStatus s.arg1
  · have h2 : ¬ wfRange s.cfg s.arg2 s.arg3 := fun h2 => h ⟨h1, h2⟩
    rw [statusOk_iff.2 h1, check_true, bind_ok_left, check_eq_false_raise (by rwa [ne_eq, rangeOk_iff]),
      bind_raise_left]
  · rw [check_eq_false_raise (by rwa [ne_eq, statusOk_iff]), bind_raise_left]

theorem evtencOut_bad {s : State} (h : ¬ (wfValue s.arg0 ∧ wfStatus s.arg1 ∧ wfRange s.cfg s.arg2 s.arg3)) :
    evtencOut s = .raise .invalidArgument := by
  unfold evtencOut
  by_cases h1 : wfValue s.arg0
  · rw [valueOk_iff.2 h1, check_true, bind_ok_left, messageOut_bad fun h2 => h ⟨h1, h2⟩, bind_raise_left]
  · rw [check_eq_false_raise (by rwa [ne_eq, valueOk_iff]), bind_raise_left]

theorem cvencOut_bad {s : State} (h : ¬ (wfFamily s.arg1 ∧ wfChannel s.arg2 ∧ wfValue s.arg0)) :
    cvencOut s = .raise .invalidArgument := by
  unfold cvencOut
  cases hf : familyOperand s.arg1 with
  | none => rfl
  | some n =>
    have h0 : wfFamily s.arg1 := by
      by_contra h0
      rw [familyOperand_eq_none.2 h0] at hf
      simp at hf
    by_cases h1 : wfChannel s.arg2
    · have h2 : ¬ wfValue s.arg0 := fun h2 => h ⟨h0, h1, h2⟩
      simp only [channelOk_iff.2 h1, check_true, bind_ok_left]
      rw [check_eq_false_raise (by rwa [ne_eq, valueOk_iff]), bind_raise_left]
    · simp only []
      rw [check_eq_false_raise (by rwa [ne_eq, channelOk_iff]), bind_raise_left]

/-! ### The commands -/

/-- What an encode command is: its output, finished by a commit or a hold. -/
theorem exec_heldInstr (c : EncCmd) (s : State) :
    exec (heldInstr c) s = finish (encodeOf c s) (commitOrHold c) s := by
  cases c <;> rfl

/-- An encode command raises nothing but InvalidArgument (R600). -/
theorem encodeOf_raise {c : EncCmd} {s : State} {e : ErrCode} (h : encodeOf c s = .raise e) :
    e = .invalidArgument := by
  have hm : ∀ e, messageOut s = .raise e → e = .invalidArgument := by
    intro e h
    simp only [messageOut, bind_eq_raise, check_eq_raise, ebufBytes_ne_raise, reduceCtorEq, and_false, exists_const,
      or_false] at h
    rcases h with h | ⟨_, _, h⟩
    · exact h.2
    · exact h.2
  cases c with
  | vlqenc =>
    simp only [encodeOf, vlqencOut, bind_eq_raise, check_eq_raise, reduceCtorEq, and_false, exists_const, or_false] at h
    exact h.2
  | msgenc => exact hm e h
  | evtenc =>
    simp only [encodeOf, evtencOut, bind_eq_raise, check_eq_raise, reduceCtorEq, and_false] at h
    rcases h with h | ⟨_, _, h | ⟨_, h⟩⟩
    · exact h.2
    · exact hm e h
    · exact h.elim
  | cvenc =>
    simp only [encodeOf, cvencOut] at h
    split at h
    · simpa [eq_comm] using h
    · simp only [bind_eq_raise, check_eq_raise, reduceCtorEq, and_false, exists_const, or_false] at h
      rcases h with h | ⟨_, _, h⟩
      · exact h.2
      · exact h.2

/-- An encode command's commit, as the statements say it. -/
theorem commitEncode_eq (o : EncOut) (s : State) : commitEncode o s = afterAppend s o.bytes o.ers := by
  have h : s.outCnt + BitVec.ofNat 32 o.bytes.length = BitVec.ofNat 32 (s.outCnt.toNat + o.bytes.length) := by
    apply BitVec.eq_of_toNat_eq
    simp [BitVec.toNat_add]
  simp [commitEncode, afterAppend, complete, h]

/-! ### Latch images -/

/-- An image gives a latch exactly when it is the image of a legal latch (R307). -/
theorem latchOfImage_eq_some {img : Word} {l : Latch} :
    latchOfImage img = some l ↔ latchOk l ∧ img.toNat = l.elim 0 (fun v => 0x100 + v.toNat) := by
  have hb : ∀ k, img.getLsbD k = decide (img.toNat / 2 ^ k % 2 = 1) := by
    intro k
    rw [BitVec.getLsbD, Nat.testBit_eq_decide_div_mod_eq]
  have hhi : img.extractLsb' 9 23 ≠ 0 ↔ img.toNat / 2 ^ 9 ≠ 0 := by
    rw [ne_eq, ← BitVec.toNat_inj, BitVec.extractLsb'_toNat, Nat.shiftRight_eq_div_pow]
    have := img.isLt
    rw [Nat.mod_eq_of_lt (by omega)]
    rfl
  have hlo : (img.extractLsb' 0 8).toNat = img.toNat % 2 ^ 8 := by
    rw [BitVec.extractLsb'_toNat, Nat.shiftRight_zero]
  have hlo0 : img.extractLsb' 0 8 ≠ 0 ↔ img.toNat % 2 ^ 8 ≠ 0 := by
    rw [ne_eq, ← BitVec.toNat_inj, hlo]
    rfl
  unfold latchOfImage
  rw [hb 8, hb 7]
  split
  · rename_i h
    rw [hhi] at h
    simp only [reduceCtorEq, false_iff, not_and]
    intro _ he
    cases l with
    | none => simp at he; omega
    | some v =>
      have := v.isLt
      simp at he
      omega
  · rename_i h
    rw [hhi, not_not] at h
    split
    · rename_i h2
      simp only [Bool.and_eq_true, decide_eq_true_eq, Bool.not_eq_true', decide_eq_false_iff_not] at h2
      simp only [reduceCtorEq, false_iff, not_and]
      intro hl he
      cases l with
      | none => simp at he; omega
      | some v =>
        have := hl v rfl
        have := v.isLt
        simp at he
        omega
    · rename_i h2
      simp only [Bool.and_eq_true, decide_eq_true_eq, Bool.not_eq_true', decide_eq_false_iff_not] at h2
      split
      · rename_i h3
        simp only [Bool.and_eq_true, decide_eq_true_eq, Bool.not_eq_true', decide_eq_false_iff_not, hlo0] at h3
        simp only [reduceCtorEq, false_iff, not_and]
        intro hl he
        cases l with
        | none => simp at he; omega
        | some v =>
          have := hl v rfl
          have := v.isLt
          simp at he
          omega
      · rename_i h3
        simp only [Bool.and_eq_true, decide_eq_true_eq, Bool.not_eq_true', decide_eq_false_iff_not, hlo0] at h3
        split
        · rename_i h4
          rw [decide_eq_true_eq] at h4
          rw [Option.some.injEq]
          constructor
          · rintro rfl
            refine ⟨?_, ?_⟩
            · intro v hv
              obtain rfl := Option.some.inj hv
              rw [hlo]
              omega
            · simp only [Option.elim, hlo]
              omega
          · rintro ⟨hl, he⟩
            cases l with
            | none => simp at he; omega
            | some v =>
              have := v.isLt
              congr 1
              apply BitVec.eq_of_toNat_eq
              simp only [Option.elim] at he
              rw [hlo]
              omega
        · rename_i h4
          rw [decide_eq_true_eq] at h4
          rw [Option.some.injEq]
          constructor
          · rintro rfl
            refine ⟨nofun, ?_⟩
            simp only [Option.elim]
            omega
          · rintro ⟨hl, he⟩
            cases l with
            | none => rfl
            | some v =>
              have := v.isLt
              simp only [Option.elim] at he
              omega

/-- The register image of a latch as a number (R110). -/
theorem latchImage_toNat (l : Latch) : (latchImage l).toNat = l.elim 0 (fun v => 0x100 + v.toNat) := by
  cases l with
  | none => rfl
  | some v =>
    have := v.isLt
    simp only [latchImage, Option.elim, BitVec.toNat_or, BitVec.toNat_setWidth]
    rw [Nat.mod_eq_of_lt (by omega), show BitVec.toNat (0x100 : Word) = 1 <<< 8 by decide, Nat.or_comm,
      or_shift (by omega)]
    omega

end Sys2Proof.Machine
end

