-- ==== Sys2Proof/Laws/Exec.lean ====
section
/-! SUPPORT. Everything a command can do, said once: which errors each part raises (R600) and what each command commits. -/

namespace Sys2Proof.Machine

/-! ### What each part can raise -/

/-- `vlq_read` raises its exhaustion error or VlqOverflow (R401). -/
theorem vlqRead_raise {s : State} {e e' : ErrCode} {p : Nat} (h : vlqRead s e p = .raise e') :
    e' = e ∨ e' = .vlqOverflow := by
  obtain ⟨_, _, _, h | h⟩ := vlqLoop_eq_raise.1 h
  · exact .inl h.2.2
  · exact .inr h.2

/-- The meta case raises NeedMoreData or VlqOverflow (R464, R408). -/
theorem metaBody_raise {s : State} {p q : Nat} {sc : Bool} {e : ErrCode} (h : metaBody s p sc q = .raise e) :
    e = .needMoreData ∨ e = .vlqOverflow := by
  simp only [metaBody, bind_eq_raise, nextByte_eq_raise] at h
  rcases h with h | ⟨_, _, h | ⟨_, _, h⟩⟩
  · exact .inl h.2
  · exact vlqRead_raise h
  · split at h
    · exact .inl (Attempt.raise.inj h).symm
    · simp at h

/-- The channel-voice case raises NeedMoreData or UnknownStatus (R462, R463). -/
theorem voiceBody_raise {s : State} {st : Byte} {sc : Bool} {q : Nat} {e : ErrCode}
    (h : voiceBody s st sc q = .raise e) : e = .needMoreData ∨ e = .unknownStatus := by
  unfold voiceBody at h
  split at h
  · exact .inr (Attempt.raise.inj h).symm
  · split at h
    · exact .inl (Attempt.raise.inj h).symm
    · simp only [bind_eq_raise, inByte_ne_raise, false_or, reduceCtorEq, and_false, exists_const, or_false] at h
      obtain ⟨_, _, h⟩ := h
      split at h
      · exact absurd h inByte_ne_raise
      · simp at h

/-- The parser raises the four codes of R600. -/
theorem msgParse_raise {s : State} {p : Nat} {e : ErrCode} (h : msgParse s p = .raise e) : e ∈ canRaise .msgdec := by
  simp only [msgParse, bind_eq_raise, nextByte_eq_raise] at h
  have body : ∀ st sc q, msgBody s p st sc q = .raise e → e ∈ canRaise .msgdec := by
    intro st sc q h
    unfold msgBody at h
    split at h
    · rcases metaBody_raise h with rfl | rfl <;> simp [canRaise]
    · rcases voiceBody_raise h with rfl | rfl <;> simp [canRaise]
  rcases h with ⟨_, rfl⟩ | ⟨_, _, h⟩
  · simp [canRaise]
  · split at h
    · exact body _ _ _ h
    · split at h
      · rw [← Attempt.raise.inj h]
        simp [canRaise]
      · exact body _ _ _ h

/-- An event raises what its delta and its message raise (R481). -/
theorem evtParse_raise {s : State} {p : Nat} {e : ErrCode} (h : evtParse s p = .raise e) : e ∈ canRaise .evtdec := by
  simp only [evtParse, bind_eq_raise, reduceCtorEq, and_false] at h
  rcases h with h | ⟨_, _, h | ⟨_, h⟩⟩
  · rcases vlqRead_raise h with rfl | rfl <;> simp [canRaise]
  · exact msgParse_raise h
  · exact h.elim

/-- A latch image that is not legal raises InvalidArgument; a legal one gives its latch (R307). -/
theorem latchOperand_eq_ok {img : Word} {l : Latch} : latchOperand img = .ok l ↔ latchOfImage img = some l := by
  unfold latchOperand
  cases latchOfImage img <;> simp

theorem latchOperand_eq_raise {img : Word} {e : ErrCode} :
    latchOperand img = .raise e ↔ latchOfImage img = none ∧ e = .invalidArgument := by
  unfold latchOperand
  cases latchOfImage img <;> simp [eq_comm]

/-! ### What each part reads -/

/-- `vlq_read` reads IN_LEN and IBUF alone (R205). -/
theorem vlqLoop_congr {s u : State} (hl : u.inLen = s.inLen) (hm : u.mem = s.mem) (e : ErrCode) (fuel p k acc : Nat) :
    vlqLoop u e fuel p k acc = vlqLoop s e fuel p k acc := by
  induction fuel generalizing p k acc with
  | zero => rfl
  | succ fuel ih =>
    rw [vlqLoop_succ, vlqLoop_succ]
    simp only [ih, nextByte, inByte, ibufByte, hl, hm]

/-- The parser reads IN_LEN, IBUF and DRS alone (R451). -/
theorem msgParse_congr {s u : State} (hl : u.inLen = s.inLen) (hm : u.mem = s.mem) (hd : u.drs = s.drs) (p : Nat) :
    msgParse u p = msgParse s p := by
  unfold msgParse msgBody metaBody voiceBody vlqRead
  simp only [vlqLoop_congr hl hm, nextByte, inByte, ibufByte, hl, hm, hd]

theorem evtParse_congr {s u : State} (hl : u.inLen = s.inLen) (hm : u.mem = s.mem) (hd : u.drs = s.drs) (p : Nat) :
    evtParse u p = evtParse s p := by
  unfold evtParse vlqRead
  simp only [vlqLoop_congr hl hm, msgParse_congr hl hm hd]

/-- The data bytes come from EBUF alone (R206). -/
theorem ebufBytes_congr {s u : State} (hm : u.mem = s.mem) (off n : Nat) : ebufBytes u off n = ebufBytes s off n := by
  induction n generalizing off with
  | zero => rfl
  | succ n ih => simp only [ebufBytes, ebufByte, hm, ih]

theorem messageOut_congr {s u : State} (hm : u.mem = s.mem) (hc : u.cfg = s.cfg) (he : u.ers = s.ers)
    (h1 : u.arg1 = s.arg1) (h2 : u.arg2 = s.arg2) (h3 : u.arg3 = s.arg3) : messageOut u = messageOut s := by
  simp only [messageOut, rangeOk, ebufBytes_congr hm, hc, he, h1, h2, h3]

/-- An encode command's output depends on the ARG registers, ERS, EBUF and its size alone (R507). -/
theorem encodeOf_congr {s u : State} (hm : u.mem = s.mem) (hc : u.cfg = s.cfg) (he : u.ers = s.ers)
    (h0 : u.arg0 = s.arg0) (h1 : u.arg1 = s.arg1) (h2 : u.arg2 = s.arg2) (h3 : u.arg3 = s.arg3) (c : EncCmd) :
    encodeOf c u = encodeOf c s := by
  have := messageOut_congr hm hc he h1 h2 h3
  cases c with
  | vlqenc => simp only [encodeOf, vlqencOut, h0, he]
  | msgenc => exact this
  | evtenc => simp only [encodeOf, evtencOut, h0, this]
  | cvenc => simp only [encodeOf, cvencOut, h0, h1, h2, h3, he]

/-! ### What each part refuses -/

/-- A byte is refused exactly when it is below IN_LEN and not written (R204, I-1). -/
theorem nextByte_eq_refuse {s : State} {e : ErrCode} {p : Nat} {r : Refusal} :
    nextByte s e p = .refuse r ↔ p < s.inLen.toNat ∧ ibufByte s p = none ∧ r = .unwrittenIbufByte p := by
  unfold nextByte inByte
  split
  · simp
    omega
  · cases ibufByte s p <;> simp [eq_comm]
    omega

/-- A written byte before the first unwritten one. -/
theorem firstUnwritten_succ {byte : Nat → Option Byte} {p j : Nat} (hp : byte p ≠ none)
    (h : firstUnwritten byte (p + 1) j) : firstUnwritten byte p j := by
  obtain ⟨hj, hn, hb⟩ := h
  refine ⟨by omega, hn, fun k hk hkj => ?_⟩
  rcases Nat.eq_or_lt_of_le hk with rfl | hk
  · exact hp
  · exact hb k hk hkj

/-- Bytes that stand in IBUF before the first unwritten one. -/
theorem firstUnwritten_append {s : State} {p j : Nat} {bs : List Byte} (h : ibufAt s p bs)
    (hj : firstUnwritten (ibufByte s) (p + bs.length) j) : firstUnwritten (ibufByte s) p j := by
  induction bs generalizing p with
  | nil => exact hj
  | cons b bs ih =>
    obtain ⟨-, hb, hat⟩ := ibufAt_cons.1 h
    refine firstUnwritten_succ (by simp [hb]) (ih hat ?_)
    rwa [Nat.add_assoc, Nat.add_comm 1]

/-- `vlq_read` is refused at the first unwritten byte from its offset on (R204, I-1). -/
theorem vlqLoop_refuse {s : State} {e : ErrCode} {fuel p k acc : Nat} {r : Refusal}
    (h : vlqLoop s e fuel p k acc = .refuse r) :
    ∃ j, r = .unwrittenIbufByte j ∧ j < s.inLen.toNat ∧ firstUnwritten (ibufByte s) p j := by
  induction fuel generalizing p k acc with
  | zero => simp [vlqLoop] at h
  | succ fuel ih =>
    rw [vlqLoop_succ, bind_eq_refuse] at h
    rcases h with h | ⟨b, hb, h⟩
    · obtain ⟨hl, hn, rfl⟩ := nextByte_eq_refuse.1 h
      exact ⟨p, rfl, hl, Nat.le_refl p, hn, fun k hk hkp => absurd hkp (by omega)⟩
    · split at h
      · obtain ⟨j, hj, hl, hf⟩ := ih h
        exact ⟨j, hj, hl, firstUnwritten_succ (by simp [(nextByte_eq_ok.1 hb).2]) hf⟩
      · simp at h

/-- A message's data are refused at the first unwritten byte from their offset on (R204, I-1). -/
theorem msgBody_refuse {s : State} {p q : Nat} {st : Byte} {sc : Bool} {r : Refusal}
    (h : msgBody s p st sc q = .refuse r) :
    ∃ j, r = .unwrittenIbufByte j ∧ j < s.inLen.toNat ∧ firstUnwritten (ibufByte s) q j := by
  have here : ∀ {i}, i < s.inLen.toNat → inByte s i = .refuse r →
      r = .unwrittenIbufByte i ∧ i < s.inLen.toNat ∧ firstUnwritten (ibufByte s) i i := by
    intro i hi h
    obtain ⟨hl, hn, rfl⟩ := (nextByte_eq_refuse (s := s) (e := .ok) (p := i) (r := r)).1
      (by rwa [nextByte, if_neg (by omega)])
    exact ⟨rfl, hl, Nat.le_refl i, hn, fun k hk hki => absurd hki (by omega)⟩
  unfold msgBody at h
  split at h
  · simp only [metaBody, bind_eq_refuse] at h
    rcases h with h | ⟨t, ht, h | ⟨_, _, h⟩⟩
    · have hq := nextByte_eq_refuse.1 h
      exact ⟨q, here hq.1 (by rw [inByte, hq.2.1, hq.2.2])⟩
    · obtain ⟨j, hj, hl, hf⟩ := vlqLoop_refuse h
      exact ⟨j, hj, hl, firstUnwritten_succ (by simp [(nextByte_eq_ok.1 ht).2]) hf⟩
    · split at h <;> simp at h
  · unfold voiceBody at h
    split at h
    · simp at h
    · rename_i n hn
      have hn : 1 ≤ n := by
        rw [(familyLen_eq_some.1 hn).2]
        unfold voiceLen
        split <;> decide
      split at h
      · simp at h
      · simp only [bind_eq_refuse, reduceCtorEq, and_false, exists_false, or_false] at h
        rcases h with h | ⟨d0, h0, h⟩
        · exact ⟨q, here (by omega) h⟩
        · split at h
          · obtain ⟨hr, hl, hf⟩ := here (by omega) h
            exact ⟨q + 1, hr, hl, firstUnwritten_succ (by simp [inByte_eq_ok.1 h0]) hf⟩
          · simp at h

/-- `msg_parse` is refused at the first unwritten byte from its offset on (R204, I-1). -/
theorem msgParse_refuse {s : State} {p : Nat} {r : Refusal} (h : msgParse s p = .refuse r) :
    ∃ j, r = .unwrittenIbufByte j ∧ j < s.inLen.toNat ∧ firstUnwritten (ibufByte s) p j := by
  simp only [msgParse, bind_eq_refuse] at h
  rcases h with h | ⟨b, hb, h⟩
  · obtain ⟨hl, hn, rfl⟩ := nextByte_eq_refuse.1 h
    exact ⟨p, rfl, hl, Nat.le_refl p, hn, fun k hk hkp => absurd hkp (by omega)⟩
  · split at h
    · obtain ⟨j, hj, hl, hf⟩ := msgBody_refuse h
      exact ⟨j, hj, hl, firstUnwritten_succ (by simp [(nextByte_eq_ok.1 hb).2]) hf⟩
    · split at h
      · simp at h
      · exact msgBody_refuse h

/-- EBUF data are refused at the first unwritten byte from their offset on (R204, I-1). -/
theorem ebufBytes_refuse {s : State} {off n : Nat} {r : Refusal} (h : ebufBytes s off n = .refuse r) :
    ∃ j, r = .unwrittenEbufByte j ∧ j < off + n ∧ firstUnwritten (ebufByte s) off j := by
  induction n generalizing off with
  | zero => simp [ebufBytes] at h
  | succ n ih =>
    simp only [ebufBytes] at h
    cases hb : ebufByte s off with
    | none =>
      rw [hb] at h
      exact ⟨off, (Attempt.refuse.inj h).symm, by omega, Nat.le_refl off, hb, fun k hk hko => absurd hko (by omega)⟩
    | some b =>
      rw [hb] at h
      simp only [bind_eq_refuse, reduceCtorEq, and_false, exists_false, or_false] at h
      obtain ⟨j, hj, hl, hf⟩ := ih h
      exact ⟨j, hj, by omega, firstUnwritten_succ (by simp [hb]) hf⟩

/-! ### The commands -/

/-- No command raises the code OK (R600). -/
theorem ok_not_raised (i : Instr) : ErrCode.ok ∉ canRaise i := by
  cases i <;> decide

/-- Everything a command that answers a next state can have done: completed with one of its errors and changed nothing
else (R612, R617), or committed its result (R616), or, an encode command, be held (R614). -/
theorem exec_next {i : Instr} {s t : State} (h : exec i s = .next t) :
    (∃ e ∈ canRaise i, t = complete e s) ∨
    (∃ c o, i = heldInstr c ∧ encodeOf c s = .ok o ∧ t = commitOrHold c o s) ∨
    (i = .vlqdec ∧ ∃ r, vlqRead s .truncatedInput s.arg0.toNat = .ok r ∧ t = commitVlqdec r s) ∨
    (i = .msgdec ∧ ∃ r, msgParse s s.arg0.toNat = .ok r ∧ t = commitMsg r s) ∨
    (i = .evtdec ∧ ∃ r, evtParse s s.arg0.toNat = .ok r ∧ t = commitEvt r s) ∨
    (i = .dclr ∧ t = commitDrs none s) ∨ (i = .eclr ∧ t = commitErs none s) ∨
    (i = .ldrs ∧ ∃ l, latchOfImage s.arg1 = some l ∧ t = commitDrs l s) ∨
    (i = .lers ∧ ∃ l, latchOfImage s.arg1 = some l ∧ t = commitErs l s) := by
  have enc : ∀ c, exec (heldInstr c) s = .next t → canRaise (heldInstr c) = [.invalidArgument] →
      (∃ e ∈ canRaise (heldInstr c), t = complete e s) ∨ (∃ o, encodeOf c s = .ok o ∧ t = commitOrHold c o s) := by
    intro c h hc
    rw [exec_heldInstr] at h
    rcases finish_next.1 h with ⟨o, ho, rfl⟩ | ⟨e, he, rfl⟩
    · exact .inr ⟨o, ho, rfl⟩
    · exact .inl ⟨e, by rw [hc, encodeOf_raise he]; simp, rfl⟩
  cases i with
  | vlqdec =>
    rcases finish_next.1 h with ⟨r, hr, rfl⟩ | ⟨e, he, rfl⟩
    · simp [hr]
    · exact .inl ⟨e, by rcases vlqRead_raise he with rfl | rfl <;> simp [canRaise], rfl⟩
  | msgdec =>
    rcases finish_next.1 h with ⟨r, hr, rfl⟩ | ⟨e, he, rfl⟩
    · simp [hr]
    · exact .inl ⟨e, msgParse_raise he, rfl⟩
  | evtdec =>
    rcases finish_next.1 h with ⟨r, hr, rfl⟩ | ⟨e, he, rfl⟩
    · simp [hr]
    · exact .inl ⟨e, evtParse_raise he, rfl⟩
  | vlqenc => exact (enc .vlqenc h rfl).imp_right fun ⟨o, ho, ht⟩ => .inl ⟨_, o, rfl, ho, ht⟩
  | msgenc => exact (enc .msgenc h rfl).imp_right fun ⟨o, ho, ht⟩ => .inl ⟨_, o, rfl, ho, ht⟩
  | evtenc => exact (enc .evtenc h rfl).imp_right fun ⟨o, ho, ht⟩ => .inl ⟨_, o, rfl, ho, ht⟩
  | cvenc => exact (enc .cvenc h rfl).imp_right fun ⟨o, ho, ht⟩ => .inl ⟨_, o, rfl, ho, ht⟩
  | dclr => simp [← Host.Outcome.next.inj h]
  | eclr => simp [← Host.Outcome.next.inj h]
  | ldrs =>
    rcases finish_next.1 h with ⟨l, hl, rfl⟩ | ⟨e, he, rfl⟩
    · simp [latchOperand_eq_ok.1 hl]
    · exact .inl ⟨e, by simp [canRaise, (latchOperand_eq_raise.1 he).2], rfl⟩
  | lers =>
    rcases finish_next.1 h with ⟨l, hl, rfl⟩ | ⟨e, he, rfl⟩
    · simp [latchOperand_eq_ok.1 hl]
    · exact .inl ⟨e, by simp [canRaise, (latchOperand_eq_raise.1 he).2], rfl⟩

/-- No command writes CMD, an ARG register, IN_LEN, a buffer or anything outside the block (R106, R201, R202). -/
theorem exec_frame {i : Instr} {s t : State} (h : exec i s = .next t) :
    t.cfg = s.cfg ∧ t.cmd = s.cmd ∧ (t.arg0 = s.arg0 ∧ t.arg1 = s.arg1 ∧ t.arg2 = s.arg2 ∧ t.arg3 = s.arg3) ∧
    t.inLen = s.inLen ∧ t.mem = s.mem ∧
    (t.sinkReady = s.sinkReady ∧ t.sinkInput = s.sinkInput ∧ t.hostMoves = s.hostMoves ∧ t.hostData = s.hostData ∧
      t.epoch = s.epoch) := by
  rcases exec_next h with ⟨e, _, rfl⟩ | ⟨c, o, _, _, rfl⟩ | ⟨_, r, _, rfl⟩ | ⟨_, r, _, rfl⟩ | ⟨_, r, _, rfl⟩ |
    ⟨_, rfl⟩ | ⟨_, rfl⟩ | ⟨_, l, _, rfl⟩ | ⟨_, l, _, rfl⟩
  · simp
  · rcases commitOrHold_cases c o s with ⟨_, h⟩ | ⟨_, h⟩ <;> rw [h] <;> simp
  · simp
  · simp
  · simp
  · simp
  · simp
  · simp
  · simp

end Sys2Proof.Machine
end

