-- ==== Sys2Proof/Laws/Step.lean ====
section
/-! SUPPORT. What a step can do: the command word's two directions, the sink's draw, the host's accesses, and the step's
cases. -/

namespace Sys2Proof.Machine

/-! ### The command word -/

theorem encode_toNat (i : Instr) : (encode i).toNat = (opcode i).toNat := by
  cases i <;> decide

/-- The opcode table read backwards (R301). -/
theorem commandOfOp_eq_some {op : BitVec 4} {i : Instr} : commandOfOp op = some i ↔ op = opcode i := by
  revert op
  cases i <;> decide

theorem opField_toNat (w : Word) : (opField w).toNat = w.toNat % 16 := by
  rw [opField, BitVec.extractLsb'_toNat, Nat.shiftRight_zero]

theorem zField_toNat (w : Word) : (zField w).toNat = w.toNat / 16 := by
  have := w.isLt
  rw [zField, BitVec.extractLsb'_toNat, Nat.shiftRight_eq_div_pow, Nat.mod_eq_of_lt (by omega)]

theorem zField_eq_zero {w : Word} : zField w = 0 ↔ w.toNat / 16 = 0 := by
  rw [← BitVec.toNat_inj, zField_toNat]
  rfl

/-- A word that gives a command has the command's number (R301). -/
theorem toNat_of_decode {w : Word} {i : Instr} (h : decode w = .command i) : w.toNat = (opcode i).toNat := by
  unfold decode at h
  split at h
  · simp at h
  · rename_i hz
    rw [not_not, zField_eq_zero] at hz
    split at h
    · rename_i j hj
      obtain rfl : j = i := by simpa using h
      rw [← commandOfOp_eq_some.1 hj, opField_toNat]
      omega
    · simp at h

theorem decode_encode (i : Instr) : decode (encode i) = .command i := by
  cases i <;> decide

/-- A command with the operands a form lists is that form (R330). -/
@[simp] theorem formOf_asm (a : Asm) : formOf (asmInstr a) (asmArgs a) = some a := by
  cases a <;> rfl

/-! ### The registers' images -/

/-- STATUS as R120 lays it out. -/
theorem statusWord_eq (s : State) :
    statusWord s =
      BitVec.ofNat 32 (errNumber s.err + s.done.toNat * 2 ^ 8 + s.errSeen.toNat * 2 ^ 9
        + s.held.isSome.toNat * 2 ^ 10 + s.sinkReady.toNat * 2 ^ 11) := by
  unfold statusWord busy
  generalize s.done = a
  generalize s.errSeen = b
  generalize s.held.isSome = c
  generalize s.sinkReady = d
  cases s.err <;> revert a b c d <;> decide

/-- A latch's image as R110 lays it out. -/
theorem latchImage_eq (l : Latch) : latchImage l = BitVec.ofNat 32 (l.elim 0 fun v => 0x100 + v.toNat) := by
  rw [← latchImage_toNat, BitVec.ofNat_toNat, BitVec.setWidth_eq]

/-! ### The sink's draw -/

/-- The sink's draw changes nothing but the level and the levels still to come. -/
theorem drawSink_eq (s : State) : ∃ b l, drawSink s = { s with sinkReady := b, sinkInput := l } := by
  unfold drawSink
  split
  · exact ⟨s.sinkReady, s.sinkInput, rfl⟩
  · exact ⟨_, _, rfl⟩

@[simp] theorem drawSink_hostMoves (s : State) : (drawSink s).hostMoves = s.hostMoves := by
  unfold drawSink
  split <;> rfl

@[simp] theorem drawSink_held (s : State) : (drawSink s).held = s.held := by
  unfold drawSink
  split <;> rfl

@[simp] theorem drawSink_cfg (s : State) : (drawSink s).cfg = s.cfg := by
  unfold drawSink
  split <;> rfl

@[simp] theorem drawSink_mem (s : State) : (drawSink s).mem = s.mem := by
  unfold drawSink
  split <;> rfl

@[simp] theorem drawSink_cmd (s : State) : (drawSink s).cmd = s.cmd := by
  unfold drawSink
  split <;> rfl

@[simp] theorem drawSink_out (s : State) : (drawSink s).out = s.out := by
  unfold drawSink
  split <;> rfl

@[simp] theorem drawSink_epoch (s : State) : (drawSink s).epoch = s.epoch := by
  unfold drawSink
  split <;> rfl

/-- Drawing `k` levels leaves the last level drawn and the levels after it. -/
theorem drawSink_iterate (k : Nat) (s : State) :
    drawSink^[k] s =
      { s with
        sinkReady := (s.sinkInput.take k).getLast?.getD s.sinkReady
        sinkInput := s.sinkInput.drop k } := by
  induction k generalizing s with
  | zero => rfl
  | succ k ih =>
    rw [Function.iterate_succ_apply, ih]
    cases h : s.sinkInput with
    | nil => simp [drawSink, h]
    | cons b l =>
      simp only [drawSink, h, List.take_succ_cons, List.drop_succ_cons, List.getLast?_cons, Option.getD_some]

@[simp] theorem drawSink_iterate_held (k : Nat) (s : State) : (drawSink^[k] s).held = s.held := by
  rw [drawSink_iterate]

@[simp] theorem drawSink_iterate_cfg (k : Nat) (s : State) : (drawSink^[k] s).cfg = s.cfg := by
  rw [drawSink_iterate]

/-! ### The cases of a step -/

/-- A write with no command held reaches the bus (R219(b), R219(d)). -/
theorem step_write {s : State} {w : Width} {a : Addr} {d : Word} {rest : List HostMove} (hh : s.held = none)
    (hm : s.hostMoves = .write w a d :: rest) :
    step s = hostWrite w a d { drawSink s with hostMoves := rest } := by
  simp [step, turn, blockTurn, hostTurn, hm, hh, busy]

/-- A write while a command waits for the sink is refused (R740). -/
theorem step_write_busy {s : State} {w : Width} {a : Addr} {d : Word} {rest : List HostMove} (hh : s.held ≠ none)
    (hr : (drawSink s).sinkReady = false) (hm : s.hostMoves = .write w a d :: rest) :
    step s = .refused (.hostWriteWhileBusy a) := by
  cases hc : s.held with
  | none => exact absurd hc hh
  | some c => simp [step, turn, blockTurn, hostTurn, hm, hc, busy, hr]

/-- A read reaches the bus unless a held command completes (R219(a)). -/
theorem step_read {s : State} {w : Width} {a : Addr} {rest : List HostMove}
    (hh : s.held = none ∨ (drawSink s).sinkReady = false) (hm : s.hostMoves = .read w a :: rest) :
    step s = hostRead w a { drawSink s with hostMoves := rest } := by
  cases hc : s.held with
  | none => simp [step, turn, blockTurn, hostTurn, hm, hc]
  | some c =>
    have : (drawSink s).sinkReady = false := by simpa [hc] using hh
    simp [step, turn, blockTurn, hostTurn, hm, hc, this]

/-- An asserted reset takes the step (R701). -/
theorem step_reset {s : State} {rest : List HostMove} (hm : s.hostMoves = .reset :: rest) :
    step s = .next (hwReset { drawSink s with hostMoves := rest }) := by
  simp [step, turn, hm]

/-- A held command runs again in the first step with the sink ready (R614(c)). -/
theorem step_held {s : State} {c : EncCmd} (hc : s.held = some c) (hr : (drawSink s).sinkReady = true)
    (hn : noReset s) : step s = exec (heldInstr c) (drawSink s) := by
  unfold step turn
  rw [drawSink_hostMoves]
  split
  · rename_i h
    simp [noReset, h] at hn
  · simp [blockTurn, hc, hr]

/-- A step with a command held, the sink not ready and nothing pending leaves the block as it is (R614(c)). -/
theorem step_waits {s : State} (hm : s.hostMoves = []) (hr : s.held = none ∨ (drawSink s).sinkReady = false) :
    step s = .next (drawSink s) := by
  cases hc : s.held with
  | none => simp [step, turn, blockTurn, hostTurn, hm, hc]
  | some c =>
    have : (drawSink s).sinkReady = false := by simpa [hc] using hr
    simp [step, turn, blockTurn, hostTurn, hm, hc, this]

/-- Everything a step can do: a reset, a held command's completion, nothing, a read, or a write with no command held. -/
theorem step_cases {s t : State} (h : step s = .next t) :
    (∃ rest, s.hostMoves = .reset :: rest ∧ t = hwReset { drawSink s with hostMoves := rest }) ∨
    (noReset s ∧
      ((∃ c, s.held = some c ∧ (drawSink s).sinkReady = true ∧ exec (heldInstr c) (drawSink s) = .next t) ∨
       ((s.held = none ∨ (drawSink s).sinkReady = false) ∧
        ((s.hostMoves = [] ∧ t = drawSink s) ∨
         (∃ rest, s.hostMoves = .idle :: rest ∧ t = { drawSink s with hostMoves := rest }) ∨
         (∃ w a rest, s.hostMoves = .read w a :: rest ∧
            hostRead w a { drawSink s with hostMoves := rest } = .next t) ∨
         (∃ w a d rest, s.held = none ∧ s.hostMoves = .write w a d :: rest ∧
            hostWrite w a d { drawSink s with hostMoves := rest } = .next t))))) := by
  by_cases hn : noReset s
  · refine .inr ⟨hn, ?_⟩
    by_cases hb : s.held = none ∨ (drawSink s).sinkReady = false
    · refine .inr ⟨hb, ?_⟩
      match hm : s.hostMoves with
      | [] =>
        rw [step_waits hm hb] at h
        exact .inl ⟨rfl, (Host.Outcome.next.inj h).symm⟩
      | .idle :: rest =>
        refine .inr (.inl ⟨rest, rfl, ?_⟩)
        rcases hb with hb | hb
        · simpa [step, turn, blockTurn, hostTurn, hm, hb, eq_comm] using h
        · cases hc : s.held <;> simpa [step, turn, blockTurn, hostTurn, hm, hb, hc, eq_comm] using h
      | .reset :: rest => simp [noReset, hm] at hn
      | .read w a :: rest =>
        rw [step_read hb hm] at h
        exact .inr (.inr (.inl ⟨w, a, rest, rfl, h⟩))
      | .write w a d :: rest =>
        cases hc : s.held with
        | none =>
          rw [step_write hc hm] at h
          exact .inr (.inr (.inr ⟨w, a, d, rest, rfl, rfl, h⟩))
        | some c =>
          rw [step_write_busy (by simp [hc]) (by simpa [hc] using hb) hm] at h
          simp at h
    · rw [not_or, Bool.not_eq_false] at hb
      obtain ⟨c, hc⟩ := Option.ne_none_iff_exists'.1 hb.1
      rw [step_held hc hb.2 hn] at h
      exact .inl ⟨c, hc, hb.2, h⟩
  · rw [noReset, ne_eq, not_not, List.head?_eq_some_iff] at hn
    obtain ⟨rest, hm⟩ := hn
    rw [step_reset hm] at h
    exact .inl ⟨rest, hm, (Host.Outcome.next.inj h).symm⟩

/-! ### Several steps -/

theorem hostRun_next (M : Host.Core) (k : Nat) (s t : M.State) (h : M.step s = .next t) : M.run (k + 1) s = M.run k t := by
  simp [Host.Core.run, h]

theorem hostRun_refused (M : Host.Core) (k : Nat) (s : M.State) (r : M.Refusal) (h : M.step s = .refused r) :
    M.run (k + 1) s = .refused r := by
  simp [Host.Core.run, h]

@[simp] theorem run_zero (s : State) : run 0 s = .next s := rfl

/-- A run takes its first step and goes on. -/
theorem run_next {k : Nat} {s t : State} (h : step s = .next t) : run (k + 1) s = run k t :=
  hostRun_next core k s t h

/-- A run stops at a refusal. -/
theorem run_refused {k : Nat} {s : State} {r : Refusal} (h : step s = .refused r) : run (k + 1) s = .refused r :=
  hostRun_refused core k s r h

theorem run_one (s : State) : run 1 s = step s := by
  cases h : step s with
  | next t => exact run_next h
  | refused r => exact run_refused h
  | fault r => cases r

/-! ### The host's accesses -/

theorem windowOf_regAddr (r : Reg) : windowOf (regAddr r) = .reg r := by
  cases r <;> decide

theorem hostWrite_regAddr (r : Reg) (w : Word) (s : State) : hostWrite .b32 (regAddr r) w s = writeReg r w s := by
  unfold hostWrite
  rw [windowOf_regAddr]
  rfl

theorem hostRead_regAddr (r : Reg) (s : State) : hostRead .b32 (regAddr r) s = .next (giveHost (readReg r s) s) := by
  unfold hostRead
  rw [windowOf_regAddr]
  rfl

/-- The addresses of IBUF and of EBUF fall in their windows (R220). -/
theorem windowOf_ibuf {i : Nat} (h : i < 2 ^ 28) : windowOf (BitVec.ofNat 32 (ibufBase + i)) = .ibuf i := by
  have ha : (BitVec.ofNat 32 (ibufBase + i)).toNat = ibufBase + i := by
    rw [BitVec.toNat_ofNat, Nat.mod_eq_of_lt]
    simp only [ibufBase]
    omega
  have h1 : ¬ ibufBase + i < 0x40 := by simp only [ibufBase]; omega
  have h2 : ¬ ibufBase + i < 0x10000 := by simp only [ibufBase]; omega
  have h3 : ibufBase + i < ebufBase := by simp only [ibufBase, ebufBase]; omega
  simp only [windowOf, ha, if_neg h1, if_neg h2, if_pos h3, if_neg (Nat.not_lt.2 (Nat.le_add_right _ _)),
    Nat.add_sub_cancel_left]

theorem windowOf_ebuf {i : Nat} (h : i < 2 ^ 28) : windowOf (BitVec.ofNat 32 (ebufBase + i)) = .ebuf i := by
  have ha : (BitVec.ofNat 32 (ebufBase + i)).toNat = ebufBase + i := by
    rw [BitVec.toNat_ofNat, Nat.mod_eq_of_lt]
    simp only [ebufBase]
    omega
  have h1 : ¬ ebufBase + i < 0x40 := by simp only [ebufBase]; omega
  have h2 : ¬ ebufBase + i < 0x10000 := by simp only [ebufBase]; omega
  have h3 : ¬ ebufBase + i < ibufBase := by simp only [ibufBase, ebufBase]; omega
  have h4 : ebufBase + i < ebufBase + 2 ^ 28 := by omega
  simp only [windowOf, ha, if_neg h1, if_neg h2, if_neg h3, if_pos h4, if_neg (Nat.not_lt.2 (Nat.le_add_right _ _)),
    Nat.add_sub_cancel_left]

/-- An index inside the EBUF window has the bus address of R330. -/
theorem ebufAddr_eq {k : Nat} (h : k < 2 ^ 28) : ebufAddr k = BitVec.ofNat 32 (ebufBase + k) := by
  rw [ebufAddr, Nat.min_eq_left]
  simp only [ebufBase]
  omega

/-- An index of EBUF reaches the EBUF window or no window at all (R220, R221; log 22). -/
theorem windowOf_ebufAddr (k : Nat) : windowOf (ebufAddr k) = if k < 2 ^ 28 then .ebuf k else .unmapped := by
  split
  · rename_i h
    rw [ebufAddr_eq h, windowOf_ebuf h]
  · rename_i h
    have ha : (ebufAddr k).toNat = min (ebufBase + k) (2 ^ 32 - 1) :=
      (BitVec.toNat_ofNat _ _).trans (Nat.mod_eq_of_lt (Nat.lt_of_le_of_lt (Nat.min_le_right _ _) (by decide)))
    have hm : 0x30000000 ≤ min (ebufBase + k) (2 ^ 32 - 1) :=
      Nat.le_min.2 ⟨by simp only [ebufBase]; omega, by decide⟩
    generalize min (ebufBase + k) (2 ^ 32 - 1) = m at ha hm
    rw [windowOf, ha, if_neg (by omega), if_neg (by omega), if_neg (by simp only [ibufBase]; omega),
      if_neg (by simp only [ebufBase]; omega), if_neg (by simp only [ebufBase]; omega)]

/-- A read that answers hands over data and changes nothing else. -/
theorem hostRead_next {w : Width} {a : Addr} {s t : State} (h : hostRead w a s = .next t) :
    ∃ v, t = giveHost v s := by
  unfold hostRead readBuffer at h
  split at h <;> first | (split at h <;> simp_all) | simp_all
  all_goals exact ⟨_, h.symm⟩

/-- A command word is issued as its command (R300). -/
theorem issue_command {w : Word} {i : Instr} (h : decode w = .command i) (s : State) :
    issue w s = exec i { s with cmd := w } := by
  simp [issue, h]

/-- A reserved word completes as IllegalCommand (R570). -/
theorem issue_illegal {w : Word} (h : ∀ i, decode w ≠ .command i) (s : State) :
    issue w s = .next (complete .illegalCommand { s with cmd := w }) := by
  unfold issue
  split
  · exact absurd ‹_› (h _)
  · rfl
  · rfl

/-- Everything an issue can do (R300, R570). -/
theorem issue_next {w : Word} {s t : State} (h : issue w s = .next t) :
    (∃ i, decode w = .command i ∧ exec i { s with cmd := w } = .next t) ∨
      t = complete .illegalCommand { s with cmd := w } := by
  unfold issue at h
  split at h
  · exact .inl ⟨_, ‹_›, h⟩
  · exact .inr (Host.Outcome.next.inj h).symm
  · exact .inr (Host.Outcome.next.inj h).symm

/-- Everything a write with no command held can do: store a buffer byte, issue a command word, load an operand register or
IN_LEN, or nothing (R104, R106, R130, R217, R300). -/
theorem hostWrite_next {w : Width} {a : Addr} {d : Word} {s t : State} (h : hostWrite w a d s = .next t) :
    (∃ i, i < s.cfg.ibufSize ∧ a.toNat = ibufBase + i ∧ t = storeByte a.toNat (d.setWidth 8) s) ∨
    (∃ i, i < s.cfg.ebufSize ∧ a.toNat = ebufBase + i ∧ t = storeByte a.toNat (d.setWidth 8) s) ∨
    (a = 0 ∧ w = .b32 ∧ issue d s = .next t) ∨
    (a ≠ 0 ∧ (t = s ∨ t = { s with arg0 := d } ∨ t = { s with arg1 := d } ∨ t = { s with arg2 := d } ∨
      t = { s with arg3 := d } ∨ t = { s with inLen := clampInLen s d })) := by
  unfold hostWrite windowOf at h
  by_cases h0 : a.toNat < 0x40
  · rw [if_pos h0] at h
    have key : ∀ r, regAt a.toNat = some r → r = .cmd → a = 0 := by
      intro r hr hc
      subst hc
      apply BitVec.eq_of_toNat_eq
      unfold regAt at hr
      split at hr <;> simp_all
    have key2 : a = 0 → regAt a.toNat = some .cmd := by
      rintro rfl
      rfl
    cases hr : regAt a.toNat with
    | none => simp [hr] at h
    | some r =>
      simp only [hr] at h
      split at h
      · by_cases ha : a = 0
        · have : r = .cmd := by
            rw [key2 ha] at hr
            exact (Option.some.inj hr).symm
          subst this
          exact .inr (.inr (.inl ⟨ha, ‹_›, h⟩))
        · refine .inr (.inr (.inr ⟨ha, ?_⟩))
          have hne : r ≠ .cmd := fun hc => ha (key r hr hc)
          cases r <;> simp only [writeReg, Host.Outcome.next.injEq] at h <;> first | exact absurd rfl hne | skip
          all_goals subst h; simp
      · simp at h
  · rw [if_neg h0] at h
    split at h <;> rename_i hw
    all_goals (repeat' split at hw)
    all_goals first | (simp at hw; done) | skip
    all_goals simp only [Window.ibuf.injEq, Window.ebuf.injEq] at hw
    all_goals try simp at h
    · unfold writeBuffer at h
      split at h
      · rename_i hwi
        refine .inl ⟨_, hwi.2, ?_, (Host.Outcome.next.inj h).symm⟩
        omega
      · simp at h
    · unfold writeBuffer at h
      split at h
      · rename_i hwi
        refine .inr (.inl ⟨_, hwi.2, ?_, (Host.Outcome.next.inj h).symm⟩)
        omega
      · simp at h

end Sys2Proof.Machine
end

