-- ==== Sys2Proof/Laws/PerInstr.lean ====
section
/-! SUPPORT. Facts about every command as syntax, one lemma per constructor. -/

namespace Sys2Proof.Laws.WordShape

open Sys2Proof

/-- The word of a command is its OP with zeros above it, OP is one of 0x1 to 0xB, and the word decodes to the command
(R300, R301). -/
def Statement (i : Instr) : Prop :=
  zField (encode i) = 0 ∧ opField (encode i) = opcode i ∧ 0x1 ≤ (opcode i).toNat ∧ (opcode i).toNat ≤ 0xB ∧
    decode (encode i) = .command i

theorem vlqdec : Statement .vlqdec := by unfold Statement; decide
theorem vlqenc : Statement .vlqenc := by unfold Statement; decide
theorem msgdec : Statement .msgdec := by unfold Statement; decide
theorem evtdec : Statement .evtdec := by unfold Statement; decide
theorem msgenc : Statement .msgenc := by unfold Statement; decide
theorem evtenc : Statement .evtenc := by unfold Statement; decide
theorem cvenc : Statement .cvenc := by unfold Statement; decide
theorem dclr : Statement .dclr := by unfold Statement; decide
theorem eclr : Statement .eclr := by unfold Statement; decide
theorem ldrs : Statement .ldrs := by unfold Statement; decide
theorem lers : Statement .lers := by unfold Statement; decide

end Sys2Proof.Laws.WordShape
end

