-- ==== Sys2Proof/Tests/Slice0.lean ====
section
/-! SUPPORT. The model's own tests: the checks of WellFormed refuse ill-formed terms, the command words of R301 decode,
vectors of 95_test_vectors.md on single commands and steps, and a witness for the hypotheses of every statement. -/

namespace Sys2Proof.Tests

open Sys2Proof Sys2Proof.Machine

/-! ### Helpers -/

/-- The bytes written at rising bus addresses. -/
def store : Nat → List Byte → List Host.Cell → List Host.Cell
  | _, [], m => m
  | a, b :: bs, m => store (a + 1) bs (memWrite m a b)

/-- After reset the host has loaded the bytes into IBUF and EBUF and set IN_LEN (95_test_vectors.md, section 0). -/
def demo (ib eb : List Byte) : State :=
  { State.reset with
    cfg := ⟨64, 16⟩
    inLen := BitVec.ofNat 32 ib.length
    mem := store ibufBase ib (store ebufBase eb []) }

/-- The next state, if there is one. -/
def nextOf (o : Host.Outcome State Fault Refusal) : Option State :=
  match o with
  | .next t => some t
  | .fault _ => none
  | .refused _ => none

/-- What a part of the state is after a command. -/
def after {α : Type} (i : Instr) (s : State) (f : State → α) : Option α := (nextOf (exec i s)).map f

/-- The refusal of a step, if it ends in one. -/
def refusalOf (o : Host.Outcome State Fault Refusal) : Option Refusal :=
  match o with
  | .next _ => none
  | .fault _ => none
  | .refused r => some r

/-- `ibufAt` as a test. -/
def ibufHas (s : State) : Nat → List Byte → Bool
  | p, [] => decide (p ≤ s.inLen.toNat)
  | p, b :: bs => decide (p < s.inLen.toNat) && (decide (ibufByte s p = some b) && ibufHas s (p + 1) bs)

theorem ibufAt_of_ibufHas {s : State} {p : Nat} {bs : List Byte} (h : ibufHas s p bs = true) : ibufAt s p bs := by
  induction bs generalizing p with
  | nil => exact ibufAt_nil.mpr (by simpa [ibufHas] using h)
  | cons b bs ih =>
    simp only [ibufHas, Bool.and_eq_true, decide_eq_true_eq] at h
    exact ibufAt_cons.mpr ⟨h.1, h.2.1, ih h.2.2⟩

/-- `ebufAt` as a test. -/
def ebufHas (s : State) : Nat → List Byte → Bool
  | _, [] => true
  | p, b :: bs => decide (ebufByte s p = some b) && ebufHas s (p + 1) bs

theorem ebufAt_of_ebufHas {s : State} {p : Nat} {bs : List Byte} (h : ebufHas s p bs = true) : ebufAt s p bs := by
  induction bs generalizing p with
  | nil => intro i b hb; simp at hb
  | cons b bs ih =>
    simp only [ebufHas, Bool.and_eq_true, decide_eq_true_eq] at h
    intro i c hc
    cases i with
    | zero => simpa [h.1] using hc
    | succ i =>
      have := ih h.2 i c (by simpa using hc)
      rwa [Nat.add_right_comm, Nat.add_assoc] at this

/-! ### WellFormed: each check refuses an ill-formed term (R10, R305, R307) -/

theorem test_wf_config_ibuf_zero : ¬ Config.wf ⟨0, 16⟩ := by decide
theorem test_wf_config_ibuf_large : ¬ Config.wf ⟨2 ^ 28 + 1, 16⟩ := by decide
theorem test_wf_config_ebuf_one : ¬ Config.wf ⟨1, 1⟩ := by decide
theorem test_wf_config_smallest : Config.wf ⟨1, 2⟩ := by decide
theorem test_wf_value : ¬ wfValue 0x10000000 ∧ wfValue 0x0FFFFFFF := by decide
theorem test_wf_status : ¬ wfStatus 0x7F ∧ ¬ wfStatus 0x190 ∧ wfStatus 0x80 := by decide
theorem test_wf_family : ¬ wfFamily 0x91 ∧ ¬ wfFamily 0xF0 ∧ ¬ wfFamily 0x180 ∧ wfFamily 0xE0 := by decide
theorem test_wf_channel : ¬ wfChannel 16 ∧ wfChannel 15 := by decide
theorem test_wf_range : ¬ wfRange ⟨64, 16⟩ 15 2 ∧ ¬ wfRange ⟨64, 16⟩ 0xFFFFFFFF 2 ∧ wfRange ⟨64, 16⟩ 16 0 := by decide
theorem test_wf_image :
    ¬ wfImage 0x17F ∧ ¬ wfImage 0x080 ∧ ¬ wfImage 0x100 ∧ ¬ wfImage 0x200 ∧ ¬ wfImage 0x290 ∧ wfImage 0x1FF := by decide
theorem test_wf_operands : ¬ Instr.operandsWf ⟨64, 16⟩ .cvenc 0 0x90 16 0x643C := by decide
theorem test_wf_memory : ¬ memWf [(1, 0), (1, 0)] ∧ ¬ memWf [(2, 0), (1, 0)] ∧ memWf [(1, 0), (2, 0)] := by decide

/-! ### Decoding: the words of R301 written out, and the illegal words of vector X1 -/

theorem test_decode_vlqdec : decode 0b00000000000000000000000000000001 = .command .vlqdec := by decide
theorem test_decode_vlqenc : decode 0b00000000000000000000000000000010 = .command .vlqenc := by decide
theorem test_decode_msgdec : decode 0b00000000000000000000000000000011 = .command .msgdec := by decide
theorem test_decode_evtdec : decode 0b00000000000000000000000000000100 = .command .evtdec := by decide
theorem test_decode_msgenc : decode 0b00000000000000000000000000000101 = .command .msgenc := by decide
theorem test_decode_evtenc : decode 0b00000000000000000000000000000110 = .command .evtenc := by decide
theorem test_decode_cvenc : decode 0b00000000000000000000000000000111 = .command .cvenc := by decide
theorem test_decode_dclr : decode 0b00000000000000000000000000001000 = .command .dclr := by decide
theorem test_decode_eclr : decode 0b00000000000000000000000000001001 = .command .eclr := by decide
theorem test_decode_ldrs : decode 0b00000000000000000000000000001010 = .command .ldrs := by decide
theorem test_decode_lers : decode 0b00000000000000000000000000001011 = .command .lers := by decide
theorem test_decode_illegal_op :
    [0x0, 0xC, 0xD, 0xE, 0xF].map (fun w => decode (BitVec.ofNat 32 w)) =
      [0x0, 0xC, 0xD, 0xE, 0xF].map (fun w => .reservedOpcode (BitVec.ofNat 4 w)) := by decide
theorem test_decode_illegal_bits :
    decode 0x10 = .reservedBits 1 ∧ decode 0x11 = .reservedBits 1 ∧ decode 0x80000001 = .reservedBits 0x8000000 := by
  decide
theorem test_encode_all :
    [Instr.vlqdec, .vlqenc, .msgdec, .evtdec, .msgenc, .evtenc, .cvenc, .dclr, .eclr, .ldrs, .lers].map encode =
      [0x1, 0x2, 0x3, 0x4, 0x5, 0x6, 0x7, 0x8, 0x9, 0xA, 0xB] := by decide
theorem test_table_word : decodeTableWord 32 0x7 = some .cvenc ∧ decodeTableWord 32 0x17 = none := by decide

/-! ### VLQ commands (vectors V1, V2) -/

theorem test_vlqdec_two_bytes :
    after .vlqdec (demo [0x81, 0x00] []) (fun t => (t.err, t.resVal, t.resCons)) = some (.ok, 0x80, 2) := by decide
theorem test_vlqdec_overflow :
    after .vlqdec (demo [0x80, 0x80, 0x80, 0x80] []) (fun t => (t.err, t.resVal)) = some (.vlqOverflow, 0) := by decide
theorem test_vlqenc_two_bytes :
    after .vlqenc { demo [] [] with arg0 := 0x3FFF } (fun t => (t.out, t.resCons, t.outCnt)) =
      some ([0xFF, 0x7F], 2, 2) := by decide
theorem test_vlqenc_too_large :
    after .vlqenc { demo [] [] with arg0 := 0x10000000 } (fun t => (t.err, t.out)) = some (.invalidArgument, []) := by
  decide

/-! ### The message decoder (vectors M1, M2) -/

theorem test_msgdec_note_on :
    after .msgdec (demo [0x9F, 0x3C, 0x64] [])
        (fun t => (t.resMsg0, t.resMsg1, t.resLen, t.resPoff, t.resCons, t.drs)) =
      some (0x040F909F, 0x0000643C, 2, 1, 3, some 0x9F) := by decide
theorem test_msgdec_end_of_track :
    after .msgdec { demo [0x2F, 0x00] [] with drs := some 0xFF }
        (fun t => (t.resMsg0, t.resMsg1, t.resLen, t.resPoff, t.resCons)) =
      some (0x0300FFFF, 0x0001002F, 0, 2, 2) := by decide
theorem test_evtdec_note_off :
    after .evtdec { demo [0x83, 0x60, 0x80, 0x3C, 0x00] [] with drs := some 0x90 }
        (fun t => (t.resVal, t.resCons, t.resMsg0, t.resPoff, t.drs)) =
      some (0x1E0, 5, 0x04008080, 3, some 0x80) := by decide
theorem test_evtdec_delta_cut_off :
    after .evtdec (demo [0x81] []) (fun t => (t.err, t.resVal, t.drs)) = some (.needMoreData, 0, none) := by decide

/-! ### The message encoder (vectors E1, E2, E3) -/

theorem test_msgenc_compressed :
    after .msgenc { demo [] [0x3E, 0x50] with ers := some 0x90, arg1 := 0x90, arg3 := 2 }
        (fun t => (t.out, t.ers, t.resCons)) =
      some ([0x3E, 0x50], some 0x90, 2) := by decide
theorem test_msgenc_bad_status :
    after .msgenc { demo [] [] with arg1 := 0x190 } (fun t => (t.err, t.ers, t.out)) =
      some (.invalidArgument, none, []) := by decide
theorem test_evtenc_new_status :
    after .evtenc { demo [] [0x3C, 0x00] with ers := some 0x90, arg0 := 480, arg1 := 0x80, arg3 := 2 }
        (fun t => (t.out, t.ers, t.resCons)) =
      some ([0x83, 0x60, 0x80, 0x3C, 0x00], some 0x80, 5) := by decide
theorem test_evtenc_range :
    after .evtenc { demo [] [] with arg1 := 0x90, arg3 := 17 } (fun t => t.err) = some .invalidArgument := by decide
theorem test_cvenc_one_data_byte :
    after .cvenc { demo [] [] with arg1 := 0xC0, arg2 := 5, arg3 := 0xAB07 } (fun t => (t.out, t.ers)) =
      some ([0x00, 0xC5, 0x07], some 0xC5) := by decide
theorem test_cvenc_bad_channel :
    after .cvenc { demo [] [] with arg1 := 0x90, arg2 := 16, arg3 := 0x643C } (fun t => (t.err, t.out)) =
      some (.invalidArgument, []) := by decide

/-! ### Latch commands (vector L1v), from DRS = ERS = 0x1C0 -/

/-- The start of vector L1v. -/
def latched : State := { demo [] [] with drs := some 0xC0, ers := some 0xC0 }

theorem test_dclr : after .dclr latched (fun t => (t.drs, t.ers, statusWord t)) = some (none, some 0xC0, 0x900) := by
  decide
theorem test_eclr : after .eclr latched (fun t => (t.drs, t.ers, statusWord t)) = some (some 0xC0, none, 0x900) := by
  decide
theorem test_ldrs_loads :
    after .ldrs { latched with arg1 := 0x1F3 } (fun t => (t.drs, t.ers)) = some (some 0xF3, some 0xC0) := by decide
theorem test_ldrs_illegal :
    after .ldrs { latched with arg1 := 0x17F } (fun t => (t.drs, statusWord t)) = some (some 0xC0, 0xB04) := by decide
theorem test_lers_loads :
    after .lers { latched with arg1 := 0x1FF } (fun t => (t.drs, t.ers)) = some (some 0xC0, some 0xFF) := by decide
theorem test_lers_illegal :
    after .lers { latched with arg1 := 0x100 } (fun t => (t.ers, statusWord t)) = some (some 0xC0, 0xB04) := by decide

/-! ### Single steps -/

/-- The demo state with a list of host moves. -/
def withMoves (ms : List HostMove) (s : State) : State := { s with hostMoves := ms }

/-- X1: a reserved word completes at once; STATUS reads 0xB07 from reset. -/
theorem test_step_illegal_word :
    (nextOf (step (withMoves [.write .b32 0 0x80000001] (demo [] [])))).map (fun t => (t.cmd, statusWord t)) =
      some (0x80000001, 0xB07) := by decide
/-- R130: IN_LEN clamps. -/
theorem test_step_in_len_clamps :
    (nextOf (step (withMoves [.write .b32 0x18 0xFFFFFFFF] (demo [] [])))).map (fun t => t.inLen) = some 64 := by decide
/-- R700: STATUS reads 0x800 after reset with a ready sink (10_state.md rule R120). -/
theorem test_step_read_status :
    (nextOf (step (withMoves [.read .b32 0x4] (demo [] [])))).map (fun t => t.hostData) = some 0x800 := by decide
/-- R105, R221: outside the map there is no transition. -/
theorem test_step_outside_map :
    refusalOf (step (withMoves [.read .b32 0x40] (demo [] []))) = some (.reservedRegister 0x40) ∧
    refusalOf (step (withMoves [.read .b8 0x10000] (demo [] []))) = some (.unmappedAddress 0x10000) ∧
    refusalOf (step (withMoves [.read .b8 0x10000040] (demo [] []))) = some (.badBufferAccess 0x10000040) ∧
    refusalOf (step (withMoves [.read .b32 0x2] (demo [] []))) = some (.badRegisterAccess 0x2) := by decide
/-- R331, R217: ENDTRK beyond EBUF_SIZE writes no other window, however large k is (R11). -/
theorem test_step_endtrk_beyond :
    refusalOf (step (withMoves (expand (.endtrk 0 16)) (demo [] []))) = some (.badBufferAccess 0x20000010) ∧
    refusalOf (step (withMoves (expand (.endtrk 0 0xF0000000)) (demo [] []))) = some (.unmappedAddress 0xFFFFFFFF) ∧
    refusalOf (step (withMoves (expand (.endtrk 0 0xE0000000)) (demo [] []))) = some (.unmappedAddress 0xFFFFFFFF) := by
  decide
/-- R740: no host write while BUSY. -/
theorem test_step_busy_write :
    refusalOf (step { demo [] [] with held := some .vlqenc, sinkReady := false, hostMoves := [.write .b32 0x8 0] }) =
      some (.hostWriteWhileBusy 0x8) := by decide
/-- H1, step 2: the command is held, and DONE stays as it was. -/
theorem test_step_hold :
    (nextOf (step { demo [] [] with
        done := true, arg1 := 0x90, arg3 := 0x643C, sinkInput := [false], hostMoves := [.write .b32 0 7] })).map
        (fun t => (statusWord t, t.out, t.ers, t.outCnt)) =
      some (0x500, [], none, 0) := by decide
/-- H1, step 4: the held command completes when the sink is ready. -/
theorem test_step_release :
    (nextOf (step { demo [] [] with
        done := true, arg1 := 0x90, arg3 := 0x643C, held := some .cvenc, sinkReady := false, sinkInput := [true] })).map
        (fun t => (statusWord t, t.out, t.ers, t.outCnt)) =
      some (0x900, [0x00, 0x90, 0x3C, 0x64], some 0x90, 4) := by decide
/-- H1, step 5: an invalid operand fails at once while the sink is not ready. -/
theorem test_step_invalid_not_held :
    (nextOf (step { demo [] [] with
        done := true, arg1 := 0x90, arg2 := 16, sinkInput := [false], hostMoves := [.write .b32 0 7] })).map
        (fun t => statusWord t) =
      some 0x304 := by decide

/-! ### Witnesses: states and operands that meet the hypotheses of each statement, clause by clause -/

theorem exists_next {o : Host.Outcome State Fault Refusal} {p : State → Prop} [DecidablePred p]
    (h : (nextOf o).any (fun t => decide (p t)) = true) : ∃ t, o = .next t ∧ p t := by
  cases o with
  | next t => exact ⟨t, rfl, by simpa [nextOf] using h⟩
  | fault f => simp [nextOf] at h
  | refused r => simp [nextOf] at h

/-- A CVENC form with every operand given. -/
def noteOnForm : Asm := .cvenc (some 0) (some 0x90) (some 15) (some 0x643C)

theorem witness_CommandWordsDecode : (0 : Word).toNat = 0 ∧ 0xC ≤ (0xC : Word).toNat ∧ 0xC ≤ (0xFFFFFFFF : Word).toNat := by
  decide

theorem witness_AssemblyFormRunsItsCommand :
    (withMoves (assemble noteOnForm ++ [.idle]) (demo [] [])).held = none ∧
      (withMoves (assemble noteOnForm ++ [.idle]) (demo [] [])).hostMoves = assemble noteOnForm ++ [.idle] := by decide

/-- The demo state with a sink that is not ready until the step that issues a command. -/
def lateSink (k : Nat) (ms : List HostMove) : State :=
  { demo [] [] with sinkReady := false, sinkInput := List.replicate (k - 1) false ++ [true], hostMoves := ms }

theorem witness_PseudoInstructionsEmitTheirEvent :
    ((demo [] []).held = none ∧ (demo [] []).cfg.wf ∧ wfValue 0x0FFFFFFF ∧ wfChannel 15) ∧
    ((drawSink^[5] (lateSink 5 (expand (.noteoff 0x0FFFFFFF 15 0x3C 0x40)))).sinkReady = true ∧
      (lateSink 5 (expand (.noteoff 0x0FFFFFFF 15 0x3C 0x40))).hostMoves =
        expand (.noteoff 0x0FFFFFFF 15 0x3C 0x40) ++ []) ∧
    ((drawSink^[7] (lateSink 7 (expand (.endtrk 0x0FFFFFFF 14)))).sinkReady = true ∧
      (14 : Word).toNat + 2 ≤ (demo [] []).cfg.ebufSize ∧
      (lateSink 7 (expand (.endtrk 0x0FFFFFFF 14))).hostMoves = expand (.endtrk 0x0FFFFFFF 14) ++ []) := by decide

/-- A held command and a sink that is not ready. -/
def waiting : State := { demo [] [] with held := some .vlqenc, sinkReady := false }

theorem witness_CmdWriteRunsDecodedCommand :
    ((demo [] []).held = none ∧ decode 0xB = .command .lers) ∧
      (waiting.held ≠ none ∧ (drawSink waiting).sinkReady = false) := by decide

theorem witness_ReservedWordCompletesIllegal :
    (demo [] []).held = none ∧ (0x10 : Word).toNat / 16 ≠ 0 ∧ (0 : Word).toNat % 16 = 0 ∧ 0xC ≤ (0xC : Word).toNat % 16 := by
  decide

theorem witness_RegisterReadReturnsContents :
    ((demo [] []).held = none ∧ (0x3C, 0) ∈ registerContents (drawSink (demo [] []))) ∧
      ((drawSink waiting).sinkReady = false ∧ (0x00, 0) ∈ registerContents (drawSink waiting)) := by decide

theorem witness_ReadOnlyWritesIgnoredAndCmdHolds :
    ((demo [] []).held = none ∧ 0x04 ∈ readOnlyOffsets ∧ 0x3C ∈ readOnlyOffsets) ∧
    (∃ t, step (withMoves [.write .b32 0 0x8] (demo [] [])) = .next t ∧ t.cmd = 0x8) ∧
    (noReset waiting ∧ waiting.held ≠ none ∧ ∃ t, step waiting = .next t ∧ t.cmd = waiting.cmd) ∧
    (∃ t, step (withMoves [.read .b32 0] (demo [] [])) = .next t ∧ t.hostData = 0) ∧
    ∃ t, step (withMoves [.reset] waiting) = .next t ∧ t.cmd = 0 :=
  ⟨by decide, exists_next (by decide), ⟨by decide, by decide, exists_next (by decide)⟩, exists_next (by decide),
    exists_next (by decide)⟩

theorem witness_OperandWritesStore :
    (demo [] []).held = none ∧
      ∀ off ∈ [0x08, 0x0C, 0x10, 0x14, 0x18],
        (withMoves [.write .b32 (BitVec.ofNat 32 off) 0xFFFFFFFF] (demo [] [])).hostMoves =
          [.write .b32 (BitVec.ofNat 32 off) 0xFFFFFFFF] := by decide

theorem witness_BufferWriteStoresOneByte :
    (demo [] []).cfg.wf ∧ (demo [] []).held = none ∧
      (0x10000000, 64) ∈ [(0x10000000, (demo [] []).cfg.ibufSize), (0x20000000, (demo [] []).cfg.ebufSize)] ∧ 63 < 64 ∧
      (0x20000000, 16) ∈ [(0x10000000, (demo [] []).cfg.ibufSize), (0x20000000, (demo [] []).cfg.ebufSize)] ∧ 15 < 16 := by
  decide

theorem witness_BufferReadReturnsByte :
    (demo [0x81] []).cfg.wf ∧ (demo [0x81] []).held = none ∧ memRead (demo [0x81] []).mem 0x10000000 = some 0x81 ∧
      memRead (demo [0x81] []).mem (0x10000000 + 63) = none := by decide

theorem witness_AccessesOutsideTheMapAreRefused :
    ((demo [] []).cfg.wf ∧ (demo [] []).held = none ∧ (drawSink waiting).sinkReady = false) ∧
    (accessOk (demo [] []).cfg .b32 0x3C ∧ accessOk (demo [] []).cfg .b8 0x1000003F ∧
      accessOk (demo [] []).cfg .b8 0x2000000F) ∧
    (¬ accessOk (demo [] []).cfg .b32 0x40 ∧ ¬ accessOk (demo [] []).cfg .b8 0x10000040 ∧
      ¬ accessOk (demo [] []).cfg .b8 0x20000010 ∧ ¬ accessOk (demo [] []).cfg .b32 0x10000000 ∧
      ¬ accessOk (demo [] []).cfg .b32 0x2) := ⟨by decide, by decide, by decide⟩

theorem witness_NoHostWriteWhileBusy : waiting.held = some .vlqenc ∧ (drawSink waiting).sinkReady = false := by decide

theorem witness_ResetGivesResetState : (withMoves [.reset] waiting).hostMoves = .reset :: [] := by decide

theorem witness_VlqBytesEncodeTheValue : 0x0FFFFFFF ≤ 0x0FFFFFFF ∧ 0 ≤ 0x0FFFFFFF := by decide

theorem witness_VlqBytesMinimalLength :
    0x7F ≤ 0x7F ∧ (0x80 ≤ 0x80 ∧ 0x80 ≤ 0x3FFF) ∧ (0x4000 ≤ 0x1FFFFF ∧ 0x1FFFFF ≤ 0x1FFFFF) ∧
      (0x200000 ≤ 0x0FFFFFFF ∧ 0x0FFFFFFF ≤ 0x0FFFFFFF) ∧
      (isVlq [0x80, 0x81, 0x00] = true ∧ vlqValue [0x80, 0x81, 0x00] = 0x80) := by decide

theorem witness_VlqReadInvertsVlqBytes :
    ibufAt (demo [0, 0xFF, 0xFF, 0xFF, 0x7F] []) 1 (vlqBytes 0x0FFFFFFF) ∧ ibufAt (demo [0x80, 0x00] []) 0 [0x80, 0x00] :=
  ⟨ibufAt_of_ibufHas (by decide), ibufAt_of_ibufHas (by decide)⟩

theorem witness_VlqReadValueIsTheSum : vlqRead (demo [0xFF, 0x7F] []) .needMoreData 0 = .ok (0x3FFF, 2) := rfl

theorem witness_VlqdecOutcome :
    (vlqForm [0xFF, 0xFF, 0xFF, 0x7F] ∧ ibufAt (demo [0xFF, 0xFF, 0xFF, 0x7F] []) 0 [0xFF, 0xFF, 0xFF, 0x7F]) ∧
    runsOut (demo [] []) 0 ∧ runsOut (demo [0x80, 0x80, 0x80] []) 0 ∧
    overflows (demo [0x80, 0x80, 0x80, 0x80] []) 0 :=
  ⟨⟨by decide, ibufAt_of_ibufHas (by decide)⟩, .inl (by decide),
    .inr ⟨[0x80, 0x80, 0x80], by decide, by decide, ibufAt_of_ibufHas (by decide), by decide⟩,
    ⟨[0x80, 0x80, 0x80, 0x80], by decide, by decide, ibufAt_of_ibufHas (by decide)⟩⟩

theorem witness_VlqdecAcceptsNonMinimal :
    3 + (vlqBytes 0).length ≤ 4 ∧ ibufAt (demo [0x80, 0x80, 0x80, 0x00] []) 0 (List.replicate 3 0x80 ++ vlqBytes 0) :=
  ⟨by decide, ibufAt_of_ibufHas (by decide)⟩

theorem witness_VlqencOutcome :
    0x0FFFFFFF < ({ demo [] [] with arg0 := 0x10000000 } : State).arg0.toNat ∧
    (({ demo [] [] with arg0 := 0x0FFFFFFF } : State).arg0.toNat ≤ 0x0FFFFFFF ∧
      ({ demo [] [] with arg0 := 0x0FFFFFFF } : State).sinkReady = true) ∧
    ({ waiting with arg0 := 0x0FFFFFFF } : State).arg0.toNat ≤ 0x0FFFFFFF ∧
      ({ waiting with arg0 := 0x0FFFFFFF } : State).sinkReady = false := by decide

theorem witness_VlqencIgnoresLatches : ∃ t, exec .vlqenc (demo [] []) = .next t ∧ t.out = [0] := exists_next (by decide)

theorem witness_MsgdecVoiceMessage :
    (msgHead (demo [0x80, 0x3C, 0x40] []) 0 0x80 true 1 ∧ voiceStatus 0x80 ∧ [0x3C, 0x40].length = voiceLen 0x80 ∧
      ibufAt (demo [0x80, 0x3C, 0x40] []) 1 [0x3C, 0x40]) ∧
    (msgHead { demo [0x05] [] with drs := some 0xDF } 0 0xDF false 0 ∧ voiceStatus 0xDF ∧
      [(0x05 : Byte)].length = voiceLen 0xDF ∧ ibufAt { demo [0x05] [] with drs := some 0xDF } 0 [0x05]) :=
  ⟨⟨.inl ⟨rfl, rfl, ibufAt_of_ibufHas (by decide), by decide⟩, by decide, by decide, ibufAt_of_ibufHas (by decide)⟩,
    .inr ⟨rfl, rfl, rfl, 0x05, ibufAt_of_ibufHas (by decide), by decide⟩, by decide, by decide,
      ibufAt_of_ibufHas (by decide)⟩

theorem witness_MsgdecMetaMessage :
    (msgHead (demo [0xFF, 0x2F, 0x00] []) 0 0xFF true 1 ∧ vlqForm [0x00] ∧ ibufAt (demo [0xFF, 0x2F, 0x00] []) 1 [0x2F, 0x00] ∧
      1 + 1 + [(0x00 : Byte)].length + vlqValue [0x00] ≤ (demo [0xFF, 0x2F, 0x00] []).inLen.toNat) ∧
    (msgHead { demo [0x03, 0x01, 0x41] [] with drs := some 0xFF } 0 0xFF false 0 ∧ vlqForm [0x01] ∧
      ibufAt { demo [0x03, 0x01, 0x41] [] with drs := some 0xFF } 0 [0x03, 0x01] ∧
      0 + 1 + [(0x01 : Byte)].length + vlqValue [0x01] ≤ (demo [0x03, 0x01, 0x41] []).inLen.toNat) :=
  ⟨⟨.inl ⟨rfl, rfl, ibufAt_of_ibufHas (by decide), by decide⟩, by decide, ibufAt_of_ibufHas (by decide), by decide⟩,
    .inr ⟨rfl, rfl, rfl, 0x03, ibufAt_of_ibufHas (by decide), by decide⟩, by decide, ibufAt_of_ibufHas (by decide),
      by decide⟩

/-- The first event of vector M2. -/
def noteOnEvent : State := demo [0x00, 0x90, 0x3C, 0x64] []

theorem witness_EvtdecVoiceEvent :
    vlqForm [0x00] ∧ ibufAt noteOnEvent 0 [0x00] ∧ msgHead noteOnEvent (0 + [(0x00 : Byte)].length) 0x90 true 2 ∧
      voiceStatus 0x90 ∧ [0x3C, 0x64].length = voiceLen 0x90 ∧ ibufAt noteOnEvent 2 [0x3C, 0x64] :=
  ⟨by decide, ibufAt_of_ibufHas (by decide), .inl ⟨rfl, rfl, ibufAt_of_ibufHas (by decide), by decide⟩, by decide,
    by decide, ibufAt_of_ibufHas (by decide)⟩

/-- The third event of vector M2. -/
def endEvent : State := demo [0x00, 0xFF, 0x2F, 0x00] []

theorem witness_EvtdecMetaEvent :
    vlqForm [0x00] ∧ ibufAt endEvent 0 [0x00] ∧ msgHead endEvent (0 + [(0x00 : Byte)].length) 0xFF true 2 ∧
      vlqForm [0x00] ∧ ibufAt endEvent 2 [0x2F, 0x00] ∧
      2 + 1 + [(0x00 : Byte)].length + vlqValue [0x00] ≤ endEvent.inLen.toNat :=
  ⟨by decide, ibufAt_of_ibufHas (by decide), .inl ⟨rfl, rfl, ibufAt_of_ibufHas (by decide), by decide⟩, by decide,
    ibufAt_of_ibufHas (by decide), by decide⟩

theorem witness_EvtdecIsDeltaThenMsgdec :
    (vlqForm [0x00] ∧ ibufAt noteOnEvent 0 [0x00]) ∧
    (∃ u, exec .msgdec { noteOnEvent with arg0 := noteOnEvent.arg0 + BitVec.ofNat 32 [(0x00 : Byte)].length } = .next u ∧
      u.err = .ok) ∧
    ibufAt (demo [0x00, 0xF0] []) 0 [0x00] ∧
    ∃ u, exec .msgdec { demo [0x00, 0xF0] [] with arg0 := (demo [0x00, 0xF0] []).arg0 + BitVec.ofNat 32 [(0x00 : Byte)].length } =
      .next u ∧ u.err ≠ .ok :=
  ⟨⟨by decide, ibufAt_of_ibufHas (by decide)⟩, exists_next (by decide), ibufAt_of_ibufHas (by decide),
    exists_next (by decide)⟩

theorem witness_MsgdecNeedsMoreData :
    (demo [] []).inLen.toNat ≤ (demo [] []).arg0.toNat ∧
    (msgHead (demo [0x90, 0x3C] []) 0 0x90 true 1 ∧ voiceStatus 0x90 ∧
      (demo [0x90, 0x3C] []).inLen.toNat < 1 + voiceLen 0x90) ∧
    (msgHead (demo [0xFF] []) 0 0xFF true 1 ∧ (demo [0xFF] []).inLen.toNat ≤ 1) ∧
    (msgHead (demo [0xFF, 0x03, 0x81] []) 0 0xFF true 1 ∧ ibufAt (demo [0xFF, 0x03, 0x81] []) 1 [0x03] ∧
      runsOut (demo [0xFF, 0x03, 0x81] []) (1 + 1)) ∧
    (msgHead (demo [0xFF, 0x03, 0x01] []) 0 0xFF true 1 ∧ vlqForm [0x01] ∧
      ibufAt (demo [0xFF, 0x03, 0x01] []) 1 [0x03, 0x01] ∧
      (demo [0xFF, 0x03, 0x01] []).inLen.toNat < 1 + 1 + [(0x01 : Byte)].length + vlqValue [0x01]) ∧
    ∃ t, exec .msgdec (demo [0x90, 0x3C, 0x64] []) = .next t ∧ t.err = .ok :=
  ⟨by decide, ⟨.inl ⟨rfl, rfl, ibufAt_of_ibufHas (by decide), by decide⟩, by decide, by decide⟩,
    ⟨.inl ⟨rfl, rfl, ibufAt_of_ibufHas (by decide), by decide⟩, by decide⟩,
    ⟨.inl ⟨rfl, rfl, ibufAt_of_ibufHas (by decide), by decide⟩, ibufAt_of_ibufHas (by decide),
      .inr ⟨[0x81], by decide, by decide, ibufAt_of_ibufHas (by decide), by decide⟩⟩,
    ⟨.inl ⟨rfl, rfl, ibufAt_of_ibufHas (by decide), by decide⟩, by decide, ibufAt_of_ibufHas (by decide), by decide⟩,
    exists_next (by decide)⟩

theorem witness_CutOffDeltaAndOverlongVlq :
    runsOut (demo [0x81] []) 0 ∧ overflows (demo [0x80, 0x80, 0x80, 0x80] []) 0 ∧
    (msgHead (demo [0xFF, 0x03, 0x80, 0x80, 0x80, 0x80] []) 0 0xFF true 1 ∧
      ibufAt (demo [0xFF, 0x03, 0x80, 0x80, 0x80, 0x80] []) 1 [0x03] ∧
      overflows (demo [0xFF, 0x03, 0x80, 0x80, 0x80, 0x80] []) (1 + 1)) :=
  ⟨.inr ⟨[0x81], by decide, by decide, ibufAt_of_ibufHas (by decide), by decide⟩,
    ⟨[0x80, 0x80, 0x80, 0x80], by decide, by decide, ibufAt_of_ibufHas (by decide)⟩,
    .inl ⟨rfl, rfl, ibufAt_of_ibufHas (by decide), by decide⟩, ibufAt_of_ibufHas (by decide),
    ⟨[0x80, 0x80, 0x80, 0x80], by decide, by decide, ibufAt_of_ibufHas (by decide)⟩⟩

theorem witness_DataByteWithoutRunningStatus :
    (demo [0x7F] []).drs = none ∧ ibufAt (demo [0x7F] []) 0 [0x7F] ∧ (0x7F : Byte).getLsbD 7 = false :=
  ⟨rfl, ibufAt_of_ibufHas (by decide), by decide⟩

theorem witness_UnknownStatusRaises :
    (msgHead (demo [0xF0, 0x05] []) 0 0xF0 true 1 ∧ 0xF0 ≤ (0xF0 : Byte).toNat) ∧
    (msgHead { demo [0x3C] [] with drs := some 0xFE } 0 0xFE false 0 ∧ (0xFE : Byte).toNat ≤ 0xFE) :=
  ⟨⟨.inl ⟨rfl, rfl, ibufAt_of_ibufHas (by decide), by decide⟩, by decide⟩,
    .inr ⟨rfl, rfl, rfl, 0x3C, ibufAt_of_ibufHas (by decide), by decide⟩, by decide⟩

theorem witness_DecodeCommitsStatusToDrs :
    (∃ t, exec .evtdec noteOnEvent = .next t ∧ t.err = .ok) ∧
    (∃ t, exec .msgdec { demo [0x3C, 0x40] [] with drs := some 0x90 } = .next t ∧
      t.err = .ok ∧ t.resMsg0.getLsbD 26 = false) ∧
    ∃ t, exec .msgdec (demo [0x90] []) = .next t ∧ t.err ≠ .ok :=
  ⟨exists_next (by decide), exists_next (by decide), exists_next (by decide)⟩

theorem witness_EotFlagIsMetaType2F :
    (∃ t, exec .msgdec (demo [0xFF, 0x2F, 0x01, 0x00] []) = .next t ∧ t.err = .ok ∧ t.resMsg0.getLsbD 25 = true) ∧
    ∃ t, exec .evtdec noteOnEvent = .next t ∧ t.err = .ok ∧ t.resMsg0.getLsbD 25 = false :=
  ⟨exists_next (by decide), exists_next (by decide)⟩

theorem witness_RunningStatusAfterMeta :
    (∃ t, exec .evtdec endEvent = .next t ∧ t.err = .ok ∧ t.resMsg0.getLsbD 24 = true) ∧
    (({ demo [0x03, 0x00] [] with drs := some 0xFF } : State).drs = some 0xFF ∧ (0x03 : Byte).getLsbD 7 = false ∧
      vlqForm [0x00] ∧ ibufAt { demo [0x03, 0x00] [] with drs := some 0xFF } 0 [0x03, 0x00] ∧
      0 + 1 + [(0x00 : Byte)].length + vlqValue [0x00] ≤ (demo [0x03, 0x00] []).inLen.toNat) :=
  ⟨exists_next (by decide), rfl, by decide, by decide, ibufAt_of_ibufHas (by decide), by decide⟩

theorem witness_DecodeIsStableUnderAppend :
    (demo [0x40, 0x99] []).arg0 = (demo [0x40] []).arg0 ∧ (demo [0x40, 0x99] []).drs = (demo [0x40] []).drs ∧
      (demo [0x40] []).inLen.toNat ≤ (demo [0x40, 0x99] []).inLen.toNat ∧
      (∀ j, j < (demo [0x40] []).inLen.toNat → ibufByte (demo [0x40, 0x99] []) j = ibufByte (demo [0x40] []) j) ∧
      ∃ t, exec .vlqdec (demo [0x40] []) = .next t ∧ t.err ≠ .needMoreData ∧ t.err ≠ .truncatedInput :=
  ⟨by decide, by decide, by decide, by decide, exists_next (by decide)⟩

theorem witness_RetryAfterNeedMoreData :
    (∃ t, exec .msgdec (demo [0x90] []) = .next t ∧ t.err = .needMoreData) ∧
    ∃ w, exec .msgdec { demo [0x90] [] with
        mem := (demo [0x90, 0x3C, 0x64] []).mem, inLen := (demo [0x90, 0x3C, 0x64] []).inLen } = .next w ∧ w.err = .ok :=
  ⟨exists_next (by decide), exists_next (by decide)⟩

/-- End-Of-Track data in EBUF, with given operands. -/
def endMessage (d s off n : Word) : State :=
  { demo [] [0x2F, 0x00] with arg0 := d, arg1 := s, arg2 := off, arg3 := n }

theorem witness_MsgencOutcome :
    ¬ (wfStatus (endMessage 0 0x7F 0 2).arg1 ∧ wfRange (endMessage 0 0x7F 0 2).cfg 0 2) ∧
    ¬ (wfStatus (endMessage 0 0x90 15 2).arg1 ∧ wfRange (endMessage 0 0x90 15 2).cfg 15 2) ∧
    (wfStatus (endMessage 0 0xFF 0 2).arg1 ∧
      wfRange (endMessage 0 0xFF 0 2).cfg (endMessage 0 0xFF 0 2).arg2 (endMessage 0 0xFF 0 2).arg3 ∧
      [(0x2F : Byte), 0x00].length = (endMessage 0 0xFF 0 2).arg3.toNat ∧
      ebufAt (endMessage 0 0xFF 0 2) (endMessage 0 0xFF 0 2).arg2.toNat [0x2F, 0x00] ∧
      (endMessage 0 0xFF 0 2).sinkReady = true) ∧
    ebufAt { endMessage 0 0xFF 0 2 with sinkReady := false } 0 [0x2F, 0x00] :=
  ⟨by decide, by decide, ⟨by decide, by decide, by decide, ebufAt_of_ebufHas (by decide), by decide⟩,
    ebufAt_of_ebufHas (by decide)⟩

theorem witness_EvtencOutcome :
    ¬ (wfValue (endMessage 0x10000000 0xFF 0 2).arg0 ∧ wfStatus (endMessage 0x10000000 0xFF 0 2).arg1 ∧
      wfRange (endMessage 0x10000000 0xFF 0 2).cfg 0 2) ∧
    (wfValue (endMessage 0x0FFFFFFF 0x80 16 0).arg0 ∧ wfStatus (endMessage 0x0FFFFFFF 0x80 16 0).arg1 ∧
      wfRange (endMessage 0x0FFFFFFF 0x80 16 0).cfg (endMessage 0x0FFFFFFF 0x80 16 0).arg2
        (endMessage 0x0FFFFFFF 0x80 16 0).arg3 ∧
      ([] : List Byte).length = (endMessage 0x0FFFFFFF 0x80 16 0).arg3.toNat ∧
      ebufAt (endMessage 0x0FFFFFFF 0x80 16 0) 16 [] ∧ (endMessage 0x0FFFFFFF 0x80 16 0).sinkReady = true) ∧
    ebufAt { endMessage 0 0xFF 0 2 with sinkReady := false } 0 [0x2F, 0x00] :=
  ⟨by decide, ⟨by decide, by decide, by decide, by decide, ebufAt_of_ebufHas (by decide), by decide⟩,
    ebufAt_of_ebufHas (by decide)⟩

theorem witness_CvencOutcome :
    ¬ (wfFamily (endMessage 0 0xF0 0 0).arg1 ∧ wfChannel (endMessage 0 0xF0 0 0).arg2 ∧
      wfValue (endMessage 0 0xF0 0 0).arg0) ∧
    ¬ (wfFamily (endMessage 0 0x90 16 0).arg1 ∧ wfChannel (endMessage 0 0x90 16 0).arg2 ∧
      wfValue (endMessage 0 0x90 16 0).arg0) ∧
    (wfFamily (endMessage 0x0FFFFFFF 0xE0 15 0).arg1 ∧ wfChannel (endMessage 0x0FFFFFFF 0xE0 15 0).arg2 ∧
      wfValue (endMessage 0x0FFFFFFF 0xE0 15 0).arg0 ∧
      (0xEF : Byte).toNat = (endMessage 0x0FFFFFFF 0xE0 15 0).arg1.toNat + (endMessage 0x0FFFFFFF 0xE0 15 0).arg2.toNat) ∧
    (endMessage 0x0FFFFFFF 0xE0 15 0).sinkReady = true ∧
      ({ endMessage 0x0FFFFFFF 0xE0 15 0 with sinkReady := false } : State).sinkReady = false :=
  ⟨by decide, by decide, by decide, by decide⟩

theorem witness_OperandRangesDecideInvalidArgument :
    ¬ Instr.operandsWf ⟨64, 16⟩ .lers 0 0x17F 0 0 ∧ Instr.operandsWf ⟨64, 16⟩ .lers 0 0x180 0 0 := by decide

theorem witness_UnreadOperandsHaveNoEffect : ∃ t, exec .dclr latched = .next t ∧ t.drs = none := exists_next (by decide)

/-- A NOTE_ON for MSGENC: status 0x90 and two bytes of EBUF. -/
def noteOnMessage : State := { demo [] [0x3C, 0x64] with arg1 := 0x90, arg3 := 2 }

theorem witness_MessageRoundTrip :
    (voiceStatus 0x90 ∧ [(0x3C : Byte), 0x64].length = voiceLen 0x90 ∧ noteOnMessage.ers = none ∧
      noteOnMessage.sinkReady = true ∧ noteOnMessage.arg1 = (0x90 : Byte).setWidth 32 ∧
      noteOnMessage.arg3 = BitVec.ofNat 32 [(0x3C : Byte), 0x64].length ∧
      wfRange noteOnMessage.cfg noteOnMessage.arg2 noteOnMessage.arg3) ∧
    ebufAt noteOnMessage noteOnMessage.arg2.toNat [0x3C, 0x64] ∧
    (∃ t, exec .msgenc noteOnMessage = .next t ∧ t.out = noteOnMessage.out ++ [0x90, 0x3C, 0x64]) ∧
    ((demo [0x90, 0x3C, 0x64] []).drs = none ∧ (demo [0x90, 0x3C, 0x64] []).arg0 = 0) ∧
    ibufAt (demo [0x90, 0x3C, 0x64] []) 0 [0x90, 0x3C, 0x64] :=
  ⟨by decide, ebufAt_of_ebufHas (by decide), exists_next (by decide), by decide, ibufAt_of_ibufHas (by decide)⟩

/-- The start of program P3. -/
def firstNoteOn : State := { demo [] [] with arg1 := 0x90, arg3 := 0x4040 }

theorem witness_RunningStatusRoundTrip :
    (firstNoteOn.ers = none ∧ firstNoteOn.sinkReady = true ∧ wfFamily firstNoteOn.arg1 ∧ wfChannel firstNoteOn.arg2 ∧
      wfValue firstNoteOn.arg0 ∧ wfValue 0x10 ∧ (0x0043 : Word).getLsbD 7 = false ∧
      (0x90 : Byte).toNat = firstNoteOn.arg1.toNat + firstNoteOn.arg2.toNat ∧
      [(0x40 : Byte), 0x40] =
        [BitVec.ofNat 8 firstNoteOn.arg3.toNat, BitVec.ofNat 8 (firstNoteOn.arg3.toNat / 2 ^ 8)].take (voiceLen 0x90) ∧
      [(0x43 : Byte), 0x00] =
        [BitVec.ofNat 8 (0x0043 : Word).toNat, BitVec.ofNat 8 ((0x0043 : Word).toNat / 2 ^ 8)].take (voiceLen 0x90)) ∧
    (∃ t1, exec .cvenc firstNoteOn = .next t1 ∧
      (nextOf (exec .cvenc { t1 with arg0 := 0x10, arg3 := 0x0043 })).isSome = true) ∧
    ibufAt (demo [0x00, 0x90, 0x40, 0x40, 0x10, 0x43, 0x00] []) 0
      ((vlqBytes 0 ++ 0x90 :: [0x40, 0x40]) ++ (vlqBytes 0x10 ++ [0x43, 0x00])) :=
  ⟨by decide, exists_next (by decide), ibufAt_of_ibufHas (by decide)⟩

theorem legal_waiting : Legal waiting where
  cfg_wf := by decide
  mem_wf := by decide
  mem_inside := by decide
  inLen_le := by decide
  drs_ok := nofun
  ers_ok := nofun
  resVal_le := by decide
  resLen_le := by decide
  resEnd_le := by decide
  msg_ok := ⟨by decide, by decide, by decide, by decide⟩
  outCnt_eq := by decide
  err_seen := by decide
  seen_done := by decide
  held_ok := fun c hc => by obtain rfl : EncCmd.vlqenc = c := Option.some.inj hc; exact ⟨rfl, _, rfl⟩

theorem witness_HeldCommandCompletesWhenReady :
    Legal waiting ∧ waiting.held = some .vlqenc ∧ noReset waiting ∧
      ((drawSink waiting).sinkReady = false ∧ waiting.hostMoves = []) :=
  ⟨legal_waiting, by decide, by decide, by decide⟩

theorem witness_HeldCommandCompletesWhenReady_ready :
    Legal { waiting with sinkInput := [true] } ∧ ({ waiting with sinkInput := [true] } : State).held = some .vlqenc ∧
      noReset { waiting with sinkInput := [true] } ∧ (drawSink { waiting with sinkInput := [true] }).sinkReady = true :=
  ⟨{ legal_waiting with held_ok := legal_waiting.held_ok }, by decide, by decide, by decide⟩

theorem witness_HoldChangesNothingElse :
    ({ demo [] [] with sinkReady := false } : State).held = none ∧
      ∃ t, exec (heldInstr .vlqenc) { demo [] [] with sinkReady := false } = .next t ∧ t.held = some .vlqenc :=
  ⟨by decide, exists_next (by decide)⟩

theorem witness_CommandCommitsAllOrOnlyStatus :
    (∃ t, exec .lers { latched with arg1 := 0x1FF } = .next t ∧ t.err = .ok ∧ t.held = none) ∧
    (∃ t, exec .lers { latched with arg1 := 0x0FF } = .next t ∧ t.err = .invalidArgument) ∧
    ∃ t, exec .vlqenc { demo [] [] with sinkReady := false } = .next t ∧ t.held = some .vlqenc :=
  ⟨exists_next (by decide), exists_next (by decide), exists_next (by decide)⟩

theorem witness_ErrorCodesPerCommand :
    (∃ t, exec .evtdec (demo [0x00, 0x3C, 0x40] []) = .next t ∧ t.held = none ∧ t.err = .unknownRunningStatus) ∧
    (∃ t, exec .evtdec (demo [0x00, 0xF0] []) = .next t ∧ t.held = none ∧ t.err = .unknownStatus) ∧
    ∃ t, exec .vlqdec (demo [0x81] []) = .next t ∧ t.held = none ∧ t.err = .truncatedInput :=
  ⟨exists_next (by decide), exists_next (by decide), exists_next (by decide)⟩

/-- IN_LEN says one byte more than the host has written. -/
def unwritten : State := { demo [0x90] [] with inLen := 2, arg1 := 0x90, arg2 := 15, arg3 := 1 }

theorem witness_OnlyUnwrittenBytesStopACommand :
    refusalOf (exec .msgdec { unwritten with inLen := 3 }) = some (.unwrittenIbufByte 1) ∧
    (unwritten.arg0.toNat < ({ unwritten with mem := [] } : State).inLen.toNat ∧
      ibufByte { unwritten with mem := [] } unwritten.arg0.toNat = none) ∧
    (refusalOf (exec .evtenc unwritten) = some (.unwrittenEbufByte 15) ∧
      Instr.operandsWf unwritten.cfg .evtenc unwritten.arg0 unwritten.arg1 unwritten.arg2 unwritten.arg3 ∧
      0 < unwritten.arg3.toNat ∧ ebufByte unwritten unwritten.arg2.toNat = none) := by decide

theorem witness_LatchLoadsImage :
    ¬ wfImage 0x17F ∧ ¬ wfImage 0x200 ∧
    (latchOk none ∧ (0 : Word).toNat = (none : Latch).elim 0 (fun v => 0x100 + v.toNat)) ∧
    (latchOk (some 0x80) ∧ (0x180 : Word).toNat = (some 0x80 : Latch).elim 0 (fun v => 0x100 + v.toNat)) ∧
    (latchOk (some 0xFF) ∧ (0x1FF : Word).toNat = (some 0xFF : Latch).elim 0 (fun v => 0x100 + v.toNat)) := by decide

theorem witness_SavedLatchReloads :
    latchOk latched.drs ∧ latchOk latched.ers ∧ (0x1C0 : Word) = readReg .drs latched ∧ (0x1C0 : Word) = readReg .ers latched ∧
      latchOk (demo [] []).drs ∧ (0 : Word) = readReg .drs (demo [] []) := by decide

theorem witness_LatchesAreIndependent :
    (∃ t, exec .msgdec (demo [0x90, 0x3C, 0x64] []) = .next t ∧ t.err = .ok) ∧
    ∃ t, exec .cvenc firstNoteOn = .next t ∧ t.err = .ok := ⟨exists_next (by decide), exists_next (by decide)⟩

theorem witness_CommandsKeepOperandsAndBuffers : ∃ t, exec .vlqdec (demo [0x00] []) = .next t ∧ t.err = .ok :=
  exists_next (by decide)

theorem witness_ResultRegistersPerCommand :
    (∃ t, exec .cvenc firstNoteOn = .next t ∧ t.held = none ∧ t.err = .ok) ∧
    ∃ t, exec .eclr latched = .next t ∧ t.err = .ok := ⟨exists_next (by decide), exists_next (by decide)⟩

theorem witness_OutputAndStickyFlagsOnlyGrow :
    noReset { waiting with sinkInput := [true], done := true, errSeen := true } ∧
      ∃ t, step { waiting with sinkInput := [true], done := true, errSeen := true } = .next t ∧ t.out = [0] :=
  ⟨by decide, exists_next (by decide)⟩

theorem witness_StepKeepsStateLegal :
    Legal { waiting with sinkInput := [true] } ∧ ∃ t, step { waiting with sinkInput := [true] } = .next t ∧ t.out = [0] :=
  ⟨{ legal_waiting with held_ok := legal_waiting.held_ok }, exists_next (by decide)⟩

theorem witness_EndtrkBeyondEbufIsRefused :
    ((demo [] []).cfg.wf ∧ (demo [] []).held = none) ∧
    ((demo [] []).cfg.ebufSize ≤ (16 : Word).toNat ∧ (demo [] []).cfg.ebufSize ≤ (0xF0000000 : Word).toNat) ∧
    ((15 : Word).toNat + 1 = (demo [] []).cfg.ebufSize ∧
      (withMoves (expand (.endtrk 0 15)) (demo [] [])).hostMoves = expand (.endtrk 0 15) ++ []) := by decide

end Sys2Proof.Tests
end

section
/-! SUPPORT. The invariant of the machine (`Legal`): it holds after reset, and the sink's draw, every host access and every
command keep it. -/

namespace Sys2Proof

open Sys2Proof.Machine

/-! ### A held command -/

theorem heldOk_of_none {s : State} (h : s.held = none) : heldOk s :=
  fun c hc => absurd hc (by simp [h])

/-- A command whose checks passed may be held while the sink is not ready (R614). -/
theorem heldOk_hold {c : EncCmd} {o : EncOut} {s : State} (hr : s.sinkReady = false) (ho : encodeOf c s = .ok o) :
    heldOk (hold c s) := by
  intro c' hc
  obtain rfl : c = c' := Option.some.inj hc
  refine ⟨hr, o, Eq.trans ?_ ho⟩
  apply encodeOf_congr <;> rfl

/-- An encode command leaves a status byte, or the old value, in ERS (R111, R507). -/
theorem encodeOf_ers_ok {c : EncCmd} {s : State} {o : EncOut} (ho : encodeOf c s = .ok o) (hs : latchOk s.ers) :
    latchOk o.ers := by
  have message : ∀ m, messageOut s = .ok m → latchOk m.ers := by
    intro m hm
    obtain ⟨⟨hlo, hhi⟩, -, data, -, -, rfl⟩ := messageOut_eq_ok.1 hm
    rw [msgBytes_eq]
    rintro v ⟨⟩
    rw [BitVec.toNat_setWidth]
    omega
  cases c with
  | vlqenc =>
    obtain ⟨-, rfl⟩ := vlqencOut_eq_ok.1 ho
    exact hs
  | msgenc => exact message o ho
  | evtenc =>
    obtain ⟨-, m, hm, rfl⟩ := evtencOut_eq_ok.1 ho
    exact message m hm
  | cvenc =>
    obtain ⟨n, hf, hc, -, rfl⟩ := cvencOut_eq_ok.1 ho
    have hfam : wfFamily s.arg1 := by
      by_contra hbad
      simp [familyOperand_eq_none.2 hbad] at hf
    have hst : (BitVec.ofNat 8 (s.arg1.toNat + s.arg2.toNat)).toNat = s.arg1.toNat + s.arg2.toNat := by
      simp only [wfFamily, List.mem_cons, List.not_mem_nil, or_false] at hfam
      rw [BitVec.toNat_ofNat]
      omega
    obtain ⟨heq, -, hvoice, -⟩ := familyOperand_eq_some hf hc hst
    rw [heq, msgBytes_eq]
    rintro v ⟨⟩
    exact hvoice.1

/-! ### Reset -/

/-- Every register is zero, no buffer byte is written and nothing is held (R700). -/
theorem legal_reset : Legal State.reset where
  cfg_wf := by decide
  mem_wf := memWf_nil
  mem_inside := nofun
  inLen_le := by decide
  drs_ok := nofun
  ers_ok := nofun
  resVal_le := by decide
  resLen_le := by decide
  resEnd_le := by decide
  msg_ok := ⟨by decide, by decide, by decide, by decide⟩
  outCnt_eq := rfl
  err_seen := fun h => absurd rfl h
  seen_done := nofun
  held_ok := heldOk_of_none rfl

/-- A reset in a run gives a legal state whatever it interrupts (R700, R701). -/
theorem legal_hwReset {s : State} (h : s.cfg.wf) : Legal (hwReset s) :=
  { legal_reset with
    cfg_wf := h
    mem_inside := nofun
    inLen_le := Nat.zero_le _
    resEnd_le := Nat.zero_le _
    held_ok := heldOk_of_none rfl }

/-! ### What the sink and the host do outside the block -/

/-- The invariant without a held command. -/
theorem Legal.release {s : State} (h : Legal s) : Legal { s with held := none } :=
  { h with held_ok := heldOk_of_none rfl }

/-- New fields of the sink and the host keep the state legal, unless the sink becomes ready for a held command. -/
theorem Legal.outside {s : State} {b : Bool} {l : List Bool} {m : List HostMove} {d : Word} (h : Legal s)
    (hb : s.held = none ∨ b = false) :
    Legal { s with sinkReady := b, sinkInput := l, hostMoves := m, hostData := d } :=
  { h with
    held_ok := fun c hc => by
      obtain ⟨-, o, ho⟩ := h.held_ok c hc
      have hheld : s.held = some c := hc
      refine ⟨by simpa [hheld] using hb, o, Eq.trans ?_ ho⟩
      apply encodeOf_congr <;> rfl }

/-! ### Commits -/

/-- A count put in a register is at most the count. -/
theorem toNat_ofNat_le (n : Nat) : (BitVec.ofNat 32 n).toNat ≤ n :=
  (BitVec.toNat_ofNat n 32).trans_le (Nat.mod_le n _)

/-- The completion update keeps the rest of the invariant and sets ERR_SEEN and DONE as R120 asks (R612). -/
theorem legal_complete {s : State} (h : Legal { s with held := none }) (e : ErrCode) : Legal (complete e s) :=
  { h with
    err_seen := fun he => by simpa using .inr he
    seen_done := fun _ => rfl
    held_ok := heldOk_of_none rfl }

theorem legal_hold {c : EncCmd} {o : EncOut} {s : State} (h : Legal { s with held := none })
    (hr : s.sinkReady = false) (ho : encodeOf c s = .ok o) : Legal (hold c s) :=
  { h with held_ok := heldOk_hold hr ho }

/-- OUT_CNT counts the bytes appended (R146). -/
theorem legal_commitEncode {o : EncOut} {s : State} (h : Legal { s with held := none }) (ho : latchOk o.ers) :
    Legal (commitEncode o s) :=
  { legal_complete h .ok with
    ers_ok := ho
    outCnt_eq := by
      have hcount : s.outCnt = BitVec.ofNat 32 s.out.length := h.outCnt_eq
      rw [commitEncode_outCnt, commitEncode_out, List.length_append, BitVec.ofNat_add, hcount]
    held_ok := heldOk_of_none rfl }

theorem legal_commitVlqdec {r : Nat × Nat} {s : State} (h : Legal { s with held := none }) (hr : r.1 ≤ vlqMaxValue) :
    Legal (commitVlqdec r s) :=
  { legal_complete h .ok with
    resVal_le := (toNat_ofNat_le _).trans hr
    held_ok := heldOk_of_none rfl }

theorem legal_commitDrs {l : Latch} {s : State} (h : Legal { s with held := none }) (hl : latchOk l) :
    Legal (commitDrs l s) :=
  { legal_complete h .ok with drs_ok := hl, held_ok := heldOk_of_none rfl }

theorem legal_commitErs {l : Latch} {s : State} (h : Legal { s with held := none }) (hl : latchOk l) :
    Legal (commitErs l s) :=
  { legal_complete h .ok with ers_ok := hl, held_ok := heldOk_of_none rfl }

/-! ### Decoded messages -/

/-- What the registers of a decoded message need (R110, R142 to R145): `size` is the capacity of IBUF. -/
structure RecOk (size : Nat) (r : MsgRec) : Prop where
  st_ok : 0x80 ≤ r.st.toNat
  len_le : r.len ≤ vlqMaxValue
  end_le : r.poff + r.len ≤ size
  words_ok : MsgWordsOk (msg0Word r) (msg1Word r)

/-- The message words of a channel-voice message agree (R142, R143). -/
theorem voiceRec_wordsOk {st : Byte} (sc : Bool) (q : Nat) (data : List Byte) (hv : voiceStatus st) :
    MsgWordsOk (msg0Word (voiceRec st sc q data)) (msg1Word (voiceRec st sc q data)) := by
  obtain ⟨hw0, hw1⟩ := voiceRec_words sc q data hv
  have hst := st.isLt
  obtain ⟨hSt, hFam, hChan, hRes, hTop, hKind, hEot, -⟩ :=
    msg0Image_fields false false sc hst (by omega : st.toNat / 16 * 16 < 256) (by omega : st.toNat % 16 < 16)
  obtain ⟨-, -, hVlqn, hRes1⟩ :=
    msg1Image_fields (data.getD 0 0).isLt (data.getD 1 0).isLt (by decide : 0 < 256)
  rw [hw0, hw1]
  have hSt' := BitVec.eq_of_toNat_eq hSt
  refine ⟨⟨hRes, hTop, hRes1⟩, fun _ => ⟨?_, ?_, BitVec.eq_of_toNat_eq hVlqn⟩, fun hk => ?_, ?_⟩
  · rw [hSt']
    exact BitVec.eq_of_toNat_eq (hFam.trans (familyOf_toNat st).symm)
  · rw [hSt']
    apply BitVec.eq_of_toNat_eq
    rw [BitVec.toNat_setWidth, hChan, Nat.mod_eq_of_lt (by omega)]
    exact (channelOf_toNat st).symm
  · exact absurd (hKind.symm.trans hk) (by decide)
  · rw [hEot, hKind, Bool.false_and]

/-- A VLQ of R310 has at least one byte. -/
theorem length_pos_of_vlqForm {bs : List Byte} (h : vlqForm bs) : 0 < bs.length := by
  cases bs with
  | nil => simp [vlqForm] at h
  | cons => simp

/-- The message words of a meta message agree (R142, R143). -/
theorem metaRec_wordsOk (p : Nat) (sc : Bool) (q : Nat) (t : Byte) {bs : List Byte} (hf : vlqForm bs) :
    MsgWordsOk (msg0Word (metaRec p sc q t bs)) (msg1Word (metaRec p sc q t bs)) := by
  obtain ⟨hw0, hw1⟩ := metaRec_words p sc q t hf
  have hpos := length_pos_of_vlqForm hf
  have hle := hf.2
  obtain ⟨hSt, hFam, hChan, hRes, hTop, hKind, hEot, -⟩ :=
    msg0Image_fields true (decide (t.toNat = 0x2F)) sc
      (by decide : 0xFF < 256) (by decide : 0xFF < 256) (by decide : 0 < 16)
  obtain ⟨hD0, hD1, hVlqn, hRes1⟩ := msg1Image_fields t.isLt (by decide : 0 < 256) (by omega : bs.length < 256)
  rw [hw0, hw1]
  refine ⟨⟨hRes, hTop, hRes1⟩, fun hk => ?_, fun _ => ⟨BitVec.eq_of_toNat_eq hSt, BitVec.eq_of_toNat_eq hFam,
    BitVec.eq_of_toNat_eq hChan, BitVec.eq_of_toNat_eq hD1, by omega, by omega⟩, ?_⟩
  · exact absurd (hKind.symm.trans hk) (by decide)
  · rw [hEot, hKind, Bool.true_and, BitVec.eq_of_toNat_eq hD0]
    exact decide_eq_decide.2 (BitVec.toNat_inj (y := 0x2F#8))

/-- Every message the parser answers lies in the input and fits the result registers (R451, R455, R464). -/
theorem recOk_of_msgParse {s : State} {p : Nat} {r : MsgRec} (h : msgParse s p = .ok r) : RecOk s.inLen.toNat r := by
  obtain ⟨st, sc, q, -, ⟨data, hv, hl, hat, rfl⟩ | ⟨rfl, t, bs, hf, -, hend, rfl⟩⟩ := msgParse_cases h
  · have hlen : data.length ≤ vlqMaxValue := by
      rw [hl, voiceLen]
      split <;> decide
    exact ⟨hv.1, hlen, hat.1, voiceRec_wordsOk sc q data hv⟩
  · exact ⟨(by decide : 0x80 ≤ (0xFF : Byte).toNat), vlqValue_le_max hf.2, hend, metaRec_wordsOk p sc q t hf⟩

/-- The commit of a message that lies in the input keeps the state legal (R460). -/
theorem legal_storeMsg {pre : Nat} {r : MsgRec} {s : State} (h : Legal { s with held := none })
    (hr : RecOk s.inLen.toNat r) : Legal (complete .ok (storeMsg pre r s)) :=
  { legal_complete h .ok with
    drs_ok := by
      rintro v ⟨⟩
      exact hr.st_ok
    resLen_le := (toNat_ofNat_le _).trans hr.len_le
    resEnd_le := (Nat.add_le_add (toNat_ofNat_le _) (toNat_ofNat_le _)).trans (hr.end_le.trans h.inLen_le)
    msg_ok := hr.words_ok
    held_ok := heldOk_of_none rfl }

/-- The commit of an event: its message and its delta (R480). -/
theorem legal_commitEvt {r : EvtRec} {s : State} (h : Legal { s with held := none })
    (hd : r.delta ≤ vlqMaxValue) (hr : RecOk s.inLen.toNat r.msg) : Legal (commitEvt r s) :=
  { legal_storeMsg (pre := r.deltaLen) h hr with
    resVal_le := (toNat_ofNat_le _).trans hd
    held_ok := heldOk_of_none rfl }

/-! ### Commands -/

/-- Every command keeps the state legal. A held one runs again with the sink ready, so the state it starts from need be
legal only up to HELD (R614). -/
theorem exec_keeps_legal {i : Instr} {s t : State} (h : Legal { s with held := none }) (he : exec i s = .next t) :
    Legal t := by
  rcases exec_next he with ⟨e, -, rfl⟩ | ⟨c, o, -, ho, rfl⟩ | ⟨-, r, hr, rfl⟩ | ⟨-, r, hr, rfl⟩ | ⟨-, r, hr, rfl⟩ |
    ⟨-, rfl⟩ | ⟨-, rfl⟩ | ⟨-, l, hl, rfl⟩ | ⟨-, l, hl, rfl⟩
  · exact legal_complete h e
  · rcases commitOrHold_cases c o s with ⟨-, hc⟩ | ⟨hready, hc⟩
    · rw [hc]
      exact legal_commitEncode h (encodeOf_ers_ok ho h.ers_ok)
    · rw [hc]
      exact legal_hold h hready ho
  · obtain ⟨bs, hf, -, rfl⟩ := vlqRead_eq_ok.1 hr
    exact legal_commitVlqdec h (vlqValue_le_max hf.2)
  · exact legal_storeMsg h (recOk_of_msgParse hr)
  · obtain ⟨ds, m, hf, -, hm, rfl⟩ := evtParse_eq_ok.1 hr
    exact legal_commitEvt h (vlqValue_le_max hf.2) (recOk_of_msgParse hm)
  · exact legal_commitDrs h nofun
  · exact legal_commitErs h nofun
  · exact legal_commitDrs h (latchOfImage_eq_some.1 hl).1
  · exact legal_commitErs h (latchOfImage_eq_some.1 hl).1

/-- The issue of any word keeps the state legal (R300, R570). -/
theorem issue_keeps_legal {w : Word} {s t : State} (h : Legal s) (hi : issue w s = .next t) : Legal t := by
  have hcmd : Legal { s with cmd := w, held := none } := { h with held_ok := heldOk_of_none rfl }
  rcases issue_next hi with ⟨i, -, he⟩ | rfl
  · exact exec_keeps_legal hcmd he
  · exact legal_complete hcmd .illegalCommand

/-! ### Host writes -/

/-- A byte stored inside a buffer keeps the memory canonical and inside the buffers (R217, R220). -/
theorem legal_storeByte {a : Nat} {b : Byte} {s : State} (h : Legal s) (hh : s.held = none)
    (ha : inBuffers s.cfg a) : Legal (storeByte a b s) :=
  { h with
    mem_wf := memWrite_wf a b h.mem_wf
    mem_inside := fun x hx => by
      rcases mem_memWrite hx with rfl | hx
      · exact ha
      · exact h.mem_inside x hx
    held_ok := heldOk_of_none hh }

/-- R130's clamp. -/
theorem clampInLen_le (s : State) (w : Word) : (clampInLen s w).toNat ≤ s.cfg.ibufSize :=
  (toNat_ofNat_le _).trans (Nat.min_le_right _ _)

/-- Every host write with no command held keeps the state legal (R106, R130, R217, R300). -/
theorem hostWrite_keeps_legal {w : Width} {a : Addr} {d : Word} {s t : State} (h : Legal s) (hh : s.held = none)
    (hw : hostWrite w a d s = .next t) : Legal t := by
  rcases hostWrite_next hw with ⟨i, hi, ha, rfl⟩ | ⟨i, hi, ha, rfl⟩ | ⟨-, -, hissue⟩ |
    ⟨-, rfl | rfl | rfl | rfl | rfl | rfl⟩
  · exact legal_storeByte h hh (.inl (by omega))
  · exact legal_storeByte h hh (.inr (by omega))
  · exact issue_keeps_legal h hissue
  · exact h
  · exact { h with held_ok := heldOk_of_none hh }
  · exact { h with held_ok := heldOk_of_none hh }
  · exact { h with held_ok := heldOk_of_none hh }
  · exact { h with held_ok := heldOk_of_none hh }
  · exact { h with inLen_le := clampInLen_le s d, held_ok := heldOk_of_none hh }

/-! ### The obligations -/

/-- Settles O58. -/
theorem resetStateIsLegal : Obligations.ResetStateIsLegal := legal_reset

/-- Settles O59, by the cases of a step: a reset, a held command's completion, nothing, a read or a write. -/
theorem stepKeepsStateLegal : Obligations.StepKeepsStateLegal := by
  intro s t h hstep
  obtain ⟨b, l, hdraw⟩ := drawSink_eq s
  rcases step_cases hstep with ⟨rest, -, rfl⟩ | ⟨-, ⟨c, -, -, hrun⟩ | ⟨hwait, hmove⟩⟩
  · exact legal_hwReset (by simpa using h.cfg_wf)
  · rw [hdraw] at hrun
    refine exec_keeps_legal ?_ hrun
    exact h.release.outside (.inl rfl)
  · rw [hdraw] at hwait hmove
    rcases hmove with ⟨-, rfl⟩ | ⟨rest, -, rfl⟩ | ⟨w, a, rest, -, hread⟩ | ⟨w, a, d, rest, hfree, -, hwrite⟩
    · exact h.outside hwait
    · exact h.outside hwait
    · obtain ⟨v, rfl⟩ := hostRead_next hread
      exact h.outside hwait
    · exact hostWrite_keeps_legal (h.outside hwait) hfree hwrite

end Sys2Proof
end

section
/-! SUPPORT. The register file as the host sees it (10_state.md): which accesses the bus answers, what a register read
returns, and what a register write stores. -/

namespace Sys2Proof

open Sys2Proof.Machine

/-! ### Register accesses -/

/-- A write of a register at its address, with no command held, is the register's own write (R103, R219(b)). -/
theorem step_writeReg {s : State} {r : Reg} {w : Word} {rest : List HostMove} (hh : s.held = none)
    (hm : s.hostMoves = .write .b32 (regAddr r) w :: rest) :
    step s = writeReg r w { drawSink s with hostMoves := rest } := by
  rw [step_write hh hm, hostWrite_regAddr]

/-- A read of a register at its address hands over the register (R103, R219(a)). -/
theorem step_readReg {s : State} {r : Reg} {rest : List HostMove} (hh : s.held = none ∨ (drawSink s).sinkReady = false)
    (hm : s.hostMoves = .read .b32 (regAddr r) :: rest) :
    step s = .next { drawSink s with hostMoves := rest, hostData := readReg r (drawSink s) } := by
  rw [step_read hh hm, hostRead_regAddr]
  cases r <;> rfl

/-- The registers of R103, in the order of their offsets. -/
def regList : List Reg :=
  [.cmd, .status, .arg0, .arg1, .arg2, .arg3, .inLen, .drs, .ers, .resVal, .resCons, .resMsg0, .resMsg1, .resLen,
    .resPoff, .outCnt]

/-- The statements' table of register contents is what the bus reads at each offset (R103, R110, R120). -/
theorem registerContents_eq (s : State) : registerContents s = regList.map fun r => (regOffset r, readReg r s) := by
  simp [registerContents, regList, regOffset, readReg, statusWord_eq, latchImage_eq]

/-- The read-only registers of R104. -/
def readOnlyRegs : List Reg :=
  [.status, .drs, .ers, .resVal, .resCons, .resMsg0, .resMsg1, .resLen, .resPoff, .outCnt]

theorem readOnlyOffsets_eq : readOnlyOffsets = readOnlyRegs.map regOffset := rfl

/-- A write to a read-only register is ignored (R104). -/
theorem writeReg_readOnly {r : Reg} (hr : r ∈ readOnlyRegs) (w : Word) (s : State) : writeReg r w s = .next s := by
  cases r
  case cmd | arg0 | arg1 | arg2 | arg3 | inLen => exact absurd hr (by decide)
  all_goals rfl

/-! ### CMD -/

/-- The issue of a word leaves that word in CMD, whatever the word does (R104, R570). -/
theorem issue_cmd {w : Word} {s t : State} (h : issue w s = .next t) : t.cmd = w := by
  rcases issue_next h with ⟨i, -, he⟩ | rfl
  · obtain ⟨-, hcmd, -⟩ := exec_frame he
    exact hcmd
  · rfl

/-- A host write that is not a CMD write keeps CMD (R104). -/
theorem hostWrite_cmd {w : Width} {a : Addr} {d : Word} {s t : State} (h : hostWrite w a d s = .next t)
    (hne : ¬ (w = .b32 ∧ a = 0)) : t.cmd = s.cmd := by
  rcases hostWrite_next h with ⟨i, -, -, rfl⟩ | ⟨i, -, -, rfl⟩ | ⟨ha, hw, -⟩ | ⟨-, rfl | rfl | rfl | rfl | rfl | rfl⟩
  · rfl
  · rfl
  · exact absurd ⟨hw, ha⟩ hne
  all_goals rfl

/-- A step without a reset and without a taken CMD write keeps CMD (R104). -/
theorem step_keeps_cmd {s t : State} (hn : noReset s)
    (hc : s.held ≠ none ∨ ∀ w, s.hostMoves.head? ≠ some (.write .b32 0 w)) (h : step s = .next t) : t.cmd = s.cmd := by
  rcases step_cases h with ⟨rest, hm, -⟩ | ⟨-, ⟨c, -, -, hrun⟩ | ⟨-, hmove⟩⟩
  · simp [noReset, hm] at hn
  · obtain ⟨-, hcmd, -⟩ := exec_frame hrun
    rw [hcmd, drawSink_cmd]
  · rcases hmove with ⟨-, rfl⟩ | ⟨rest, -, rfl⟩ | ⟨w, a, rest, -, hread⟩ | ⟨w, a, d, rest, hfree, hm, hwrite⟩
    · exact drawSink_cmd s
    · exact drawSink_cmd s
    · obtain ⟨v, rfl⟩ := hostRead_next hread
      exact drawSink_cmd s
    · have hne : ¬ (w = .b32 ∧ a = 0) := by
        rintro ⟨rfl, rfl⟩
        rcases hc with hheld | hhead
        · exact hheld hfree
        · exact hhead d (by rw [hm, List.head?_cons])
      exact (hostWrite_cmd hwrite hne).trans (drawSink_cmd s)

/-! ### The address map -/

/-- Below 0x40 the registers stand at the multiples of 4 (R103). -/
theorem regAt_isSome : ∀ n < 0x40, (regAt n).isSome = decide (n % 4 = 0) := by decide

/-- The register window: the aligned addresses below 0x40 (R103, R220). -/
theorem exists_windowOf_eq_reg {a : Addr} : (∃ r, windowOf a = .reg r) ↔ a.toNat < 0x40 ∧ a.toNat % 4 = 0 := by
  unfold windowOf
  split
  · rename_i hlt
    have hsome := regAt_isSome a.toNat hlt
    cases hr : regAt a.toNat <;> simp_all
  · repeat' split
    all_goals
      simp only [reduceCtorEq, exists_false, false_iff]
      omega

/-- The IBUF window: the 2^28 addresses from its base (R220). -/
theorem windowOf_eq_ibuf {a : Addr} {i : Nat} : windowOf a = .ibuf i ↔ a.toNat = ibufBase + i ∧ i < 2 ^ 28 := by
  have hi : ibufBase = 0x10000000 := rfl
  have he : ebufBase = 0x20000000 := rfl
  unfold windowOf
  repeat' split
  all_goals simp only [reduceCtorEq, Window.ibuf.injEq, false_iff]
  all_goals omega

/-- The EBUF window: the 2^28 addresses from its base (R220). -/
theorem windowOf_eq_ebuf {a : Addr} {i : Nat} : windowOf a = .ebuf i ↔ a.toNat = ebufBase + i ∧ i < 2 ^ 28 := by
  have hi : ibufBase = 0x10000000 := rfl
  have he : ebufBase = 0x20000000 := rfl
  unfold windowOf
  repeat' split
  all_goals simp only [reduceCtorEq, Window.ebuf.injEq, false_iff]
  all_goals omega

/-- The accesses of a window that the bus takes: a 32-bit access of a register, an 8-bit access of a buffer index below the
buffer's size, and none elsewhere (R216, R217, R221). -/
def takes (cfg : Config) (w : Width) : Window → Prop
  | .reg _ => w = .b32
  | .ibuf i => w = .b8 ∧ i < cfg.ibufSize
  | .ebuf i => w = .b8 ∧ i < cfg.ebufSize
  | .misalignedReg => False
  | .reservedReg => False
  | .unmapped => False

/-- With the capacities of R10 the bus takes exactly the accesses that R216, R217 and R220 allow. -/
theorem accessOk_iff_takes {cfg : Config} (hwf : cfg.wf) {w : Width} {a : Addr} :
    accessOk cfg w a ↔ takes cfg w (windowOf a) := by
  obtain ⟨-, hisize, -, hesize⟩ := hwf
  constructor
  · rintro (⟨rfl, hreg⟩ | ⟨rfl, hbuf | hbuf⟩)
    · obtain ⟨r, hr⟩ := exists_windowOf_eq_reg.2 hreg
      rw [hr]
      rfl
    · have hwin : windowOf a = .ibuf (a.toNat - ibufBase) := windowOf_eq_ibuf.2 (by omega)
      rw [hwin]
      exact ⟨rfl, by omega⟩
    · have hwin : windowOf a = .ebuf (a.toNat - ebufBase) := windowOf_eq_ebuf.2 (by omega)
      rw [hwin]
      exact ⟨rfl, by omega⟩
  · intro h
    cases hwin : windowOf a with
    | reg r =>
      rw [hwin] at h
      exact .inl ⟨h, exists_windowOf_eq_reg.1 ⟨r, hwin⟩⟩
    | ibuf i =>
      rw [hwin] at h
      obtain ⟨hw, hi⟩ := h
      have ha := (windowOf_eq_ibuf.1 hwin).1
      exact .inr ⟨hw, .inl (by omega)⟩
    | ebuf i =>
      rw [hwin] at h
      obtain ⟨hw, hi⟩ := h
      have ha := (windowOf_eq_ebuf.1 hwin).1
      exact .inr ⟨hw, .inr (by omega)⟩
    | misalignedReg | reservedReg | unmapped =>
      rw [hwin] at h
      exact h.elim

/-- The bus answers a read it takes (R216, R217). -/
theorem hostRead_of_takes {w : Width} {a : Addr} {s : State} (h : takes s.cfg w (windowOf a)) :
    ∃ t, hostRead w a s = .next t := by
  unfold hostRead readBuffer
  cases hwin : windowOf a with
  | reg r | ibuf i | ebuf i =>
    rw [hwin] at h
    exact ⟨_, if_pos h⟩
  | misalignedReg | reservedReg | unmapped =>
    rw [hwin] at h
    exact h.elim

/-- The bus refuses a read it does not take (R105, R216, R217, R221). -/
theorem hostRead_of_not_takes {w : Width} {a : Addr} {s : State} (h : ¬ takes s.cfg w (windowOf a)) :
    ∃ r, hostRead w a s = .refused r := by
  unfold hostRead readBuffer
  cases hwin : windowOf a with
  | reg r | ibuf i | ebuf i =>
    rw [hwin] at h
    exact ⟨_, if_neg h⟩
  | misalignedReg | reservedReg | unmapped => exact ⟨_, rfl⟩

/-- The bus refuses a write it does not take (R105, R216, R217, R221). -/
theorem hostWrite_of_not_takes {w : Width} {a : Addr} {d : Word} {s : State} (h : ¬ takes s.cfg w (windowOf a)) :
    ∃ r, hostWrite w a d s = .refused r := by
  unfold hostWrite writeBuffer
  cases hwin : windowOf a with
  | reg r | ibuf i | ebuf i =>
    rw [hwin] at h
    exact ⟨_, if_neg h⟩
  | misalignedReg | reservedReg | unmapped => exact ⟨_, rfl⟩

/-! ### The obligations -/

/-- Settles O9, by the table of registers. -/
theorem registerReadReturnsContents : Obligations.RegisterReadReturnsContents := by
  intro s off v rest hh hmem hm
  rw [registerContents_eq, List.mem_map] at hmem
  obtain ⟨r, -, hr⟩ := hmem
  obtain ⟨rfl, rfl⟩ := Prod.mk.inj hr
  exact step_readReg hh hm

/-- Settles O11, register by register. -/
theorem operandWritesStore : Obligations.OperandWritesStore := by
  intro s off w rest hh hm
  refine ⟨?_, ?_, ?_, ?_, ?_⟩
  · rintro rfl
    exact step_writeReg (r := .arg0) hh hm
  · rintro rfl
    exact step_writeReg (r := .arg1) hh hm
  · rintro rfl
    exact step_writeReg (r := .arg2) hh hm
  · rintro rfl
    exact step_writeReg (r := .arg3) hh hm
  · rintro rfl
    rw [step_writeReg (r := .inLen) hh hm]
    simp only [writeReg, clampInLen, drawSink_cfg]

/-- Settles O10, by the register's own write or read, and by the cases of a step for what keeps CMD. -/
theorem readOnlyWritesIgnoredAndCmdHolds : Obligations.ReadOnlyWritesIgnoredAndCmdHolds := by
  refine ⟨?_, ?_, ?_, ?_, ?_, rfl⟩
  · intro s off w rest hh hoff hm
    rw [readOnlyOffsets_eq, List.mem_map] at hoff
    obtain ⟨r, hr, rfl⟩ := hoff
    rw [step_writeReg hh hm, writeReg_readOnly hr]
  · intro s t w rest hh hm h
    rw [step_writeReg (r := .cmd) hh hm] at h
    exact issue_cmd h
  · exact fun s t hn hc h => step_keeps_cmd hn hc h
  · intro s rest hh hm
    rw [step_readReg (r := .cmd) (.inl hh) hm, readReg, drawSink_cmd]
  · intro s t rest hm h
    rw [step_reset hm] at h
    rw [← Host.Outcome.next.inj h]
    rfl

/-- Settles O14, by the windows of the address map. -/
theorem accessesOutsideTheMapAreRefused : Obligations.AccessesOutsideTheMapAreRefused := by
  intro s w a rest hwf hh
  have hcfg : ({ drawSink s with hostMoves := rest } : State).cfg = s.cfg := drawSink_cfg s
  rw [accessOk_iff_takes hwf, ← hcfg]
  refine ⟨fun hm => ?_, fun data hm hno => ?_⟩
  · rw [step_read hh hm]
    exact ⟨hostRead_of_takes, hostRead_of_not_takes⟩
  · by_cases hfree : s.held = none
    · rw [step_write hfree hm]
      exact hostWrite_of_not_takes hno
    · exact ⟨_, step_write_busy hfree (hh.resolve_left hfree) hm⟩

end Sys2Proof
end

section
/-! SUPPORT. What a command leaves unchanged (R106, R112, R147, R616): the other side's latch, which it does not read either,
the operands and buffers, and the result registers of other commands. -/

namespace Sys2Proof

open Sys2Proof.Machine

/-! ### The encode commands -/

/-- The encode commands are the commands that can be held (R149). -/
theorem isEncode_iff {i : Instr} : isEncode i ↔ ∃ c, i = heldInstr c := by
  constructor
  · rintro (rfl | rfl | rfl | rfl)
    · exact ⟨.vlqenc, rfl⟩
    · exact ⟨.msgenc, rfl⟩
    · exact ⟨.evtenc, rfl⟩
    · exact ⟨.cvenc, rfl⟩
  · rintro ⟨c, rfl⟩
    cases c <;> decide

/-- An encode command that completes with OK has committed its output (R507, R614). -/
theorem exec_encode_ok {i : Instr} {s t : State} (hi : isEncode i) (h : exec i s = .next t) (hh : t.held = none)
    (hok : t.err = .ok) : ∃ o : EncOut, t = afterAppend s o.bytes o.ers := by
  obtain ⟨c, rfl⟩ := isEncode_iff.1 hi
  rw [exec_heldInstr] at h
  rcases finish_next.1 h with ⟨o, -, rfl⟩ | ⟨e, he, rfl⟩
  · rcases commitOrHold_cases c o s with ⟨-, hc⟩ | ⟨-, hc⟩
    · exact ⟨o, by rw [hc, commitEncode_eq]⟩
    · simp [hc] at hh
  · rw [complete_err, encodeOf_raise he] at hok
    exact absurd hok (by decide)

/-- Only the encode commands append to OUT (R616). -/
theorem exec_keeps_out {i : Instr} {s t : State} (hi : ¬ isEncode i) (h : exec i s = .next t) :
    t.out = s.out ∧ t.outCnt = s.outCnt := by
  rcases exec_next h with ⟨e, -, rfl⟩ | ⟨c, o, hc, -⟩ | ⟨-, r, -, rfl⟩ | ⟨-, r, -, rfl⟩ | ⟨-, r, -, rfl⟩ |
    ⟨-, rfl⟩ | ⟨-, rfl⟩ | ⟨-, l, -, rfl⟩ | ⟨-, l, -, rfl⟩
  case inr.inl => exact absurd (isEncode_iff.2 ⟨c, hc⟩) hi
  all_goals exact ⟨rfl, rfl⟩

/-! ### The result registers -/

/-- The result registers a command does not write (R147). -/
theorem exec_keeps_results {i : Instr} {s t : State} (h : exec i s = .next t) :
    (i ≠ .vlqdec → i ≠ .evtdec → t.resVal = s.resVal) ∧
    (i ≠ .msgdec → i ≠ .evtdec →
      t.resMsg0 = s.resMsg0 ∧ t.resMsg1 = s.resMsg1 ∧ t.resLen = s.resLen ∧ t.resPoff = s.resPoff) ∧
    ((i = .dclr ∨ i = .eclr ∨ i = .ldrs ∨ i = .lers) → t.resCons = s.resCons) := by
  rcases exec_next h with ⟨e, -, rfl⟩ | ⟨c, o, rfl, -, rfl⟩ | ⟨rfl, r, -, rfl⟩ | ⟨rfl, r, -, rfl⟩ | ⟨rfl, r, -, rfl⟩ |
    ⟨rfl, rfl⟩ | ⟨rfl, rfl⟩ | ⟨rfl, l, -, rfl⟩ | ⟨rfl, l, -, rfl⟩
  case inr.inl =>
    have hlatch : ¬ (heldInstr c = .dclr ∨ heldInstr c = .eclr ∨ heldInstr c = .ldrs ∨ heldInstr c = .lers) := by
      cases c <;> decide
    rcases commitOrHold_cases c o s with ⟨-, hc⟩ | ⟨-, hc⟩ <;> simp [hc, hlatch]
  all_goals simp

/-! ### The latches -/

/-- A command whose result does not depend on an update `g` of the state, and whose completion and commit commute with it,
answers the updated next state from the updated state. -/
theorem finish_commutes {α : Type} {r r' : Attempt α} {commit : α → State → State} {s t : State} (g : State → State)
    (hr : r' = r) (hcomplete : ∀ e, complete e (g s) = g (complete e s))
    (hcommit : ∀ a, commit a (g s) = g (commit a s)) (h : finish r commit s = .next t) :
    finish r' commit (g s) = .next (g t) := by
  rw [hr, finish_next]
  rcases finish_next.1 h with ⟨a, ha, rfl⟩ | ⟨e, he, rfl⟩
  · exact .inl ⟨a, ha, (hcommit a).symm⟩
  · exact .inr ⟨e, he, (hcomplete e).symm⟩

/-- The state with another encode latch. -/
def withErs (l : Latch) (s : State) : State := { s with ers := l }

/-- The state with another decode latch. -/
def withDrs (l : Latch) (s : State) : State := { s with drs := l }

/-- The decode side does not read ERS, and keeps it (R112). -/
theorem exec_withErs {i : Instr} (hi : i = .vlqdec ∨ i = .msgdec ∨ i = .evtdec ∨ i = .dclr ∨ i = .ldrs) (l : Latch)
    {s t : State} (h : exec i s = .next t) : exec i (withErs l s) = .next (withErs l t) := by
  rcases hi with rfl | rfl | rfl | rfl | rfl
  · exact finish_commutes (withErs l) (vlqLoop_congr rfl rfl _ _ _ _ _) (fun _ => rfl) (fun _ => rfl) h
  · exact finish_commutes (withErs l) (msgParse_congr rfl rfl rfl _) (fun _ => rfl) (fun _ => rfl) h
  · exact finish_commutes (withErs l) (evtParse_congr rfl rfl rfl _) (fun _ => rfl) (fun _ => rfl) h
  · obtain rfl := Host.Outcome.next.inj h
    rfl
  · exact finish_commutes (withErs l) rfl (fun _ => rfl) (fun _ => rfl) h

/-- The encode side does not read DRS, and keeps it (R112). -/
theorem exec_withDrs {i : Instr} (hi : isEncode i ∨ i = .eclr ∨ i = .lers) (l : Latch) {s t : State}
    (h : exec i s = .next t) : exec i (withDrs l s) = .next (withDrs l t) := by
  rcases hi with hi | rfl | rfl
  · obtain ⟨c, rfl⟩ := isEncode_iff.1 hi
    rw [exec_heldInstr] at h ⊢
    have hcommit : ∀ o, commitOrHold c o (withDrs l s) = withDrs l (commitOrHold c o s) := by
      intro o
      simp only [commitOrHold, apply_ite (withDrs l)]
      rfl
    have hout : encodeOf c (withDrs l s) = encodeOf c s := by
      apply encodeOf_congr <;> rfl
    exact finish_commutes (withDrs l) hout (fun _ => rfl) hcommit h
  · obtain rfl := Host.Outcome.next.inj h
    rfl
  · exact finish_commutes (withDrs l) rfl (fun _ => rfl) (fun _ => rfl) h

/-! ### The obligations -/

/-- Settles O53: the register image of a legal latch is a legal operand of LDRS and LERS, and stands for that latch. -/
theorem savedLatchReloads : Obligations.SavedLatchReloads := by
  intro s u hdrs hers
  have hload : ∀ l, latchOk l → u.arg1 = latchImage l → latchOperand u.arg1 = .ok l := by
    intro l hl himg
    rw [latchOperand_eq_ok, himg, latchOfImage_eq_some]
    exact ⟨hl, latchImage_toNat l⟩
  refine ⟨fun himg => ⟨commitDrs s.drs u, ?_, rfl, rfl⟩, fun himg => ⟨commitErs s.ers u, ?_, rfl, rfl⟩⟩
  · rw [exec, execLdrs, hload s.drs hdrs himg, finish_ok]
  · rw [exec, execLers, hload s.ers hers himg, finish_ok]

/-- Settles O54. That a side keeps the other latch follows from its not reading it: from a state with the latch put back as it
is, it answers its own next state with that latch put back. -/
theorem latchesAreIndependent : Obligations.LatchesAreIndependent := by
  intro i s t l h
  refine ⟨fun hi => ⟨?_, exec_withErs hi l h⟩, fun hi => ⟨?_, exec_withDrs hi l h⟩⟩
  · have hsame : t = withErs s.ers t := Host.Outcome.next.inj (h.symm.trans (exec_withErs hi s.ers h))
    rw [hsame]
    rfl
  · have hsame : t = withDrs s.drs t := Host.Outcome.next.inj (h.symm.trans (exec_withDrs hi s.drs h))
    rw [hsame]
    rfl

/-- Settles O55, by the frame of every command and the one for OUT. -/
theorem commandsKeepOperandsAndBuffers : Obligations.CommandsKeepOperandsAndBuffers := by
  intro i s t h
  obtain ⟨hcfg, hcmd, ⟨h0, h1, h2, h3⟩, hlen, hmem, hready, hinput, hmoves, hdata, hepoch⟩ := exec_frame h
  exact ⟨hcfg, hcmd, h0, h1, h2, h3, hlen, hready, hinput, hmoves, hdata, hepoch, fun a => by rw [hmem],
    fun hi => exec_keeps_out hi h⟩

/-- Settles O56, by the frame of the result registers and the commit of an encode command. -/
theorem resultRegistersPerCommand : Obligations.ResultRegistersPerCommand := by
  intro i s t h
  obtain ⟨hval, hmsg, hcons⟩ := exec_keeps_results h
  refine ⟨hval, hmsg, hcons, fun hi hh hok => ?_⟩
  obtain ⟨o, rfl⟩ := exec_encode_ok hi h hh hok
  exact ⟨o.bytes, rfl, rfl, rfl⟩

end Sys2Proof
end

section
/-! SUPPORT. The buffers, OUT and the sink hold (20_memory.md): a host access of a buffer byte, which unwritten bytes stop a
command, how a held command completes, and what only grows without a reset. -/

namespace Sys2Proof

open Sys2Proof.Machine

/-! ### Host accesses of a buffer byte -/

/-- The bus address of a byte inside a buffer does not wrap (R220). -/
theorem toNat_bufferAddr {cfg : Config} {base size i : Nat} (hwf : cfg.wf)
    (hb : (base, size) ∈ [(0x10000000, cfg.ibufSize), (0x20000000, cfg.ebufSize)]) (hi : i < size) :
    (BitVec.ofNat 32 (base + i)).toNat = base + i ∧ inBuffers cfg (base + i) := by
  obtain ⟨-, hisize, -, hesize⟩ := hwf
  have hibase : ibufBase = 0x10000000 := rfl
  have hebase : ebufBase = 0x20000000 := rfl
  simp only [List.mem_cons, Prod.mk.injEq, List.not_mem_nil, or_false] at hb
  rw [BitVec.toNat_ofNat]
  omega

/-- A byte inside a buffer stands in that buffer's window, below its size (R217, R220). -/
theorem windowOf_of_inBuffers {cfg : Config} {a : Addr} (hwf : cfg.wf) (h : inBuffers cfg a.toNat) :
    (∃ i, windowOf a = .ibuf i ∧ i < cfg.ibufSize) ∨ (∃ i, windowOf a = .ebuf i ∧ i < cfg.ebufSize) := by
  obtain ⟨-, hisize, -, hesize⟩ := hwf
  rcases h with h | h
  · exact .inl ⟨a.toNat - ibufBase, windowOf_eq_ibuf.2 (by omega), by omega⟩
  · exact .inr ⟨a.toNat - ebufBase, windowOf_eq_ebuf.2 (by omega), by omega⟩

/-- An 8-bit read inside a buffer hands over the byte (R219(a)). -/
theorem hostRead_inBuffers {a : Addr} {s : State} (hwf : s.cfg.wf) (h : inBuffers s.cfg a.toNat) :
    hostRead .b8 a s = .next (giveHost ((busByte s a.toNat).setWidth 32) s) := by
  unfold hostRead
  rcases windowOf_of_inBuffers hwf h with ⟨i, hw, hi⟩ | ⟨i, hw, hi⟩ <;> rw [hw] <;> exact if_pos ⟨rfl, hi⟩

/-- An 8-bit write inside a buffer stores the low byte (R219(d); log 7). -/
theorem hostWrite_inBuffers {a : Addr} {d : Word} {s : State} (hwf : s.cfg.wf) (h : inBuffers s.cfg a.toNat) :
    hostWrite .b8 a d s = .next (storeByte a.toNat (d.setWidth 8) s) := by
  unfold hostWrite
  rcases windowOf_of_inBuffers hwf h with ⟨i, hw, hi⟩ | ⟨i, hw, hi⟩ <;> rw [hw] <;> exact if_pos ⟨rfl, hi⟩

/-- The step of an 8-bit read inside a buffer, when no held command completes in it (R201, R202, R219(a)). -/
theorem step_readBuffer {s : State} {base size i : Nat} {rest : List HostMove} (hwf : s.cfg.wf)
    (hh : s.held = none ∨ (drawSink s).sinkReady = false)
    (hb : (base, size) ∈ [(0x10000000, s.cfg.ibufSize), (0x20000000, s.cfg.ebufSize)]) (hi : i < size)
    (hm : s.hostMoves = .read .b8 (BitVec.ofNat 32 (base + i)) :: rest) :
    step s = .next { drawSink s with hostMoves := rest, hostData := (busByte s (base + i)).setWidth 32 } := by
  obtain ⟨haddr, hin⟩ := toNat_bufferAddr hwf hb hi
  have hcfg : ({ drawSink s with hostMoves := rest } : State).cfg = s.cfg := drawSink_cfg s
  rw [step_read hh hm, hostRead_inBuffers (by rwa [hcfg]) (by rwa [hcfg, haddr]), haddr, busByte, drawSink_mem,
    drawSink_epoch]
  rfl

/-! ### Unwritten bytes -/

/-- A command is refused exactly when its attempt is. -/
theorem finish_refused {α : Type} {x : Attempt α} {f : α → State → State} {s : State} {r : Refusal} :
    finish x f s = .refused r ↔ x = .refuse r := by
  cases x <;> simp

/-- `vlq_read` is refused at its first byte when that byte is unwritten (R204, I-1). -/
theorem vlqRead_unwritten {s : State} {p : Nat} (e : ErrCode) (hl : p < s.inLen.toNat) (hn : ibufByte s p = none) :
    vlqRead s e p = .refuse (.unwrittenIbufByte p) := by
  rw [vlqRead, vlqMaxGroups, vlqLoop_succ, nextByte_eq_refuse.2 ⟨hl, hn, rfl⟩, bind_refuse_left]

/-- A decode command is refused at its first byte when that byte is unwritten (R204, I-1; log 5). -/
theorem exec_decode_unwritten {i : Instr} {s : State} (hi : i = .vlqdec ∨ i = .msgdec ∨ i = .evtdec)
    (hl : s.arg0.toNat < s.inLen.toNat) (hn : ibufByte s s.arg0.toNat = none) :
    exec i s = .refused (.unwrittenIbufByte s.arg0.toNat) := by
  rcases hi with rfl | rfl | rfl
  · rw [exec, execVlqdec, vlqRead_unwritten _ hl hn, finish_refuse]
  · rw [exec, execMsgdec, msgParse, nextByte_eq_refuse.2 ⟨hl, hn, rfl⟩, bind_refuse_left, finish_refuse]
  · rw [exec, execEvtdec, evtParse, vlqRead_unwritten _ hl hn, bind_refuse_left, finish_refuse]

/-- An event is refused at the first unwritten byte from its offset on: in its delta, or in the message after a delta whose
bytes are all written (R204, I-1). -/
theorem evtParse_refuse {s : State} {p : Nat} {r : Refusal} (h : evtParse s p = .refuse r) :
    ∃ j, r = .unwrittenIbufByte j ∧ j < s.inLen.toNat ∧ firstUnwritten (ibufByte s) p j := by
  simp only [evtParse, bind_eq_refuse, reduceCtorEq, and_false, exists_false, or_false] at h
  rcases h with h | ⟨d, hd, h⟩
  · exact vlqLoop_refuse h
  · obtain ⟨ds, -, hat, rfl⟩ := vlqRead_eq_ok.1 hd
    obtain ⟨j, hr, hl, hf⟩ := msgParse_refuse h
    exact ⟨j, hr, hl, firstUnwritten_append hat hf⟩

/-- A decode command is refused at nothing but the first unwritten byte of its input (R204, I-1; log 5). -/
theorem exec_decode_refused {i : Instr} {s : State} {r : Refusal} (hi : i = .vlqdec ∨ i = .msgdec ∨ i = .evtdec)
    (h : exec i s = .refused r) :
    ∃ j, r = .unwrittenIbufByte j ∧ j < s.inLen.toNat ∧ firstUnwritten (ibufByte s) s.arg0.toNat j := by
  rcases hi with rfl | rfl | rfl
  · exact vlqLoop_refuse (finish_refused.1 h)
  · exact msgParse_refuse (finish_refused.1 h)
  · exact evtParse_refuse (finish_refused.1 h)

/-- Data bytes are refused at the first one when it is unwritten (R204, I-1). -/
theorem ebufBytes_unwritten {s : State} {off n : Nat} (hpos : 0 < n) (hn : ebufByte s off = none) :
    ebufBytes s off n = .refuse (.unwrittenEbufByte off) := by
  cases n with
  | zero => exact absurd hpos (by decide)
  | succ n => simp only [ebufBytes, hn]

/-- A message is refused exactly when its checks pass and its data bytes are refused (R204, R501, R504). -/
theorem messageOut_eq_refuse {s : State} {r : Refusal} :
    messageOut s = .refuse r ↔
      wfStatus s.arg1 ∧ wfRange s.cfg s.arg2 s.arg3 ∧ ebufBytes s s.arg2.toNat s.arg3.toNat = .refuse r := by
  simp only [messageOut, bind_eq_refuse, check_ne_refuse, check_eq_ok, statusOk_iff, rangeOk_iff, false_or,
    reduceCtorEq, and_false, exists_false, or_false, exists_const]

/-- An event's encoding is refused exactly when its delta passes and its message is refused (R515, R516). -/
theorem evtencOut_eq_refuse {s : State} {r : Refusal} :
    evtencOut s = .refuse r ↔ wfValue s.arg0 ∧ messageOut s = .refuse r := by
  simp only [evtencOut, bind_eq_refuse, check_ne_refuse, check_eq_ok, valueOk_iff, false_or, reduceCtorEq, and_false,
    exists_false, or_false, exists_const]

/-- VLQENC reads no buffer byte (R425). -/
theorem vlqencOut_ne_refuse {s : State} {r : Refusal} : vlqencOut s ≠ .refuse r := by
  simp [vlqencOut, bind_eq_refuse, check_ne_refuse]

/-- CVENC takes its data bytes from ARG3, not from EBUF (R306, R525). -/
theorem cvencOut_ne_refuse {s : State} {r : Refusal} : cvencOut s ≠ .refuse r := by
  unfold cvencOut
  cases familyOperand s.arg1 <;> simp [bind_eq_refuse, check_ne_refuse]

/-- MSGENC and EVTENC with their operands in range are refused at the first data byte when it is unwritten
(R204, I-1; log 5). -/
theorem exec_encode_unwritten {i : Instr} {s : State} (hi : i = .msgenc ∨ i = .evtenc)
    (hops : i.operandsWf s.cfg s.arg0 s.arg1 s.arg2 s.arg3) (hpos : 0 < s.arg3.toNat)
    (hn : ebufByte s s.arg2.toNat = none) : exec i s = .refused (.unwrittenEbufByte s.arg2.toNat) := by
  have hdata := ebufBytes_unwritten hpos hn
  rcases hi with rfl | rfl
  · obtain ⟨hst, hrange⟩ := hops
    exact finish_refused.2 (messageOut_eq_refuse.2 ⟨hst, hrange, hdata⟩)
  · obtain ⟨hval, hst, hrange⟩ := hops
    exact finish_refused.2 (evtencOut_eq_refuse.2 ⟨hval, messageOut_eq_refuse.2 ⟨hst, hrange, hdata⟩⟩)

/-- Only MSGENC and EVTENC among the encode commands are refused, and only by their data bytes (R204, I-1; log 5). -/
theorem encodeOf_refuse {c : EncCmd} {s : State} {r : Refusal} (h : encodeOf c s = .refuse r) :
    (heldInstr c = .msgenc ∨ heldInstr c = .evtenc) ∧ ebufBytes s s.arg2.toNat s.arg3.toNat = .refuse r := by
  cases c with
  | vlqenc => exact absurd h vlqencOut_ne_refuse
  | cvenc => exact absurd h cvencOut_ne_refuse
  | msgenc => exact ⟨.inl rfl, (messageOut_eq_refuse.1 h).2.2⟩
  | evtenc => exact ⟨.inr rfl, (messageOut_eq_refuse.1 (evtencOut_eq_refuse.1 h).2).2.2⟩

/-- An encode command is refused at nothing but the first unwritten byte of its data (R204, I-1; log 5). -/
theorem exec_encode_refused {i : Instr} {s : State} {r : Refusal} (hi : isEncode i) (h : exec i s = .refused r) :
    ∃ j, r = .unwrittenEbufByte j ∧ (i = .msgenc ∨ i = .evtenc) ∧ j < s.arg2.toNat + s.arg3.toNat ∧
      firstUnwritten (ebufByte s) s.arg2.toNat j := by
  obtain ⟨c, rfl⟩ := isEncode_iff.1 hi
  rw [exec_heldInstr, finish_refused] at h
  obtain ⟨hc, hdata⟩ := encodeOf_refuse h
  obtain ⟨j, hr, hl, hf⟩ := ebufBytes_refuse hdata
  exact ⟨j, hr, hc, hl, hf⟩

/-- The latch commands read no buffer byte (R550 to R565). -/
theorem exec_latch_ne_refused {i : Instr} {s : State} {r : Refusal}
    (hi : i = .dclr ∨ i = .eclr ∨ i = .ldrs ∨ i = .lers) : exec i s ≠ .refused r := by
  have hop : latchOperand s.arg1 ≠ .refuse r := by
    unfold latchOperand
    cases latchOfImage s.arg1 <;> simp
  rcases hi with rfl | rfl | rfl | rfl
  · exact nofun
  · exact nofun
  · exact fun h => hop (finish_refused.1 h)
  · exact fun h => hop (finish_refused.1 h)

/-- The three groups of commands: decode, encode and latch control (R301). -/
theorem instr_groups (i : Instr) :
    (i = .vlqdec ∨ i = .msgdec ∨ i = .evtdec) ∨ isEncode i ∨ (i = .dclr ∨ i = .eclr ∨ i = .ldrs ∨ i = .lers) := by
  cases i <;> decide

/-! ### The sink hold -/

/-- An encode command that ends held passed its checks, found the sink not ready, and changed HELD alone (R614). -/
theorem exec_heldInstr_hold {c : EncCmd} {s t : State} (h : exec (heldInstr c) s = .next t) (hh : t.held ≠ none) :
    ∃ o, encodeOf c s = .ok o ∧ s.sinkReady = false ∧ t = hold c s := by
  rw [exec_heldInstr] at h
  rcases finish_next.1 h with ⟨o, ho, rfl⟩ | ⟨e, -, rfl⟩
  · rcases commitOrHold_cases c o s with ⟨-, hc⟩ | ⟨hready, hc⟩
    · exact absurd (by rw [hc, commitEncode_held]) hh
    · exact ⟨o, ho, hready, hc⟩
  · exact absurd (complete_held e s) hh

/-- An encode command whose checks pass commits its output when the sink is ready (R614). -/
theorem exec_heldInstr_ready {c : EncCmd} {o : EncOut} {s : State} (ho : encodeOf c s = .ok o)
    (hr : s.sinkReady = true) : exec (heldInstr c) s = .next (commitEncode o s) := by
  rw [exec_heldInstr, ho, finish_ok, commitOrHold, if_pos hr]

/-! ### What only grows -/

/-- From `s` to `t` OUT is appended to, and DONE and ERR_SEEN stay set (R211, R120). -/
def OnlyGrows (s t : State) : Prop :=
  (∃ bs, t.out = s.out ++ bs) ∧ (s.done = true → t.done = true) ∧ (s.errSeen = true → t.errSeen = true)

/-- Nothing grows where OUT, DONE and ERR_SEEN are kept. -/
theorem OnlyGrows.of_eq {s t : State} (ho : t.out = s.out) (hd : t.done = s.done) (he : t.errSeen = s.errSeen) :
    OnlyGrows s t :=
  ⟨⟨[], by rw [ho, List.append_nil]⟩, by rw [hd]; exact id, by rw [he]; exact id⟩

theorem OnlyGrows.trans {s t u : State} (hst : OnlyGrows s t) (htu : OnlyGrows t u) : OnlyGrows s u := by
  obtain ⟨⟨bs, hbs⟩, hdone, hseen⟩ := hst
  obtain ⟨⟨cs, hcs⟩, hdone', hseen'⟩ := htu
  exact ⟨⟨bs ++ cs, by rw [hcs, hbs, List.append_assoc]⟩, hdone' ∘ hdone, hseen' ∘ hseen⟩

/-- The completion update appends nothing and clears neither flag (R612). -/
theorem complete_onlyGrows (e : ErrCode) (s : State) : OnlyGrows s (complete e s) :=
  ⟨⟨[], (List.append_nil _).symm⟩, fun _ => rfl, fun h => by simp [h]⟩

/-- An encode command's commit appends its output; its hold appends nothing (R210, R614). -/
theorem commitOrHold_onlyGrows (c : EncCmd) (o : EncOut) (s : State) : OnlyGrows s (commitOrHold c o s) := by
  rcases commitOrHold_cases c o s with ⟨-, hc⟩ | ⟨-, hc⟩
  · rw [hc]
    exact ⟨⟨o.bytes, commitEncode_out o s⟩, fun _ => rfl, fun h => by rwa [commitEncode_errSeen]⟩
  · rw [hc]
    exact .of_eq rfl rfl rfl

/-- No command takes back a byte of OUT or clears DONE or ERR_SEEN (R211, R619). -/
theorem exec_onlyGrows {i : Instr} {s t : State} (h : exec i s = .next t) : OnlyGrows s t := by
  rcases exec_next h with ⟨e, -, rfl⟩ | ⟨c, o, -, -, rfl⟩ | ⟨-, r, -, rfl⟩ | ⟨-, r, -, rfl⟩ | ⟨-, r, -, rfl⟩ |
    ⟨-, rfl⟩ | ⟨-, rfl⟩ | ⟨-, l, -, rfl⟩ | ⟨-, l, -, rfl⟩
  · exact complete_onlyGrows e s
  · exact commitOrHold_onlyGrows c o s
  -- The other commits write fields that do not grow, and then complete.
  all_goals exact complete_onlyGrows .ok _

/-- The issue of any word: CMD is stored, then a command runs or IllegalCommand completes (R300, R570). -/
theorem issue_onlyGrows {w : Word} {s t : State} (h : issue w s = .next t) : OnlyGrows s t := by
  have hcmd : OnlyGrows s { s with cmd := w } := .of_eq rfl rfl rfl
  rcases issue_next h with ⟨i, -, he⟩ | rfl
  · exact hcmd.trans (exec_onlyGrows he)
  · exact hcmd.trans (complete_onlyGrows _ _)

/-- A host write reaches OUT, DONE and ERR_SEEN only through a command it issues (R219). -/
theorem hostWrite_onlyGrows {w : Width} {a : Addr} {d : Word} {s t : State} (h : hostWrite w a d s = .next t) :
    OnlyGrows s t := by
  rcases hostWrite_next h with ⟨i, -, -, rfl⟩ | ⟨i, -, -, rfl⟩ | ⟨-, -, hissue⟩ |
    ⟨-, rfl | rfl | rfl | rfl | rfl | rfl⟩
  case inr.inr.inl => exact issue_onlyGrows hissue
  all_goals exact .of_eq rfl rfl rfl

/-- The sink's draw and the host's next move being taken are outside the block. -/
theorem drawSink_onlyGrows (s : State) (moves : List HostMove) :
    OnlyGrows s { drawSink s with hostMoves := moves } := by
  obtain ⟨b, l, hdraw⟩ := drawSink_eq s
  rw [hdraw]
  exact .of_eq rfl rfl rfl

/-! ### The obligations -/

/-- Settles O12: the address does not wrap, so the bus stores the byte there. -/
theorem bufferWriteStoresOneByte : Obligations.BufferWriteStoresOneByte := by
  intro s base size i w rest hwf hh hb hi hm
  obtain ⟨haddr, hin⟩ := toNat_bufferAddr hwf hb hi
  have hcfg : ({ drawSink s with hostMoves := rest } : State).cfg = s.cfg := drawSink_cfg s
  refine ⟨memWrite s.mem (base + i) (w.setWidth 8), ?_, ?_, fun a ha => memRead_memWrite_other _ _ ha⟩
  · rw [step_write hh hm, hostWrite_inBuffers (by rwa [hcfg]) (by rwa [hcfg, haddr]), haddr, storeByte, drawSink_mem]
  · rw [memRead_memWrite_same]
    rfl

/-- Settles O47: a hold keeps everything its output depends on, and the commit clears HELD. -/
theorem holdChangesNothingElse : Obligations.HoldChangesNothingElse := by
  intro c s t _ h hc
  obtain ⟨o, ho, hready, rfl⟩ := exec_heldInstr_hold h (by simp [hc])
  refine ⟨rfl, hready, commitEncode o { s with sinkReady := true }, ?_, ?_, rfl, rfl⟩
  · refine exec_heldInstr_ready (Eq.trans ?_ ho) rfl
    apply encodeOf_congr <;> rfl
  · refine exec_heldInstr_ready (s := { hold c s with sinkReady := true }) (Eq.trans ?_ ho) rfl
    apply encodeOf_congr <;> rfl

/-- Settles O50, by the three groups of commands. -/
theorem onlyUnwrittenBytesStopACommand : Obligations.OnlyUnwrittenBytesStopACommand := by
  intro i s
  refine ⟨nofun, fun r h => ?_, exec_decode_unwritten, exec_encode_unwritten⟩
  rcases instr_groups i with hi | hi | hi
  · obtain ⟨j, hr, hl, hf⟩ := exec_decode_refused hi h
    exact .inl ⟨j, hr, hi, hl, hf⟩
  · exact .inr (exec_encode_refused hi h)
  · exact absurd h (exec_latch_ne_refused hi)

/-- Settles O57, by the cases of a step without a reset. -/
theorem outputAndStickyFlagsOnlyGrow : Obligations.OutputAndStickyFlagsOnlyGrow := by
  intro s t hn hstep
  show OnlyGrows s t
  have hdraw := drawSink_onlyGrows s
  rcases step_cases hstep with ⟨rest, hm, -⟩ | ⟨-, ⟨c, -, -, hrun⟩ | ⟨-, hmove⟩⟩
  · simp [noReset, hm] at hn
  · exact (hdraw (drawSink s).hostMoves).trans (exec_onlyGrows hrun)
  · rcases hmove with ⟨-, rfl⟩ | ⟨rest, -, rfl⟩ | ⟨w, a, rest, -, hread⟩ | ⟨w, a, d, rest, -, -, hwrite⟩
    · exact hdraw (drawSink s).hostMoves
    · exact hdraw rest
    · obtain ⟨v, rfl⟩ := hostRead_next hread
      exact hdraw rest
    · exact (hdraw rest).trans (hostWrite_onlyGrows hwrite)

/-- Settles O13: the bus hands over the byte written, or the free value. -/
theorem bufferReadReturnsByte : Obligations.BufferReadReturnsByte := by
  intro s base size i rest hwf hh hb hi hm
  have hstep := step_readBuffer hwf hh hb hi hm
  refine ⟨fun b hbyte => ?_, fun hnone => ?_⟩
  · rwa [busByte, hbyte, Option.getD_some] at hstep
  · rwa [busByte, hnone, Option.getD_none] at hstep

end Sys2Proof
end

section
/-! SUPPORT. The command word and the assembly forms (R300, R301, R330): both directions of the decoder, what a CMD write
issues, and how a form's host writes read back and run. -/

namespace Sys2Proof

open Sys2Proof.Machine

/-! ### The command word -/

/-- A word decodes to a command exactly when it is the command's word (R301). -/
theorem decode_eq_command {w : Word} {i : Instr} : decode w = .command i ↔ w = encode i := by
  constructor
  · intro h
    apply BitVec.eq_of_toNat_eq
    rw [toNat_of_decode h, encode_toNat]
  · rintro rfl
    exact decode_encode i

/-- The opcodes are 0x1 to 0xB (R301). -/
theorem opcode_range (i : Instr) : 1 ≤ (opcode i).toNat ∧ (opcode i).toNat ≤ 0xB := by
  cases i <;> decide

/-- The step of a CMD write with no command held issues the word (R300). -/
theorem step_writeCmd {s : State} {w : Word} {i : Instr} {rest : List HostMove} (hh : s.held = none)
    (hm : s.hostMoves = writeReg32 .cmd w :: rest) (hw : decode w = .command i) :
    step s = exec i { drawSink s with hostMoves := rest, cmd := w } := by
  rw [step_writeReg (r := .cmd) hh hm, writeReg, issue_command hw]

/-- The sink's draw reads and writes nothing but the level and the levels still to come (log 2). -/
theorem drawSink_eq_headD (s : State) :
    drawSink s = { s with sinkReady := s.sinkInput.headD s.sinkReady, sinkInput := s.sinkInput.tail } := by
  cases h : s.sinkInput with
  | nil =>
    simp only [drawSink, h, List.headD_nil, List.tail_nil]
    rw [← h]
  | cons b l => simp [drawSink, h]

/-! ### The operand writes of a form -/

/-- The operand registers, in the order R330 writes them. -/
def argRegs : List Reg := [.arg0, .arg1, .arg2, .arg3]

/-- The operands with another one written: the new one counts, one left out changes nothing (R330). -/
def putArg (r : Reg) (o : Option Word) (a : ArgWrites) : ArgWrites :=
  match r with
  | .arg0 => { a with a0 := o.or a.a0 }
  | .arg1 => { a with a1 := o.or a.a1 }
  | .arg2 => { a with a2 := o.or a.a2 }
  | .arg3 => { a with a3 := o.or a.a3 }
  | _ => a

@[simp] theorem putArg_none (r : Reg) (a : ArgWrites) : putArg r none a = a := by
  cases r <;> rfl

/-- Every operand written once gives the operands. -/
@[simp] theorem putArg_all (a : ArgWrites) :
    putArg .arg3 a.a3 (putArg .arg2 a.a2 (putArg .arg1 a.a1 (putArg .arg0 a.a0 ⟨none, none, none, none⟩))) = a := by
  simp [putArg]

/-- A form is the writes of its listed operands in ARG order, then the write of its command's word (R330). -/
theorem assemble_eq (a : Asm) :
    assemble a = argWrite .arg0 (asmArgs a).a0 ++ (argWrite .arg1 (asmArgs a).a1 ++
      (argWrite .arg2 (asmArgs a).a2 ++ (argWrite .arg3 (asmArgs a).a3 ++ issueWrite (asmInstr a)))) := by
  cases a <;> simp [assemble, asmArgs, asmInstr, argWrite]

/-- The reader takes an operand write into the operands (R330). -/
theorem readForm_argWrite {r : Reg} (hr : r ∈ argRegs) (a : ArgWrites) (o : Option Word) (moves : List HostMove) :
    readForm a (argWrite r o ++ moves) = readForm (putArg r o a) moves := by
  cases o with
  | none => simp [argWrite]
  | some w =>
    simp only [argRegs, List.mem_cons, List.not_mem_nil, or_false] at hr
    rcases hr with rfl | rfl | rfl | rfl <;> rfl

/-- The reader ends at a command's word, with the form of the operands read (R330). -/
theorem readForm_issueWrite (a : ArgWrites) (i : Instr) (rest : List HostMove) :
    readForm a (issueWrite i ++ rest) = (formOf i a).map fun f => (f, rest) := by
  simp [issueWrite, writeReg32, readForm, decode_encode, regAddr, regOffset]

/-! ### Running a form -/

/-- The state after `n` steps that took host moves up to `moves` and stored the operands `a`. -/
def loaded (n : Nat) (a : ArgWrites) (moves : List HostMove) (s : State) : State :=
  { withArgs a (drawSink^[n] s) with hostMoves := moves }

theorem loaded_held {n : Nat} {a : ArgWrites} {moves : List HostMove} {s : State} (hh : s.held = none) :
    (loaded n a moves s).held = none :=
  (drawSink_iterate_held n s).trans hh

/-- The sink's draw neither reads nor writes the operands and the host's moves. -/
theorem drawSink_loaded (n : Nat) (a : ArgWrites) (moves : List HostMove) (s : State) :
    drawSink (loaded n a moves s) = loaded (n + 1) a moves s := by
  rw [loaded, loaded, Function.iterate_succ_apply', drawSink_eq_headD, drawSink_eq_headD (drawSink^[n] s)]
  rfl

/-- An operand write takes one step and stores the operand; one left out takes none (R106, R330). -/
theorem run_argWrite {r : Reg} (hr : r ∈ argRegs) (o : Option Word) (k n : Nat) (a : ArgWrites)
    (moves : List HostMove) {s : State} (hh : s.held = none) :
    run ((argWrite r o).length + k) (loaded n a (argWrite r o ++ moves) s) =
      run k (loaded (n + (argWrite r o).length) (putArg r o a) moves s) := by
  cases o with
  | none => simp [argWrite]
  | some w =>
    have hstep : step (loaded n a (writeReg32 r w :: moves) s) = .next (loaded (n + 1) (putArg r (some w) a) moves s) := by
      have hmoves : (loaded n a (writeReg32 r w :: moves) s).hostMoves = .write .b32 (regAddr r) w :: moves := rfl
      rw [step_writeReg (loaded_held hh) hmoves, drawSink_loaded]
      simp only [argRegs, List.mem_cons, List.not_mem_nil, or_false] at hr
      rcases hr with rfl | rfl | rfl | rfl <;> rfl
    rw [argWrite, List.length_singleton, Nat.add_comm 1 k]
    exact run_next hstep

/-- The last write of a form runs its command (R300, R330). -/
theorem run_issueWrite (i : Instr) (n : Nat) (a : ArgWrites) (rest : List HostMove) {s : State} (hh : s.held = none) :
    run (issueWrite i).length (loaded n a (issueWrite i ++ rest) s) =
      exec i { loaded (n + 1) a rest s with cmd := encode i } := by
  have hmoves : (loaded n a (issueWrite i ++ rest) s).hostMoves = writeReg32 .cmd (encode i) :: rest := rfl
  rw [issueWrite, List.length_singleton, run_one, ← issueWrite,
    step_writeCmd (loaded_held hh) hmoves (decode_encode i), drawSink_loaded]
  rfl

/-- A form's host writes store its operands, one a step, and then run its command (R330). -/
theorem run_assemble (a : Asm) (rest : List HostMove) {s : State} (hh : s.held = none) :
    run (assemble a).length (loaded 0 ⟨none, none, none, none⟩ (assemble a ++ rest) s) =
      exec (asmInstr a) { loaded (assemble a).length (asmArgs a) rest s with cmd := encode (asmInstr a) } := by
  have hlen : 0 + (argWrite .arg0 (asmArgs a).a0).length + (argWrite .arg1 (asmArgs a).a1).length +
      (argWrite .arg2 (asmArgs a).a2).length + (argWrite .arg3 (asmArgs a).a3).length + 1 = (assemble a).length := by
    simp only [assemble_eq, List.length_append, issueWrite, List.length_singleton]
    omega
  conv_lhs => rw [assemble_eq]
  simp only [List.append_assoc, List.length_append]
  rw [run_argWrite (by decide) _ _ _ _ _ hh, run_argWrite (by decide) _ _ _ _ _ hh,
    run_argWrite (by decide) _ _ _ _ _ hh, run_argWrite (by decide) _ _ _ _ _ hh, run_issueWrite _ _ _ _ hh, putArg_all,
    hlen]

/-! ### The obligations -/

/-- Settles O3, write by write: each operand write fills its place, and the command's word ends the form. -/
theorem assemblyFormReadsBack : Obligations.AssemblyFormReadsBack := by
  intro a rest
  rw [disassemble, assemble_eq]
  simp only [List.append_assoc]
  rw [readForm_argWrite (by decide), readForm_argWrite (by decide), readForm_argWrite (by decide),
    readForm_argWrite (by decide), readForm_issueWrite, putArg_all, formOf_asm, Option.map_some]

/-- Settles O4: at the start no operand is stored and every move is to come. -/
theorem assemblyFormRunsItsCommand : Obligations.AssemblyFormRunsItsCommand := by
  intro a rest s hh hm
  have hrun := run_assemble a rest hh
  rwa [← hm] at hrun

/-- Settles O1: the eleven words are the commands' own, and a word's command has the word as its number. -/
theorem commandWordsDecode : Obligations.CommandWordsDecode := by
  refine ⟨decode_encode .vlqdec, decode_encode .vlqenc, decode_encode .msgdec, decode_encode .evtdec,
    decode_encode .msgenc, decode_encode .evtenc, decode_encode .cvenc, decode_encode .dclr, decode_encode .eclr,
    decode_encode .ldrs, decode_encode .lers, fun w hw i h => ?_⟩
  have hnum := toNat_of_decode h
  obtain ⟨hlow, hhigh⟩ := opcode_range i
  omega

/-- Settles O2. -/
theorem decodeEncodeAgree : Obligations.DecodeEncodeAgree := by
  refine ⟨fun w i => decode_eq_command, fun i => ?_⟩
  have hlt := (encode i).isLt
  rw [decodeTableWord, Nat.mod_eq_of_lt hlt, if_pos hlt, BitVec.ofNat_toNat, BitVec.setWidth_eq, decode_encode]

/-- Settles O6. -/
theorem cmdWriteRunsDecodedCommand : Obligations.CmdWriteRunsDecodedCommand := by
  intro s w rest hm
  exact ⟨fun i hh hw => step_writeCmd hh hm hw, fun hh hr => step_write_busy hh hr hm⟩

/-- Settles O8: the word put before the host's moves is a CMD write. -/
theorem fetchWordIssuesCommand : Obligations.FetchWordIssuesCommand := by
  intro s i
  have hword : BitVec.ofNat 32 ((encode i).toNat % 2 ^ 32) = encode i := by
    rw [Nat.mod_eq_of_lt (encode i).isLt, BitVec.ofNat_toNat, BitVec.setWidth_eq]
  have hmoves : (s.withFetchWord 32 (encode i).toNat).hostMoves = writeReg32 .cmd (encode i) :: s.hostMoves := by
    rw [State.withFetchWord, hword, writeReg32]
  rw [step_writeCmd rfl hmoves (decode_encode i), State.withFetchWord, drawSink_eq_headD, drawSink_eq_headD s]

end Sys2Proof
end

section
/-! SUPPORT. The operands (R302, R305, R306, R307, R311): the length of a VLQ, what CVENC appends, the latch images, which
operands a command rejects, and which it does not read. -/

namespace Sys2Proof

open Sys2Proof.Machine

/-! ### The length of a VLQ -/

/-- A value that fits in `n` groups has at most `n` groups (R311). -/
theorem vlqGroups_le_of_lt {v n : Nat} (hn : 1 ≤ n) (h : v < 2 ^ (7 * n)) : vlqGroups v ≤ n := by
  by_cases h4 : 4 ≤ n
  · exact (vlqGroups_le v).trans h4
  · obtain rfl | rfl | rfl : n = 1 ∨ n = 2 ∨ n = 3 := by omega
    all_goals
      unfold vlqGroups
      split_ifs <;> omega

/-! ### CVENC -/

/-- The data bytes a status takes from ARG3 (R17, R306). -/
theorem packedData_voiceLen (st : Byte) (w : Word) :
    packedData (voiceLen st) w = [BitVec.ofNat 8 w.toNat, BitVec.ofNat 8 (w.toNat / 2 ^ 8)].take (voiceLen st) := by
  rw [packedData_eq, voiceLen]
  split <;> rfl

/-- A legal family has a number of data bytes (R17, R527). -/
theorem exists_familyOperand {f : Word} (hf : wfFamily f) : ∃ n, familyOperand f = some n := by
  rw [← Option.isSome_iff_exists, familyOperand_isSome]
  exact decide_eq_true hf

/-- CVENC's output for legal operands (R525). -/
theorem cvencOut_ok {s : State} {st : Byte} (hf : wfFamily s.arg1) (hc : wfChannel s.arg2) (hd : wfValue s.arg0)
    (hst : st.toNat = s.arg1.toNat + s.arg2.toNat) :
    cvencOut s = .ok {
      bytes := vlqBytes s.arg0.toNat ++ compressed s.ers st
        ([BitVec.ofNat 8 s.arg3.toNat, BitVec.ofNat 8 (s.arg3.toNat / 2 ^ 8)].take (voiceLen st))
      ers := some st } := by
  obtain ⟨n, hn⟩ := exists_familyOperand hf
  obtain ⟨hbyte, hlen, -⟩ := familyOperand_eq_some hn hc hst
  rw [cvencOut_eq_ok]
  refine ⟨n, hn, hc, hd, ?_⟩
  rw [hbyte, hlen, packedData_voiceLen, msgBytes_eq, withDelta]

/-- An encode command whose checks pass is held while the sink is not ready (R614). -/
theorem exec_heldInstr_notReady {c : EncCmd} {o : EncOut} {s : State} (ho : encodeOf c s = .ok o)
    (hr : s.sinkReady = false) : exec (heldInstr c) s = .next (hold c s) := by
  rw [exec_heldInstr, ho, finish_ok, commitOrHold, hr]
  rfl

/-! ### Latch images -/

/-- The legal images are those of the legal latches (R307). -/
theorem wfImage_iff {img : Word} :
    wfImage img ↔ ∃ l : Latch, latchOk l ∧ img.toNat = l.elim 0 (fun v => 0x100 + v.toNat) := by
  constructor
  · rintro (h | ⟨hlow, hhigh⟩)
    · exact ⟨none, nofun, h⟩
    · have hv : (BitVec.ofNat 8 (img.toNat - 0x100)).toNat = img.toNat - 0x100 := by
        rw [BitVec.toNat_ofNat]
        omega
      refine ⟨some (BitVec.ofNat 8 (img.toNat - 0x100)), ?_, ?_⟩
      · rintro v hmem
        obtain rfl := Option.some.inj hmem
        omega
      · rw [Option.elim_some, hv]
        omega
  · rintro ⟨l, hl, himg⟩
    cases l with
    | none => exact .inl himg
    | some v =>
      have hlow := hl v rfl
      have hhigh := v.isLt
      rw [Option.elim_some] at himg
      exact .inr (by omega)

/-- The latch commands reject exactly the illegal images (R560, R565). -/
theorem latchOperand_raises {img : Word} : latchOperand img = .raise .invalidArgument ↔ ¬ wfImage img := by
  simp only [latchOperand_eq_raise, and_true, Option.eq_none_iff_forall_ne_some, ne_eq, latchOfImage_eq_some, wfImage_iff,
    not_exists]

/-! ### InvalidArgument -/

/-- A command whose commits leave other states completes with InvalidArgument exactly when its attempt raises it (R617). -/
theorem finish_eq_invalid {α : Type} {x : Attempt α} {commit : α → State → State} {s : State}
    (hcommit : ∀ a, commit a s ≠ afterError s .invalidArgument) :
    finish x commit s = .next (afterError s .invalidArgument) ↔ x = .raise .invalidArgument := by
  constructor
  · intro h
    rcases finish_next.1 h with ⟨a, -, ha⟩ | ⟨e, he, hstate⟩
    · exact absurd ha.symm (hcommit a)
    · have hcode : e = .invalidArgument := (congrArg State.err hstate).symm
      rw [he, hcode]
  · rintro rfl
    rw [finish_raise, complete_error (by decide)]

/-- A state with the code OK is no completion with InvalidArgument. -/
theorem ne_afterError_of_err {s t : State} (h : t.err = .ok) : t ≠ afterError s .invalidArgument := by
  rintro rfl
  cases h

/-- A commit of an encode command leaves OK, and a hold leaves HELD (R507, R614). -/
theorem commitOrHold_ne_afterError (c : EncCmd) (o : EncOut) (s : State) :
    commitOrHold c o s ≠ afterError s .invalidArgument := by
  rcases commitOrHold_cases c o s with ⟨-, hc⟩ | ⟨-, hc⟩ <;> rw [hc]
  · exact ne_afterError_of_err rfl
  · intro h
    exact absurd (congrArg State.held h) (by simp [afterError])

/-- The message's checks fail exactly for an operand out of its range (R501, R504). -/
theorem messageOut_raises {s : State} :
    messageOut s = .raise .invalidArgument ↔ ¬ (wfStatus s.arg1 ∧ wfRange s.cfg s.arg2 s.arg3) := by
  refine ⟨fun h hwf => ?_, messageOut_bad⟩
  obtain ⟨hs, hr⟩ := hwf
  rw [messageOut, statusOk_iff.2 hs, rangeOk_iff.2 hr] at h
  simp [bind_eq_raise, ebufBytes_ne_raise] at h

/-- An encode command raises InvalidArgument exactly for an operand out of its range (R305). -/
theorem encodeOf_raises {c : EncCmd} {s : State} :
    encodeOf c s = .raise .invalidArgument ↔ ¬ (heldInstr c).operandsWf s.cfg s.arg0 s.arg1 s.arg2 s.arg3 := by
  cases c with
  | vlqenc =>
    refine ⟨fun h hd => ?_, vlqencOut_bad⟩
    rw [encodeOf, vlqencOut_eq_ok.2 ⟨hd, rfl⟩] at h
    cases h
  | msgenc => exact messageOut_raises
  | evtenc =>
    refine ⟨fun h hwf => ?_, evtencOut_bad⟩
    obtain ⟨hd, hmsg⟩ := hwf
    rw [encodeOf, evtencOut, valueOk_iff.2 hd, check_true, bind_ok_left, bind_eq_raise, messageOut_raises] at h
    simp [hmsg] at h
  | cvenc =>
    refine ⟨fun h hwf => ?_, cvencOut_bad⟩
    obtain ⟨hf, hc, hd⟩ := hwf
    obtain ⟨n, hn⟩ := exists_familyOperand hf
    rw [encodeOf, cvencOut_eq_ok.2 ⟨n, hn, hc, hd, rfl⟩] at h
    cases h

/-- A command completes with InvalidArgument exactly for an operand out of its range (R305). -/
theorem exec_eq_invalid {i : Instr} {s : State} :
    exec i s = .next (afterError s .invalidArgument) ↔ ¬ i.operandsWf s.cfg s.arg0 s.arg1 s.arg2 s.arg3 := by
  have hencode (c : EncCmd) : exec (heldInstr c) s = .next (afterError s .invalidArgument) ↔
      ¬ (heldInstr c).operandsWf s.cfg s.arg0 s.arg1 s.arg2 s.arg3 := by
    rw [exec_heldInstr, finish_eq_invalid fun o => commitOrHold_ne_afterError c o s, encodeOf_raises]
  cases i with
  | vlqdec =>
    refine iff_of_false (fun h => ?_) (not_not_intro trivial)
    rcases vlqRead_raise ((finish_eq_invalid fun _ => ne_afterError_of_err rfl).1 h) with h | h <;> cases h
  | msgdec =>
    refine iff_of_false (fun h => ?_) (not_not_intro trivial)
    exact absurd (msgParse_raise ((finish_eq_invalid fun _ => ne_afterError_of_err rfl).1 h)) (by decide)
  | evtdec =>
    refine iff_of_false (fun h => ?_) (not_not_intro trivial)
    exact absurd (evtParse_raise ((finish_eq_invalid fun _ => ne_afterError_of_err rfl).1 h)) (by decide)
  | vlqenc => exact hencode .vlqenc
  | msgenc => exact hencode .msgenc
  | evtenc => exact hencode .evtenc
  | cvenc => exact hencode .cvenc
  | dclr | eclr =>
    exact iff_of_false (fun h => ne_afterError_of_err rfl (Host.Outcome.next.inj h)) (not_not_intro trivial)
  | ldrs | lers => exact (finish_eq_invalid fun _ => ne_afterError_of_err rfl).trans latchOperand_raises

/-! ### The operands a command does not read -/

/-- An encode command's output does not depend on the ARG registers it does not read (R302). -/
theorem encodeOf_withOtherArgs (c : EncCmd) (w0 w1 w2 w3 : Word) (s : State) :
    encodeOf c (withOtherArgs (heldInstr c) w0 w1 w2 w3 s) = encodeOf c s := by
  cases c with
  | vlqenc => rfl
  | msgenc => exact messageOut_congr rfl rfl rfl rfl rfl rfl
  | evtenc => rfl
  | cvenc => rfl

/-- A commit or a hold neither reads nor writes an ARG register (R106, R614). -/
theorem commitOrHold_withOtherArgs (i : Instr) (c : EncCmd) (o : EncOut) (w0 w1 w2 w3 : Word) (s : State) :
    commitOrHold c o (withOtherArgs i w0 w1 w2 w3 s) = withOtherArgs i w0 w1 w2 w3 (commitOrHold c o s) := by
  simp only [commitOrHold, apply_ite (withOtherArgs i w0 w1 w2 w3)]
  rfl

/-! ### The obligations -/

/-- Settles O18: a VLQ of n bytes is below 2^(7 n). -/
theorem vlqBytesMinimalLength : Obligations.VlqBytesMinimalLength := by
  refine ⟨rfl, fun v => ⟨fun h => ?_, fun h1 h2 => ?_, fun h1 h2 => ?_, fun h1 _ => ?_, fun bs hvlq hval _ => ?_⟩⟩
  · rw [vlqBytes_one (by omega)]
    rfl
  · rw [vlqBytes_two (by omega) (by omega)]
    rfl
  · rw [vlqBytes_three (by omega) (by omega)]
    rfl
  · rw [vlqBytes_four (by omega)]
    rfl
  · have hpos : bs ≠ [] := by
      rintro rfl
      cases hvlq
    rw [vlqBytes_length]
    exact vlqGroups_le_of_lt (List.length_pos_iff.2 hpos) (hval ▸ vlqValue_lt bs)

/-- Settles O42. -/
theorem operandRangesDecideInvalidArgument : Obligations.OperandRangesDecideInvalidArgument :=
  fun _ _ => ⟨exec_eq_invalid.2, fun hwf h => exec_eq_invalid.1 h hwf⟩

/-- Settles O41: a failed check raises, and an output is held or committed. -/
theorem cvencOutcome : Obligations.CvencOutcome := by
  refine ⟨decode_encode .cvenc, fun s => ⟨(exec_eq_invalid (i := .cvenc)).2, fun st hf hc hd hst => ?_⟩⟩
  have hout : encodeOf .cvenc s = .ok _ := cvencOut_ok hf hc hd hst
  refine ⟨fun hr => exec_heldInstr_notReady hout hr, fun hr => ?_⟩
  exact (exec_heldInstr_ready hout hr).trans (congrArg _ (commitEncode_eq _ s))

/-- Settles O43, command by command: what a command computes does not depend on the other words, and what it commits keeps
them. -/
theorem unreadOperandsHaveNoEffect : Obligations.UnreadOperandsHaveNoEffect := by
  intro i s t w0 w1 w2 w3 h
  have hencode (c : EncCmd) (h : exec (heldInstr c) s = .next t) :
      exec (heldInstr c) (withOtherArgs (heldInstr c) w0 w1 w2 w3 s) =
        .next (withOtherArgs (heldInstr c) w0 w1 w2 w3 t) := by
    rw [exec_heldInstr] at h ⊢
    exact finish_commutes (withOtherArgs (heldInstr c) w0 w1 w2 w3) (encodeOf_withOtherArgs c w0 w1 w2 w3 s)
      (fun _ => rfl) (fun o => commitOrHold_withOtherArgs _ c o w0 w1 w2 w3 s) h
  cases i with
  | vlqdec =>
    exact finish_commutes (withOtherArgs _ w0 w1 w2 w3) (vlqLoop_congr rfl rfl _ _ _ _ _) (fun _ => rfl) (fun _ => rfl) h
  | msgdec =>
    exact finish_commutes (withOtherArgs _ w0 w1 w2 w3) (msgParse_congr rfl rfl rfl _) (fun _ => rfl) (fun _ => rfl) h
  | evtdec =>
    exact finish_commutes (withOtherArgs _ w0 w1 w2 w3) (evtParse_congr rfl rfl rfl _) (fun _ => rfl) (fun _ => rfl) h
  | vlqenc => exact hencode .vlqenc h
  | msgenc => exact hencode .msgenc h
  | evtenc => exact hencode .evtenc h
  | cvenc => exact hencode .cvenc h
  | dclr | eclr =>
    obtain rfl := Host.Outcome.next.inj h
    rfl
  | ldrs | lers => exact finish_commutes (withOtherArgs _ w0 w1 w2 w3) rfl (fun _ => rfl) (fun _ => rfl) h

/-- Settles O52: an illegal image is rejected, and a legal one is the image of exactly one latch. -/
theorem latchLoadsImage : Obligations.LatchLoadsImage := by
  refine ⟨decode_encode .ldrs, decode_encode .lers, fun s => ⟨fun hbad => ?_, fun l hl himg => ?_⟩⟩
  · exact ⟨(exec_eq_invalid (i := .ldrs)).2 hbad, (exec_eq_invalid (i := .lers)).2 hbad⟩
  · have hload : latchOperand s.arg1 = .ok l := latchOperand_eq_ok.2 (latchOfImage_eq_some.2 ⟨hl, himg⟩)
    constructor
    · rw [exec, execLdrs, hload, finish_ok]
      simp [commitDrs, complete]
    · rw [exec, execLers, hload, finish_ok]
      simp [commitErs, complete]

end Sys2Proof
end

section
/-! SUPPORT. The pseudo-instructions (R331): the EBUF bytes of ENDTRK, and the event that the form after them emits. -/

namespace Sys2Proof

open Sys2Proof.Machine

/-- The low byte of a byte's word is the byte. -/
theorem ofNat_setWidth_byte (b : Byte) : BitVec.ofNat 8 (b.setWidth 32).toNat = b := by
  rw [BitVec.ofNat_toNat, BitVec.setWidth_setWidth_of_le _ (by decide), BitVec.setWidth_eq]

/-! ### EBUF writes -/

/-- An 8-bit write inside EBUF stores its byte there and nothing else (R202, R217, R330). -/
theorem step_ebufWrite {s : State} {k : Nat} {b : Byte} {rest : List HostMove} (hwf : s.cfg.wf) (hk : k < s.cfg.ebufSize)
    (hh : s.held = none) (hm : s.hostMoves = ebufWrite k b :: rest) :
    ∃ m, step s = .next { drawSink s with hostMoves := rest, mem := m } ∧ memRead m (ebufBase + k) = some b ∧
      ∀ a, a ≠ ebufBase + k → memRead m a = memRead s.mem a := by
  have ⟨_, _, _, hsize⟩ := hwf
  rw [ebufWrite, ebufAddr_eq (hk.trans_le hsize)] at hm
  have hebuf : (ebufBase, s.cfg.ebufSize) ∈ [(0x10000000, s.cfg.ibufSize), (0x20000000, s.cfg.ebufSize)] := .tail _ (.head _)
  have hstore := bufferWriteStoresOneByte s ebufBase s.cfg.ebufSize k (b.setWidth 32) rest hwf hh hebuf hk hm
  rwa [ofNat_setWidth_byte] at hstore

/-- A write at or beyond EBUF_SIZE is refused, also at an index with no bus address (R217, R221; log 22). -/
theorem step_ebufWrite_refused {s : State} {k : Nat} {b : Byte} {rest : List HostMove} (hk : s.cfg.ebufSize ≤ k)
    (hh : s.held = none) (hm : s.hostMoves = ebufWrite k b :: rest) : ∃ r, step s = .refused r := by
  rw [step_write hh hm]
  apply hostWrite_of_not_takes
  rw [windowOf_ebufAddr]
  split
  · rintro ⟨-, hlt⟩
    exact absurd (drawSink_cfg s ▸ hlt) (Nat.not_lt.2 hk)
  · exact id

/-! ### Events -/

/-- `k` steps take the host's moves up to `rest` and append one event: the delta, the status unless ERS holds it, and the
data bytes (R502, R515, R525). -/
def EmitsEvent (k : Nat) (s : State) (d : Word) (st : Byte) (data : List Byte) (rest : List HostMove) : Prop :=
  ∃ t, run k s = .next t ∧ t.err = .ok ∧ t.hostMoves = rest ∧ t.ers = some st ∧
    t.out = s.out ++ (vlqBytes d.toNat ++ compressed s.ers st data)

/-- The state in which a form's command runs: its operands stored, its word in CMD and its writes taken (R330). -/
def issued (a : Asm) (rest : List HostMove) (s : State) : State :=
  withArgs (asmArgs a) { drawSink^[(assemble a).length] s with cmd := encode (asmInstr a), hostMoves := rest }

@[simp] theorem issued_cfg (a : Asm) (rest : List HostMove) (s : State) : (issued a rest s).cfg = s.cfg :=
  drawSink_iterate_cfg _ s

@[simp] theorem issued_mem (a : Asm) (rest : List HostMove) (s : State) : (issued a rest s).mem = s.mem := by
  rw [issued, drawSink_iterate]
  rfl

@[simp] theorem issued_ers (a : Asm) (rest : List HostMove) (s : State) : (issued a rest s).ers = s.ers := by
  rw [issued, drawSink_iterate]
  rfl

@[simp] theorem issued_out (a : Asm) (rest : List HostMove) (s : State) : (issued a rest s).out = s.out := by
  rw [issued, drawSink_iterate]
  rfl

/-- A form of an encode command emits its command's output, when the sink is ready in the last step (R330, R614). -/
theorem emitsEvent_of_form {a : Asm} {c : EncCmd} {s : State} {d : Word} {st : Byte} {data : List Byte}
    {rest : List HostMove} (ha : asmInstr a = heldInstr c) (hh : s.held = none) (hm : s.hostMoves = assemble a ++ rest)
    (hr : (drawSink^[(assemble a).length] s).sinkReady = true)
    (ho : encodeOf c (issued a rest s) =
      .ok { bytes := vlqBytes d.toNat ++ compressed s.ers st data, ers := some st }) :
    EmitsEvent (assemble a).length s d st data rest := by
  have hrun : run (assemble a).length s = exec (asmInstr a) (issued a rest s) :=
    assemblyFormRunsItsCommand a rest s hh hm
  rw [ha, exec_heldInstr_ready ho hr] at hrun
  exact ⟨_, hrun, rfl, rfl, rfl, congrArg (· ++ _) (issued_out a rest s)⟩

/-- A CVENC form with legal operands emits its event (R525). -/
theorem emitsEvent_cvencForm {s : State} {d f c w : Word} {st : Byte} {data : List Byte} {rest : List HostMove}
    (hh : s.held = none) (hm : s.hostMoves = cvencForm d f c w ++ rest) (hr : (drawSink^[5] s).sinkReady = true)
    (hf : wfFamily f) (hc : wfChannel c) (hd : wfValue d) (hst : st.toNat = f.toNat + c.toNat)
    (hdata : [BitVec.ofNat 8 w.toNat, BitVec.ofNat 8 (w.toNat / 2 ^ 8)].take (voiceLen st) = data) :
    EmitsEvent 5 s d st data rest := by
  refine emitsEvent_of_form (a := .cvenc (some d) (some f) (some c) (some w)) (c := .cvenc) rfl hh hm hr ?_
  have hout := cvencOut_ok (s := issued (.cvenc (some d) (some f) (some c) (some w)) rest s) hf hc hd hst
  rw [issued_ers] at hout
  rw [← hdata]
  exact hout

/-- An EVTENC form with legal operands emits its event (R515). -/
theorem emitsEvent_evtencForm {s : State} {d w off n : Word} {st : Byte} {data : List Byte} {rest : List HostMove}
    (hh : s.held = none) (hm : s.hostMoves = assemble (.evtenc (some d) (some w) (some off) (some n)) ++ rest)
    (hr : (drawSink^[5] s).sinkReady = true) (hd : wfValue d) (hw : wfStatus w) (hst : w.setWidth 8 = st)
    (hrange : wfRange s.cfg off n) (hlen : data.length = n.toNat) (hdata : ebufAt s off.toNat data) :
    EmitsEvent 5 s d st data rest := by
  refine emitsEvent_of_form (a := .evtenc (some d) (some w) (some off) (some n)) (c := .evtenc) rfl hh hm hr ?_
  have hrange' : wfRange (issued (.evtenc (some d) (some w) (some off) (some n)) rest s).cfg off n := by
    rwa [issued_cfg]
  have hdata' : ebufAt (issued (.evtenc (some d) (some w) (some off) (some n)) rest s) off.toNat data := by
    intro i b hb
    rw [ebufByte, issued_mem]
    exact hdata i b hb
  refine evtencOut_eq_ok.2 ⟨hd, _, messageOut_eq_ok.2 ⟨hw, hrange', data, hlen, hdata', rfl⟩, ?_⟩
  rw [issued_ers, msgBytes_eq, ← hst]
  rfl

/-! ### The pseudo-instructions -/

/-- The two data bytes of a packed word (R306, R331). -/
theorem packData_bytes (x y : Byte) :
    [BitVec.ofNat 8 (packData x y).toNat, BitVec.ofNat 8 ((packData x y).toNat / 2 ^ 8)] = [x, y] := by
  have hx := x.isLt
  have hy := y.isLt
  congr 1
  · apply BitVec.eq_of_toNat_eq
    rw [BitVec.toNat_ofNat, packData_toNat]
    omega
  · congr 1
    apply BitVec.eq_of_toNat_eq
    rw [BitVec.toNat_ofNat, packData_toNat]
    omega

/-- A channel-voice pseudo-instruction emits its family's status with its channel, and one data byte for the families 0xC0
and 0xD0, else two (R17, R331). -/
theorem emitsEvent_family {s : State} {d c w : Word} {fam : Nat} {data : List Byte} {rest : List HostMove}
    (hfam : fam ∈ [0x80, 0x90, 0xA0, 0xB0, 0xC0, 0xD0, 0xE0]) (hh : s.held = none)
    (hm : s.hostMoves = cvencForm d (BitVec.ofNat 32 fam) c w ++ rest) (hr : (drawSink^[5] s).sinkReady = true)
    (hc : wfChannel c) (hd : wfValue d)
    (hdata : [BitVec.ofNat 8 w.toNat, BitVec.ofNat 8 (w.toNat / 2 ^ 8)].take
      (if fam = 0xC0 ∨ fam = 0xD0 then 1 else 2) = data) :
    EmitsEvent 5 s d (BitVec.ofNat 8 (fam + c.toNat)) data rest := by
  have hcases := hfam
  simp only [List.mem_cons, List.not_mem_nil, or_false] at hcases
  have hf : (BitVec.ofNat 32 fam).toNat = fam := by
    rw [BitVec.toNat_ofNat]
    omega
  have hst : (BitVec.ofNat 8 (fam + c.toNat)).toNat = fam + c.toNat := by
    rw [BitVec.toNat_ofNat]
    omega
  have hlen : voiceLen (BitVec.ofNat 8 (fam + c.toNat)) = if fam = 0xC0 ∨ fam = 0xD0 then 1 else 2 :=
    if_congr (by omega) rfl rfl
  exact emitsEvent_cvencForm hh hm hr (by rwa [wfFamily, hf]) hc hd (by rw [hst, hf]) (hlen ▸ hdata)

/-- Two bytes written to EBUF stand there after two steps (R202, R331). -/
theorem run_ebufWrites {s : State} {k : Nat} {b c : Byte} {rest : List HostMove} (hwf : s.cfg.wf)
    (hk : k + 2 ≤ s.cfg.ebufSize) (hh : s.held = none) (hm : s.hostMoves = ebufWrite k b :: ebufWrite (k + 1) c :: rest) :
    ∃ m, (∀ n, run (n + 2) s = run n { drawSink^[2] s with hostMoves := rest, mem := m }) ∧
      memRead m (ebufBase + k) = some b ∧ memRead m (ebufBase + (k + 1)) = some c := by
  obtain ⟨m₁, hstep₁, hread₁, -⟩ := step_ebufWrite hwf (by omega) hh hm
  have hcfg : (drawSink s).cfg = s.cfg := drawSink_cfg s
  obtain ⟨m₂, hstep₂, hread₂, hkeep⟩ :=
    step_ebufWrite (s := { drawSink s with hostMoves := ebufWrite (k + 1) c :: rest, mem := m₁ }) (k := k + 1)
      (by rwa [hcfg]) (by rw [hcfg]; omega) ((drawSink_held s).trans hh) rfl
  have hdraw : drawSink { drawSink s with hostMoves := ebufWrite (k + 1) c :: rest, mem := m₁ } =
      { drawSink^[2] s with hostMoves := ebufWrite (k + 1) c :: rest, mem := m₁ } := by
    rw [Function.iterate_succ_apply', Function.iterate_one, drawSink_eq_headD, drawSink_eq_headD (drawSink s)]
  refine ⟨m₂, fun n => ?_, (hkeep _ (by omega)).trans hread₁, hread₂⟩
  rw [run_next hstep₁, run_next hstep₂, hdraw]

/-- ENDTRK emits the End-Of-Track message (R331). -/
theorem emitsEvent_endtrk {s : State} {d k : Word} {rest : List HostMove} (hwf : s.cfg.wf) (hd : wfValue d)
    (hk : k.toNat + 2 ≤ s.cfg.ebufSize) (hh : s.held = none) (hm : s.hostMoves = expand (.endtrk d k) ++ rest)
    (hr : (drawSink^[7] s).sinkReady = true) : EmitsEvent 7 s d 0xFF [0x2F, 0x00] rest := by
  obtain ⟨m, hrun, h2F, h00⟩ := run_ebufWrites (k := k.toNat)
    (rest := assemble (.evtenc (some d) (some 0xFF) (some k) (some 2)) ++ rest) hwf hk hh hm
  have hdata : ∀ i b, [0x2F, 0x00][i]? = some b → memRead m (ebufBase + (k.toNat + i)) = some b
    | 0, _, rfl => h2F
    | 1, _, rfl => h00
  have hready (moves : List HostMove) :
      (drawSink^[5] { drawSink^[2] s with hostMoves := moves, mem := m }).sinkReady = true := by
    rw [show 7 = 5 + 2 from rfl, Function.iterate_add_apply, drawSink_iterate 5] at hr
    rw [drawSink_iterate 5]
    exact hr
  have hevent : EmitsEvent 5
      { drawSink^[2] s with
        hostMoves := assemble (.evtenc (some d) (some 0xFF) (some k) (some 2)) ++ rest
        mem := m } d 0xFF [0x2F, 0x00] rest :=
    emitsEvent_evtencForm ((drawSink_iterate_held 2 s).trans hh) rfl (hready _) hd (by decide) rfl
      (by rwa [wfRange, drawSink_iterate_cfg]) rfl hdata
  obtain ⟨t, ht, herr, hmoves, hers, hout⟩ := hevent
  rw [drawSink_iterate] at hout
  exact ⟨t, (hrun 5).trans ht, herr, hmoves, hers, hout⟩

/-! ### The obligations -/

/-- Settles O5, pseudo-instruction by pseudo-instruction. -/
theorem pseudoInstructionsEmitTheirEvent : Obligations.PseudoInstructionsEmitTheirEvent := by
  intro s d c x y rest hh hd hc
  refine ⟨fun hr p fam data hp hm => ?_, fun hr k hwf hk hm => emitsEvent_endtrk hwf hd hk hh hm hr⟩
  have hpair := packData_bytes x y
  have hsingle := congrArg ([·]) (ofNat_setWidth_byte x)
  simp only [List.mem_cons, Prod.mk.injEq, List.not_mem_nil, or_false] at hp
  rcases hp with ⟨rfl, rfl, rfl⟩ | ⟨rfl, rfl, rfl⟩ | ⟨rfl, rfl, rfl⟩ | ⟨rfl, rfl, rfl⟩ | ⟨rfl, rfl, rfl⟩ |
    ⟨rfl, rfl, rfl⟩ | ⟨rfl, rfl, rfl⟩
  · exact emitsEvent_family (by decide) hh hm hr hc hd hpair
  · exact emitsEvent_family (by decide) hh hm hr hc hd hpair
  · exact emitsEvent_family (by decide) hh hm hr hc hd hpair
  · exact emitsEvent_family (by decide) hh hm hr hc hd hpair
  · exact emitsEvent_family (by decide) hh hm hr hc hd hsingle
  · exact emitsEvent_family (by decide) hh hm hr hc hd hsingle
  · exact emitsEvent_family (by decide) hh hm hr hc hd hpair

/-- Settles O60: the first write, or the second, is beyond EBUF. -/
theorem endtrkBeyondEbufIsRefused : Obligations.EndtrkBeyondEbufIsRefused := by
  intro s d k rest hwf hh hm
  refine ⟨fun hk => step_ebufWrite_refused hk hh hm, fun hk => ?_⟩
  obtain ⟨m, hstep, hread, -⟩ := step_ebufWrite hwf (by omega) hh hm
  obtain ⟨r, hr⟩ := step_ebufWrite_refused (s := { drawSink s with hostMoves := _, mem := m })
    (le_of_eq_of_le (congrArg Config.ebufSize (drawSink_cfg s)) hk.ge) ((drawSink_held s).trans hh) rfl
  exact ⟨_, r, hstep, hread, hr⟩

end Sys2Proof
end

section
/-! SUPPORT. The VLQ codec (R310, R400 to R427): the groups `vlq_bytes` gives and their value, leading zero groups, and
what VLQDEC and VLQENC answer. -/

namespace Sys2Proof

open Sys2Proof.Machine

/-! ### The groups of a value -/

/-- The lowest `k` groups of a value, the most significant first, as R420 writes them. -/
def vlqGroupBytes (v k : Nat) : List Byte := (List.range k).map (vlqGroupByte v k)

theorem vlqBytes_eq_groupBytes (v : Nat) : vlqBytes v = vlqGroupBytes v (vlqGroups v) := rfl

@[simp] theorem vlqGroupBytes_zero (v : Nat) : vlqGroupBytes v 0 = [] := rfl

@[simp] theorem vlqGroupBytes_length (v k : Nat) : (vlqGroupBytes v k).length = k := by
  rw [vlqGroupBytes, List.length_map, List.length_range]

/-- A group byte depends on the number of groups after it alone. -/
theorem vlqGroupByte_succ_succ (v k i : Nat) : vlqGroupByte v (k + 1) (i + 1) = vlqGroupByte v k i := by
  have hafter : k + 1 - 1 - (i + 1) = k - 1 - i := by omega
  have hlast : i + 1 < k + 1 - 1 ↔ i < k - 1 := by omega
  simp only [vlqGroupByte, hafter, hlast]

/-- The most significant group comes first. -/
theorem vlqGroupBytes_succ (v k : Nat) :
    vlqGroupBytes v (k + 1) = vlqGroupByte v (k + 1) 0 :: vlqGroupBytes v k := by
  simp only [vlqGroupBytes, List.range_succ_eq_map, List.map_cons, List.map_map, Function.comp_def, Nat.succ_eq_add_one,
    vlqGroupByte_succ_succ]

/-- The value bits of the first of `k + 1` groups (R420). -/
theorem vlqGroupByte_zero_mod (v k : Nat) :
    (vlqGroupByte v (k + 1) 0).toNat % 2 ^ 7 = v / 2 ^ (7 * k) % 2 ^ 7 := by
  rw [vlqGroupByte_toNat, Nat.add_sub_cancel, Nat.sub_zero]
  split <;> omega

/-- The groups sum up to what fits in them (R310). -/
theorem vlqValue_groupBytes (v k : Nat) : vlqValue (vlqGroupBytes v k) = v % 2 ^ (7 * k) := by
  induction k with
  | zero => simp [Nat.mod_one]
  | succ k ih =>
    rw [vlqGroupBytes_succ, vlqValue_cons, vlqGroupBytes_length, vlqGroupByte_zero_mod, ih, Nat.mul_succ, Nat.pow_add,
      Nat.mod_mul, Nat.mul_comm, Nat.add_comm]

/-- Bit 7 is set on every group but the last (R310). -/
theorem isVlq_groupBytes (v k : Nat) : isVlq (vlqGroupBytes v (k + 1)) = true := by
  induction k with
  | zero =>
    rw [vlqGroupBytes_succ, vlqGroupBytes_zero, isVlq_single, vlqGroupByte_bit7]
    rfl
  | succ k ih =>
    have hbit : (vlqGroupByte v (k + 2) 0).getLsbD 7 = true := by simp [vlqGroupByte_bit7]
    rw [vlqGroupBytes_succ]
    exact isVlq_cons.2 (.inr ⟨hbit, ih⟩)

/-! ### The minimal encoding -/

/-- A minimal encoding has a first group, so the lemmas on `k + 1` groups apply to it. -/
theorem vlqGroups_eq_succ (v : Nat) : vlqGroups v = vlqGroups v - 1 + 1 := by
  have hpos := vlqGroups_pos v
  omega

/-- A value fits in its groups (R311). -/
theorem lt_pow_vlqGroups {v : Nat} (hv : v ≤ 0x0FFFFFFF) : v < 2 ^ (7 * vlqGroups v) := by
  unfold vlqGroups
  split_ifs <;> omega

/-- A value with more than one group does not fit in one group less (R311). -/
theorem pow_le_of_one_lt_vlqGroups {v : Nat} (h : 1 < vlqGroups v) : 2 ^ (7 * (vlqGroups v - 1)) ≤ v := by
  unfold vlqGroups at h ⊢
  split_ifs at h ⊢ <;> omega

/-- `vlq_bytes` gives a VLQ of R310. -/
theorem vlqForm_vlqBytes (v : Nat) : vlqForm (vlqBytes v) := by
  refine ⟨?_, by rw [vlqBytes_length]; exact vlqGroups_le v⟩
  rw [vlqBytes_eq_groupBytes, vlqGroups_eq_succ]
  exact isVlq_groupBytes v _

/-- `vlq_bytes` gives back its value (R420). -/
theorem vlqValue_vlqBytes {v : Nat} (hv : v ≤ 0x0FFFFFFF) : vlqValue (vlqBytes v) = v := by
  rw [vlqBytes_eq_groupBytes, vlqValue_groupBytes, Nat.mod_eq_of_lt (lt_pow_vlqGroups hv)]

/-- The first group of more than one is not zero, and a single group has bit 7 clear (R420). -/
theorem vlqBytes_head_ne {v : Nat} (hv : v ≤ 0x0FFFFFFF) : (vlqBytes v).head? ≠ some 0x80 := by
  rw [vlqBytes_eq_groupBytes, vlqGroups_eq_succ, vlqGroupBytes_succ, List.head?_cons, ne_eq, Option.some.injEq]
  intro hbyte
  have hcont : 1 < vlqGroups v := by
    have hbit := congrArg (·.getLsbD 7) hbyte
    rw [vlqGroupByte_bit7] at hbit
    have := of_decide_eq_true hbit
    omega
  have hzero : v / 2 ^ (7 * (vlqGroups v - 1)) % 2 ^ 7 = 0 := by
    rw [← vlqGroupByte_zero_mod, hbyte]
    rfl
  have hlow : 0 < v / 2 ^ (7 * (vlqGroups v - 1)) :=
    Nat.div_pos (pow_le_of_one_lt_vlqGroups hcont) (Nat.two_pow_pos _)
  have hhigh : v / 2 ^ (7 * (vlqGroups v - 1)) < 2 ^ 7 := by
    rw [Nat.div_lt_iff_lt_mul (Nat.two_pow_pos _), ← Nat.pow_add, Nat.add_comm, ← Nat.mul_succ, Nat.succ_eq_add_one,
      ← vlqGroups_eq_succ]
    exact lt_pow_vlqGroups hv
  omega

/-! ### Leading zero groups -/

/-- A leading 0x80 byte adds nothing to the value (R407). -/
theorem vlqValue_cons_0x80 (bs : List Byte) : vlqValue (0x80 :: bs) = vlqValue bs := by
  have hgroup : (0x80 : Byte).toNat % 2 ^ 7 = 0 := by decide
  rw [vlqValue_cons, hgroup, Nat.zero_mul, Nat.zero_add]

/-- Leading 0x80 bytes add nothing to the value (R407). -/
theorem vlqValue_replicate_append (j : Nat) (bs : List Byte) :
    vlqValue (List.replicate j 0x80 ++ bs) = vlqValue bs := by
  induction j with
  | zero => rfl
  | succ j ih => rw [List.replicate_succ, List.cons_append, vlqValue_cons_0x80, ih]

/-- Leading 0x80 bytes keep the form of a VLQ (R407). -/
theorem isVlq_replicate_append {bs : List Byte} (h : isVlq bs = true) (j : Nat) :
    isVlq (List.replicate j 0x80 ++ bs) = true := by
  induction j with
  | zero => exact h
  | succ j ih => exact isVlq_cons.2 (.inr ⟨by decide, ih⟩)

/-! ### The commands -/

/-- VLQDEC of a VLQ at ARG0 commits its value and its length (R405). -/
theorem exec_vlqdec_of_vlq {s : State} {bs : List Byte} (hvlq : vlqForm bs) (hat : ibufAt s s.arg0.toNat bs) :
    exec .vlqdec s = .next (commitVlqdec (vlqValue bs, bs.length) s) := by
  rw [exec, execVlqdec, vlqRead_eq_ok.2 ⟨bs, hvlq, hat, rfl⟩, finish_ok]

/-- VLQDEC completes with the error that `vlq_read` raises (R405, R617). -/
theorem exec_vlqdec_of_raise {s : State} {e : ErrCode} (he : e ≠ .ok)
    (h : vlqRead s .truncatedInput s.arg0.toNat = .raise e) : exec .vlqdec s = .next (afterError s e) := by
  rw [exec, execVlqdec, h, finish_raise, complete_error he]

/-! ### The obligations -/

/-- Settles O17: the groups sum up to the value, and the first of several is not zero. -/
theorem vlqBytesEncodeTheValue : Obligations.VlqBytesEncodeTheValue :=
  ⟨rfl, fun v hv => ⟨vlqForm_vlqBytes v, vlqValue_vlqBytes hv, vlqBytes_head_ne hv⟩⟩

/-- Settles O19: `vlq_read` answers the value of the VLQ that stands at the offset, and `vlq_bytes(v)` and 80 00 are
VLQs. -/
theorem vlqReadInvertsVlqBytes : Obligations.VlqReadInvertsVlqBytes := by
  refine ⟨fun s e p v hv hat => ?_, fun s e p hat => ?_, fun v hv => vlqBytes_head_ne hv⟩
  · exact vlqRead_eq_ok.2 ⟨vlqBytes v, vlqForm_vlqBytes v, hat, by rw [vlqValue_vlqBytes hv]⟩
  · exact vlqRead_eq_ok.2 ⟨[0x80, 0x00], by decide, hat, by decide⟩

/-- Settles O20: the bytes read are a VLQ, so their value has its bounds. -/
theorem vlqReadValueIsTheSum : Obligations.VlqReadValueIsTheSum := by
  intro s e p v k h
  obtain ⟨bs, ⟨hvlq, hlen⟩, hat, hr⟩ := vlqRead_eq_ok.1 h
  obtain ⟨rfl, rfl⟩ := Prod.mk.inj hr
  have hpos : bs ≠ [] := by
    rintro rfl
    cases hvlq
  exact ⟨vlqValue_lt bs, vlqValue_le_max hlen, List.length_pos_iff.2 hpos, hlen, bs, rfl, hvlq, hat, rfl⟩

/-- Settles O21: `vlq_read` answers a value or raises, and VLQDEC commits the one and completes with the other. -/
theorem vlqdecOutcome : Obligations.VlqdecOutcome := by
  refine ⟨decode_encode .vlqdec, rfl, rfl, fun s => ⟨fun bs hvlq hat => ?_, fun h => ?_, fun h => ?_⟩⟩
  · rw [exec_vlqdec_of_vlq hvlq hat]
    simp [commitVlqdec, complete]
  · exact exec_vlqdec_of_raise (by decide) (vlqRead_runsOut h)
  · exact exec_vlqdec_of_raise (by decide) (vlqRead_overflows h)

/-- Settles O22: leading 0x80 bytes keep the form and the value of a VLQ. -/
theorem vlqdecAcceptsNonMinimal : Obligations.VlqdecAcceptsNonMinimal := by
  intro s v j hv hj hat
  have hlen : (List.replicate j 0x80 ++ vlqBytes v).length = j + (vlqBytes v).length := by
    rw [List.length_append, List.length_replicate]
  obtain ⟨hvlq, -⟩ := vlqForm_vlqBytes v
  refine ⟨_, exec_vlqdec_of_vlq ⟨isVlq_replicate_append hvlq j, hlen.trans_le hj⟩ hat, rfl, ?_, ?_⟩
  · rw [commitVlqdec_resVal, vlqValue_replicate_append, vlqValue_vlqBytes hv]
  · rw [commitVlqdec_resCons, hlen]

/-- Settles O23: a value out of range raises, and an encoding is held or committed. -/
theorem vlqencOutcome : Obligations.VlqencOutcome := by
  refine ⟨decode_encode .vlqenc, fun s => ⟨fun hbig => ?_, fun hv hr => ?_, fun hv hr => ?_⟩⟩
  · exact (exec_eq_invalid (i := .vlqenc)).2 (Nat.not_le.2 hbig)
  · exact exec_heldInstr_notReady (c := .vlqenc) (vlqencOut_eq_ok.2 ⟨hv, rfl⟩) hr
  · exact (exec_heldInstr_ready (c := .vlqenc) (vlqencOut_eq_ok.2 ⟨hv, rfl⟩) hr).trans
      (congrArg _ (commitEncode_eq _ s))

/-- Settles O24: each of the three outcomes of VLQENC is decided without a latch, and leaves both as they are. -/
theorem vlqencIgnoresLatches : Obligations.VlqencIgnoresLatches := by
  intro s t l l' h
  obtain ⟨-, houtcome⟩ := vlqencOutcome
  obtain ⟨hbad, hheld, hsent⟩ := houtcome s
  obtain ⟨hbad', hheld', hsent'⟩ := houtcome { s with drs := l, ers := l' }
  rcases Nat.lt_or_ge 0x0FFFFFFF s.arg0.toNat with hbig | hv
  · obtain rfl := Host.Outcome.next.inj (h.symm.trans (hbad hbig))
    exact ⟨rfl, rfl, hbad' hbig⟩
  · rcases Bool.eq_false_or_eq_true s.sinkReady with hr | hr
    · obtain rfl := Host.Outcome.next.inj (h.symm.trans (hsent hv hr))
      exact ⟨rfl, rfl, hsent' hv hr⟩
    · obtain rfl := Host.Outcome.next.inj (h.symm.trans (hheld hv hr))
      exact ⟨rfl, rfl, hheld' hv hr⟩

end Sys2Proof
end

section
/-! SUPPORT. The message decoder (R450 to R482): the errors of the parser from a message's head, the commands MSGDEC and
EVTDEC in terms of the parser, and the one form that every successful decode commits. -/

namespace Sys2Proof

open Sys2Proof.Machine

/-! ### A message from its head -/

theorem ne_0xFF_of_voiceStatus {st : Byte} (hv : voiceStatus st) : st ≠ 0xFF := by
  rintro rfl
  exact absurd hv (by decide)

theorem msgBody_meta (s : State) (p : Nat) (sc : Bool) (q : Nat) : msgBody s p 0xFF sc q = metaBody s p sc q :=
  if_pos rfl

theorem msgBody_voice {st : Byte} (hst : st ≠ 0xFF) (s : State) (p : Nat) (sc : Bool) (q : Nat) :
    msgBody s p st sc q = voiceBody s st sc q :=
  if_neg hst

/-- Data bytes that would end beyond IN_LEN (R455). -/
theorem voiceBody_short {s : State} {st : Byte} {q : Nat} (sc : Bool) (hv : voiceStatus st)
    (hl : s.inLen.toNat < q + voiceLen st) : voiceBody s st sc q = .raise .needMoreData := by
  rw [voiceBody, familyLen_eq_some.2 ⟨hv, rfl⟩]
  exact if_pos hl

/-- A status outside the family table (R463). -/
theorem voiceBody_unknown {s : State} {st : Byte} {q : Nat} (sc : Bool) (hv : ¬ voiceStatus st) :
    voiceBody s st sc q = .raise .unknownStatus := by
  rw [voiceBody, familyLen_eq_none.2 hv]

/-- A meta message without its type byte (R455). -/
theorem metaBody_noType {s : State} {p q : Nat} (sc : Bool) (h : s.inLen.toNat ≤ q) :
    metaBody s p sc q = .raise .needMoreData := by
  rw [metaBody, nextByte_eq_raise.2 ⟨h, rfl⟩, bind_raise_left]

/-- Behind its type byte, a meta message raises what its length raises (R464). -/
theorem metaBody_length_raise {s : State} {p q : Nat} {t : Byte} {e : ErrCode} (sc : Bool) (ht : ibufAt s q [t])
    (h : vlqRead s .needMoreData (q + 1) = .raise e) : metaBody s p sc q = .raise e := by
  obtain ⟨hq, ht, -⟩ := ibufAt_cons.1 ht
  rw [metaBody, nextByte_eq_ok.2 ⟨hq, ht⟩, bind_ok_left, h, bind_raise_left]

/-- A payload that would end beyond IN_LEN (R455). -/
theorem metaBody_shortPayload {s : State} {p q : Nat} {t : Byte} {bs : List Byte} (sc : Bool) (hf : vlqForm bs)
    (hat : ibufAt s q (t :: bs)) (hl : s.inLen.toNat < q + 1 + bs.length + vlqValue bs) :
    metaBody s p sc q = .raise .needMoreData := by
  obtain ⟨hq, ht, hbs⟩ := ibufAt_cons.1 hat
  rw [metaBody, nextByte_eq_ok.2 ⟨hq, ht⟩, bind_ok_left, vlqRead_eq_ok.2 ⟨bs, hf, hbs, rfl⟩, bind_ok_left]
  exact if_pos hl

/-- A data byte at the message start with no running status (R454). -/
theorem msgParse_noRunningStatus {s : State} {p : Nat} {b : Byte} (hd : s.drs = none) (hat : ibufAt s p [b])
    (h7 : b.getLsbD 7 = false) : msgParse s p = .raise .unknownRunningStatus := by
  obtain ⟨hp, hb, -⟩ := ibufAt_cons.1 hat
  rw [msgParse, nextByte_eq_ok.2 ⟨hp, hb⟩, bind_ok_left, if_neg (by rw [h7]; decide), hd]

/-- A message whose status byte is left out has the status in DRS (R461). -/
theorem drs_of_msgHead {s : State} {p q : Nat} {st : Byte} (h : msgHead s p st false q) : s.drs = some st := by
  rcases h with ⟨hsc, -⟩ | ⟨-, -, hd, -⟩
  · cases hsc
  · exact hd

/-- A parsed message has a channel-voice status or 0xFF, and the one in DRS when the status byte is left out (R456, R461). -/
theorem msgParse_status {s : State} {p : Nat} {r : MsgRec} (h : msgParse s p = .ok r) :
    (voiceStatus r.st ∨ r.st = 0xFF) ∧ (r.sc = false → s.drs = some r.st) := by
  obtain ⟨st, sc, q, hhead, ⟨data, hv, -, -, rfl⟩ | ⟨rfl, t, bs, -, -, -, rfl⟩⟩ := msgParse_cases h
  · refine ⟨.inl hv, ?_⟩
    rintro rfl
    exact drs_of_msgHead hhead
  · refine ⟨.inr rfl, ?_⟩
    rintro rfl
    exact drs_of_msgHead hhead

/-- The channel of a parsed message is a nibble: that of its status, or 0 for a meta message (R457). -/
theorem msgParse_chan_lt {s : State} {p : Nat} {r : MsgRec} (h : msgParse s p = .ok r) : r.chan.toNat < 16 := by
  obtain ⟨st, sc, q, -, ⟨data, -, -, -, rfl⟩ | ⟨rfl, t, bs, -, -, -, rfl⟩⟩ := msgParse_cases h
  · rw [voiceRec, channelOf_toNat]
    exact Nat.mod_lt _ (by decide)
  · exact (by decide : (0 : Byte).toNat < 16)

/-- A parsed message ends at or before IN_LEN (R455). -/
theorem msgParse_end_le {s : State} {p : Nat} {r : MsgRec} (h : msgParse s p = .ok r) :
    p + r.cons ≤ s.inLen.toNat := by
  obtain ⟨st, sc, q, hhead, hmsg⟩ := msgParse_cases h
  have hq := msgHead_offset hhead
  rcases hmsg with ⟨data, -, -, hat, rfl⟩ | ⟨rfl, t, bs, -, -, hend, rfl⟩
  · have hdata := hat.1
    simp only [voiceRec]
    omega
  · simp only [metaRec]
    omega

/-- RES_MSG0 of a parsed message has its status in ST and its SC bit (R142). -/
theorem msg0Word_of_msgParse {s : State} {p : Nat} {r : MsgRec} (h : msgParse s p = .ok r) :
    (msg0Word r).extractLsb' 0 8 = r.st ∧ (msg0Word r).getLsbD 26 = r.sc := by
  have hchan := msgParse_chan_lt h
  obtain ⟨hst, -, -, -, -, -, -, hsc⟩ := msg0Image_fields (isMeta r) (isEot r) r.sc r.st.isLt r.fam.isLt hchan
  rw [msg0Word_eq hchan]
  exact ⟨BitVec.eq_of_toNat_eq hst, hsc⟩

/-! ### The commands -/

theorem ne_ok_of_canRaise {i : Instr} {e : ErrCode} (he : e ∈ canRaise i) : e ≠ .ok := by
  rintro rfl
  exact ok_not_raised i he

theorem exec_msgdec_of_ok {s : State} {r : MsgRec} (h : msgParse s s.arg0.toNat = .ok r) :
    exec .msgdec s = .next (commitMsg r s) := by
  rw [exec, execMsgdec, h, finish_ok]

theorem exec_msgdec_of_raise {s : State} {e : ErrCode} (he : e ≠ .ok) (h : msgParse s s.arg0.toNat = .raise e) :
    exec .msgdec s = .next (afterError s e) := by
  rw [exec, execMsgdec, h, finish_raise, complete_error he]

/-- From its head, MSGDEC completes with the error that the rest of the message raises (R460, R617). -/
theorem exec_msgdec_of_body_raise {s : State} {st : Byte} {sc : Bool} {q : Nat} {e : ErrCode} (he : e ≠ .ok)
    (hhead : msgHead s s.arg0.toNat st sc q) (h : msgBody s s.arg0.toNat st sc q = .raise e) :
    exec .msgdec s = .next (afterError s e) :=
  exec_msgdec_of_raise he ((msgParse_head hhead).trans h)

/-- EVTDEC of a delta and a message behind it commits both (R480). -/
theorem exec_evtdec_of_ok {s : State} {ds : List Byte} {r : MsgRec} (hvlq : vlqForm ds)
    (hat : ibufAt s s.arg0.toNat ds) (h : msgParse s (s.arg0.toNat + ds.length) = .ok r) :
    exec .evtdec s =
      .next { complete .ok (storeMsg ds.length r s) with resVal := BitVec.ofNat 32 (vlqValue ds) } := by
  rw [exec, execEvtdec, evtParse_eq_ok.2 ⟨ds, r, hvlq, hat, h, rfl⟩, finish_ok]
  rfl

/-- EVTDEC completes with the error that the message behind its delta raises (R482, R617). -/
theorem exec_evtdec_of_raise {s : State} {ds : List Byte} {e : ErrCode} (he : e ≠ .ok) (hvlq : vlqForm ds)
    (hat : ibufAt s s.arg0.toNat ds) (h : msgParse s (s.arg0.toNat + ds.length) = .raise e) :
    exec .evtdec s = .next (afterError s e) := by
  rw [exec, execEvtdec, evtParse, vlqRead_eq_ok.2 ⟨ds, hvlq, hat, rfl⟩, bind_ok_left, h, bind_raise_left,
    finish_raise, complete_error he]

/-- EVTDEC completes with the error that its delta raises (R481, R617). -/
theorem exec_evtdec_of_delta_raise {s : State} {e : ErrCode} (he : e ≠ .ok)
    (h : vlqRead s .needMoreData s.arg0.toNat = .raise e) : exec .evtdec s = .next (afterError s e) := by
  rw [exec, execEvtdec, evtParse, h, bind_raise_left, finish_raise, complete_error he]

/-- Both decoders that answer a next state have raised an error, or committed the message parsed behind the `pre` bytes of
the delta; `v` is RES_VAL, which MSGDEC keeps (R456, R460, R480). -/
theorem exec_decode_next {i : Instr} {s t : State} (hi : i = .msgdec ∨ i = .evtdec) (h : exec i s = .next t) :
    (∃ e, e ≠ .ok ∧ t = complete e s) ∨
      ∃ pre r v, msgParse s (s.arg0.toNat + pre) = .ok r ∧ t = { complete .ok (storeMsg pre r s) with resVal := v } := by
  rcases hi with rfl | rfl
  · rcases finish_next.1 h with ⟨r, hr, rfl⟩ | ⟨e, he, rfl⟩
    · exact .inr ⟨0, r, s.resVal, hr, rfl⟩
    · exact .inl ⟨e, ne_ok_of_canRaise (msgParse_raise he), rfl⟩
  · rcases finish_next.1 h with ⟨r, hr, rfl⟩ | ⟨e, he, rfl⟩
    · obtain ⟨ds, m, -, -, hm, rfl⟩ := evtParse_eq_ok.1 hr
      exact .inr ⟨ds.length, m, BitVec.ofNat 32 (vlqValue ds), hm, rfl⟩
    · exact .inl ⟨e, ne_ok_of_canRaise (evtParse_raise he), rfl⟩

/-- A decode that completes with OK has committed a parsed message (R456, R460, R480). -/
theorem exec_decode_ok {i : Instr} {s t : State} (hi : i = .msgdec ∨ i = .evtdec) (h : exec i s = .next t)
    (hok : t.err = .ok) :
    ∃ pre r v, msgParse s (s.arg0.toNat + pre) = .ok r ∧ t = { complete .ok (storeMsg pre r s) with resVal := v } := by
  rcases exec_decode_next hi h with ⟨e, he, rfl⟩ | hcommit
  · exact absurd hok he
  · exact hcommit

/-! ### The obligations -/

/-- Settles O25: the message is parsed to its record, whose commit writes the words of R142 and R143. -/
theorem msgdecVoiceMessage : Obligations.MsgdecVoiceMessage := by
  intro s st sc q data hhead hv hl hat
  rw [exec_msgdec_of_ok (msgParse_voice hhead hv hl hat), commitMsg, complete_voice s 0 sc q data hv]

/-- Settles O26: the message is parsed to its record, whose commit writes the words of R142 and R143. -/
theorem msgdecMetaMessage : Obligations.MsgdecMetaMessage := by
  intro s sc q t bs hhead hf hat hl
  rw [exec_msgdec_of_ok (msgParse_meta hhead hf hat hl), commitMsg, complete_meta s 0 t hf (msgHead_offset hhead)]

/-- Settles O27: the record behind the delta is the one MSGDEC would commit. -/
theorem evtdecVoiceEvent : Obligations.EvtdecVoiceEvent := by
  intro s ds st sc q data hvlq hds hhead hv hl hat
  rw [exec_evtdec_of_ok hvlq hds (msgParse_voice hhead hv hl hat), complete_voice s ds.length sc q data hv]

/-- Settles O28: the record behind the delta is the one MSGDEC would commit. -/
theorem evtdecMetaEvent : Obligations.EvtdecMetaEvent := by
  intro s ds sc q t bs hvlq hds hhead hf hat hl
  rw [exec_evtdec_of_ok hvlq hds (msgParse_meta hhead hf hat hl),
    complete_meta s ds.length t hf (msgHead_offset hhead)]

/-- Settles O29: the delta ends at or before IN_LEN, so ARG0 behind it does not wrap, and MSGDEC there parses what EVTDEC
parses behind its delta. -/
theorem evtdecIsDeltaThenMsgdec : Obligations.EvtdecIsDeltaThenMsgdec := by
  intro s u ds hvlq hat hu
  have hend := hat.1
  have hlt := s.inLen.isLt
  have harg : (s.arg0 + BitVec.ofNat 32 ds.length).toNat = s.arg0.toNat + ds.length := by
    rw [BitVec.toNat_add, BitVec.toNat_ofNat]
    omega
  have hparse : msgParse { s with arg0 := s.arg0 + BitVec.ofNat 32 ds.length }
      (s.arg0 + BitVec.ofNat 32 ds.length).toNat = msgParse s (s.arg0.toNat + ds.length) := by
    rw [harg]
    apply msgParse_congr <;> rfl
  rcases finish_next.1 hu with ⟨r, hr, rfl⟩ | ⟨e, he, rfl⟩
  · have hcons : BitVec.ofNat 32 (ds.length + r.cons) = BitVec.ofNat 32 (0 + r.cons) + BitVec.ofNat 32 ds.length := by
      rw [← BitVec.ofNat_add, Nat.zero_add, Nat.add_comm]
    rw [exec_evtdec_of_ok hvlq hat (hparse.symm.trans hr), if_pos (commitMsg_err r _)]
    simp [complete, storeMsg, commitMsg, hcons]
  · have hne := ne_ok_of_canRaise (msgParse_raise he)
    rw [exec_evtdec_of_raise hne hvlq hat (hparse.symm.trans he), complete_err, if_neg hne]

/-- Settles O30, by the part of the message that runs out, and by where a parsed message ends. -/
theorem msgdecNeedsMoreData : Obligations.MsgdecNeedsMoreData := by
  refine ⟨rfl, fun s => ⟨fun hstart => ?_, fun st sc q hhead hv hl => ?_, fun sc q hhead hcut => ?_,
    fun i t hi h hok => ?_⟩⟩
  · exact exec_msgdec_of_raise (by decide) (bind_eq_raise.2 (.inl (nextByte_eq_raise.2 ⟨hstart, rfl⟩)))
  · refine exec_msgdec_of_body_raise (by decide) hhead ?_
    rw [msgBody_voice (ne_0xFF_of_voiceStatus hv), voiceBody_short sc hv hl]
  · refine exec_msgdec_of_body_raise (by decide) hhead ?_
    rw [msgBody_meta]
    rcases hcut with hq | ⟨t, ht, hout⟩ | ⟨t, bs, hf, hat, hl⟩
    · exact metaBody_noType sc hq
    · exact metaBody_length_raise sc ht (vlqRead_runsOut hout)
    · exact metaBody_shortPayload sc hf hat hl
  · obtain ⟨pre, r, v, hr, rfl⟩ := exec_decode_ok hi h hok
    have hend := msgParse_end_le hr
    have hcons := toNat_ofNat_le (pre + r.cons)
    simp only [complete_resCons, storeMsg_resCons]
    omega

/-- Settles O31: the delta and the meta length are read by `vlq_read`, which raises at the end of the input and after four
continuation bytes. -/
theorem cutOffDeltaAndOverlongVlq : Obligations.CutOffDeltaAndOverlongVlq := by
  refine fun s => ⟨fun hout => ?_, fun hover => ?_, fun sc q t hhead ht hover => ?_⟩
  · exact exec_evtdec_of_delta_raise (by decide) (vlqRead_runsOut hout)
  · exact exec_evtdec_of_delta_raise (by decide) (vlqRead_overflows hover)
  · refine exec_msgdec_of_body_raise (by decide) hhead ?_
    rw [msgBody_meta, metaBody_length_raise sc ht (vlqRead_overflows hover)]

/-- Settles O32. -/
theorem dataByteWithoutRunningStatus : Obligations.DataByteWithoutRunningStatus :=
  ⟨rfl, fun _ _ hd hat h7 => exec_msgdec_of_raise (by decide) (msgParse_noRunningStatus hd hat h7)⟩

/-- Settles O33: such a status is neither 0xFF nor in the family table. -/
theorem unknownStatusRaises : Obligations.UnknownStatusRaises := by
  refine ⟨rfl, fun s st sc q hhead hlo hhi => exec_msgdec_of_body_raise (by decide) hhead ?_⟩
  have hmeta : st ≠ 0xFF := by
    rintro rfl
    exact absurd hhi (by decide)
  rw [msgBody_voice hmeta, voiceBody_unknown sc fun hv => by omega]

/-- Settles O34: the record's status goes into DRS and RES_MSG0, and is the one in DRS when it was not consumed. -/
theorem decodeCommitsStatusToDrs : Obligations.DecodeCommitsStatusToDrs := by
  intro i s t hi h
  rcases exec_decode_next hi h with ⟨e, he, rfl⟩ | ⟨pre, r, v, hr, rfl⟩
  · exact ⟨fun hok => absurd hok he, fun _ => rfl⟩
  · obtain ⟨hst, hrun⟩ := msgParse_status hr
    obtain ⟨hfield, hsc⟩ := msg0Word_of_msgParse hr
    exact ⟨fun _ => ⟨r.st, rfl, hfield, hst, fun h26 => hrun (hsc.symm.trans h26)⟩, fun hbad => absurd rfl hbad⟩

/-- Settles O35: the words of every parsed message agree on EOT (R142). -/
theorem eotFlagIsMetaType2F : Obligations.EotFlagIsMetaType2F := by
  intro i s t hi h hok
  obtain ⟨pre, r, v, hr, rfl⟩ := exec_decode_ok hi h hok
  show (msg0Word r).getLsbD 25 = true ↔ (msg0Word r).getLsbD 24 = true ∧ (msg1Word r).extractLsb' 0 8 = 0x2F#8
  rw [(recOk_of_msgParse hr).words_ok.eot, Bool.and_eq_true, decide_eq_true_iff]

/-- Settles O36: the words of a parsed meta message have the status 0xFF, and with 0xFF in DRS a data byte is the head of a
meta message. -/
theorem runningStatusAfterMeta : Obligations.RunningStatusAfterMeta := by
  refine ⟨fun i s t hi h hok hkind => ?_, fun s t bs hd h7 hf hat hl => ?_⟩
  · obtain ⟨pre, r, v, hr, rfl⟩ := exec_decode_ok hi h hok
    obtain ⟨hfield, -⟩ := msg0Word_of_msgParse hr
    obtain ⟨hff, -⟩ := (recOk_of_msgParse hr).words_ok.metaEvent hkind
    exact congrArg some (hfield.symm.trans hff)
  · have ht : ibufAt s s.arg0.toNat [t] := (ibufAt_append.1 (show ibufAt s _ ([t] ++ bs) from hat)).1
    exact msgdecMetaMessage s false s.arg0.toNat t bs (.inr ⟨rfl, rfl, hd, t, ht, h7⟩) hf hat hl

end Sys2Proof
end

section
/-! SUPPORT. The message encoder (R500 to R529): the two ways an encode command with its checks passed can end, as the
statements write them, the output of MSGENC and EVTENC, and the event decoded back from a delta and a message in IBUF. -/

namespace Sys2Proof

open Sys2Proof.Machine

/-! ### The commands -/

/-- An encode command whose checks pass is held or appends its output (R507, R614). -/
theorem exec_heldInstr_of_ok {c : EncCmd} {o : EncOut} {s : State} (ho : encodeOf c s = .ok o) :
    (s.sinkReady = false → exec (heldInstr c) s = .next { s with held := some c }) ∧
      (s.sinkReady = true → exec (heldInstr c) s = .next (afterAppend s o.bytes o.ers)) :=
  ⟨exec_heldInstr_notReady ho, fun hr => (exec_heldInstr_ready ho hr).trans (congrArg _ (commitEncode_eq o s))⟩

/-- The message's output for legal operands and written data bytes (R502, R505). -/
theorem messageOut_ok {s : State} {data : List Byte} (hs : wfStatus s.arg1) (hr : wfRange s.cfg s.arg2 s.arg3)
    (hl : data.length = s.arg3.toNat) (hat : ebufAt s s.arg2.toNat data) :
    messageOut s = .ok {
      bytes := compressed s.ers (BitVec.ofNat 8 s.arg1.toNat) data
      ers := some (BitVec.ofNat 8 s.arg1.toNat) } := by
  rw [BitVec.ofNat_toNat]
  exact messageOut_eq_ok.2 ⟨hs, hr, data, hl, hat, (msgBytes_eq _ _ _).symm⟩

/-- The event's output is its delta before the message's output (R515). -/
theorem evtencOut_ok {s : State} {m : EncOut} (hd : wfValue s.arg0) (hm : messageOut s = .ok m) :
    evtencOut s = .ok { bytes := vlqBytes s.arg0.toNat ++ m.bytes, ers := m.ers } :=
  evtencOut_eq_ok.2 ⟨hd, m, hm, rfl⟩

/-- With a ready sink, CVENC with legal operands appends its event and leaves its status in ERS (R502, R525). -/
theorem exec_cvenc_appends {s t : State} {st : Byte} (hr : s.sinkReady = true) (hf : wfFamily s.arg1)
    (hc : wfChannel s.arg2) (hd : wfValue s.arg0) (hst : st.toNat = s.arg1.toNat + s.arg2.toNat)
    (h : exec .cvenc s = .next t) :
    t.ers = some st ∧ t.out = s.out ++ (vlqBytes s.arg0.toNat ++ compressed s.ers st
      ([BitVec.ofNat 8 s.arg3.toNat, BitVec.ofNat 8 (s.arg3.toNat / 2 ^ 8)].take (voiceLen st))) := by
  obtain ⟨-, hsent⟩ := exec_heldInstr_of_ok (c := .cvenc) (cvencOut_ok hf hc hd hst)
  obtain rfl := Host.Outcome.next.inj (h.symm.trans (hsent hr))
  exact ⟨rfl, rfl⟩

/-- A second CVENC of the same status appends its event without the status byte (R502, R528). -/
theorem exec_cvenc_twice {s t1 t2 : State} {d2 data2 : Word} {st : Byte} (hers : s.ers = none)
    (hr : s.sinkReady = true) (hf : wfFamily s.arg1) (hc : wfChannel s.arg2) (hd1 : wfValue s.arg0) (hd2 : wfValue d2)
    (hst : st.toNat = s.arg1.toNat + s.arg2.toNat) (h1 : exec .cvenc s = .next t1)
    (h2 : exec .cvenc { t1 with arg0 := d2, arg3 := data2 } = .next t2) :
    t2.out = s.out ++
      ((vlqBytes s.arg0.toNat ++
          st :: [BitVec.ofNat 8 s.arg3.toNat, BitVec.ofNat 8 (s.arg3.toNat / 2 ^ 8)].take (voiceLen st)) ++
        (vlqBytes d2.toNat ++
          [BitVec.ofNat 8 data2.toNat, BitVec.ofNat 8 (data2.toNat / 2 ^ 8)].take (voiceLen st))) := by
  obtain ⟨-, -, ⟨-, harg1, harg2, -⟩, -, -, hready, -⟩ := exec_frame h1
  obtain ⟨hers1, hout1⟩ := exec_cvenc_appends hr hf hc hd1 hst h1
  obtain ⟨-, hout2⟩ := exec_cvenc_appends (s := { t1 with arg0 := d2, arg3 := data2 }) (hready.trans hr)
    (by rwa [harg1]) (by rwa [harg2]) hd2 (by rw [harg1, harg2, hst]) h2
  rw [hers, compressed, if_neg (by simp)] at hout1
  rw [compressed, if_pos hers1, hout1] at hout2
  rw [hout2, List.append_assoc]

/-! ### The decoder behind the encoder -/

/-- A status byte with data behind it is the head of a message, and the data follow it (R452). -/
theorem msgHead_status {s : State} {p : Nat} {st : Byte} {data : List Byte} (hv : voiceStatus st)
    (hat : ibufAt s p (st :: data)) : msgHead s p st true (p + 1) ∧ ibufAt s (p + 1) data := by
  have h7 : ∀ st : Byte, voiceStatus st → st.getLsbD 7 = true := by decide
  obtain ⟨hfirst, hdata⟩ := ibufAt_append.1 (show ibufAt s p ([st] ++ data) from hat)
  exact ⟨.inl ⟨rfl, rfl, hfirst, h7 st hv⟩, hdata⟩

/-- A data byte with bit 7 clear is the head of a message with the status in DRS (R461). -/
theorem msgHead_running {s : State} {p : Nat} {st b : Byte} {data : List Byte} (hd : s.drs = some st)
    (h7 : b.getLsbD 7 = false) (hat : ibufAt s p (b :: data)) : msgHead s p st false p := by
  obtain ⟨hfirst, -⟩ := ibufAt_append.1 (show ibufAt s p ([b] ++ data) from hat)
  exact .inr ⟨rfl, rfl, hd, b, hfirst, h7⟩

/-- The bytes of IBUF are a matter of IN_LEN and the memory alone (R201). -/
theorem ibufAt_congr {s u : State} {p : Nat} {bs : List Byte} (hl : u.inLen = s.inLen) (hm : u.mem = s.mem) :
    ibufAt u p bs ↔ ibufAt s p bs := by
  simp only [ibufAt, ibufByte, hl, hm]

/-- The completed state of EVTDEC reports a delta and a channel-voice message (R142, R143, R480). -/
def ReportsEvent (v : State) (d : Word) (st : Byte) (sc : Bool) (data : List Byte) : Prop :=
  v.err = .ok ∧ v.resVal = d ∧ v.drs = some st ∧
    v.resMsg0 = msg0Image st.toNat (st.toNat / 16 * 16) (st.toNat % 16) false false sc ∧
    v.resMsg1 = msg1Image (data.getD 0 0).toNat (data.getD 1 0).toNat 0

/-- EVTDEC of an encoded delta and a channel-voice message behind it reports both, and where they end (R420, R480). -/
theorem exec_evtdec_vlqBytes {s : State} {d : Word} {st : Byte} {sc : Bool} {q : Nat} {data : List Byte}
    (hd : wfValue d) (hv : voiceStatus st) (hl : data.length = voiceLen st)
    (hds : ibufAt s s.arg0.toNat (vlqBytes d.toNat))
    (hhead : msgHead s (s.arg0.toNat + (vlqBytes d.toNat).length) st sc q) (hat : ibufAt s q data) :
    ∃ v, exec .evtdec s = .next v ∧ ReportsEvent v d st sc data ∧
      v.resCons = BitVec.ofNat 32 ((vlqBytes d.toNat).length + sc.toNat + data.length) := by
  refine ⟨_, evtdecVoiceEvent s _ st sc q data (vlqForm_vlqBytes _) hds hhead hv hl hat, ⟨rfl, ?_, rfl, rfl, rfl⟩, rfl⟩
  rw [vlqValue_vlqBytes hd, BitVec.ofNat_toNat, BitVec.setWidth_eq]

/-- An event with its status byte is reported with SC = 1, and RES_CONS is its length (R452). -/
theorem exec_evtdec_status {s : State} {d : Word} {st : Byte} {data : List Byte} (hd : wfValue d) (hv : voiceStatus st)
    (hl : data.length = voiceLen st) (hat : ibufAt s s.arg0.toNat (vlqBytes d.toNat ++ st :: data)) :
    ∃ v, exec .evtdec s = .next v ∧ ReportsEvent v d st true data ∧
      v.resCons.toNat = (vlqBytes d.toNat ++ st :: data).length := by
  have hend := hat.1
  have hlt := s.inLen.isLt
  obtain ⟨hds, hmsg⟩ := ibufAt_append.1 hat
  obtain ⟨hhead, hdata⟩ := msgHead_status hv hmsg
  obtain ⟨v, hexec, hreports, hcons⟩ := exec_evtdec_vlqBytes hd hv hl hds hhead hdata
  refine ⟨v, hexec, hreports, ?_⟩
  rw [hcons, BitVec.toNat_ofNat]
  simp only [List.length_append, List.length_cons, Bool.toNat_true] at hend ⊢
  omega

/-- An event without its status byte is reported with the status in DRS and SC = 0 (R461). -/
theorem exec_evtdec_running {s : State} {d : Word} {st b : Byte} {rest : List Byte} (hd : wfValue d)
    (hv : voiceStatus st) (hdrs : s.drs = some st) (h7 : b.getLsbD 7 = false) (hl : (b :: rest).length = voiceLen st)
    (hat : ibufAt s s.arg0.toNat (vlqBytes d.toNat ++ b :: rest)) :
    ∃ v, exec .evtdec s = .next v ∧ ReportsEvent v d st false (b :: rest) := by
  obtain ⟨hds, hdata⟩ := ibufAt_append.1 hat
  obtain ⟨v, hexec, hreports, -⟩ := exec_evtdec_vlqBytes hd hv hl hds (msgHead_running hdrs h7 hdata) hdata
  exact ⟨v, hexec, hreports⟩

/-- Two EVTDEC commands over two events of one status, the second without the status byte, report both: the first leaves
the status in DRS, and its RES_CONS is the offset of the second (R456, R461). -/
theorem exec_evtdec_twice {u : State} {d1 d2 : Word} {st b : Byte} {x1 rest : List Byte} (harg : u.arg0 = 0)
    (hd1 : wfValue d1) (hd2 : wfValue d2) (hv : voiceStatus st) (hl1 : x1.length = voiceLen st)
    (hl2 : (b :: rest).length = voiceLen st) (h7 : b.getLsbD 7 = false)
    (hat : ibufAt u 0 ((vlqBytes d1.toNat ++ st :: x1) ++ (vlqBytes d2.toNat ++ b :: rest))) :
    ∃ v1 v2, exec .evtdec u = .next v1 ∧ exec .evtdec { v1 with arg0 := v1.resCons } = .next v2 ∧
      ReportsEvent v1 d1 st true x1 ∧ ReportsEvent v2 d2 st false (b :: rest) := by
  obtain ⟨hfirst, hsecond⟩ := ibufAt_append.1 hat
  obtain ⟨v1, hexec1, hreports1, hcons⟩ := exec_evtdec_status hd1 hv hl1 (by rw [harg]; exact hfirst)
  have ⟨_, _, hdrs, _⟩ := hreports1
  obtain ⟨-, -, -, hinLen, hmem, -⟩ := exec_frame hexec1
  have hnext : ibufAt v1 v1.resCons.toNat (vlqBytes d2.toNat ++ b :: rest) := by
    rw [ibufAt_congr hinLen hmem, hcons]
    rwa [Nat.zero_add] at hsecond
  obtain ⟨v2, hexec2, hreports2⟩ :=
    exec_evtdec_running (s := { v1 with arg0 := v1.resCons }) hd2 hv hdrs h7 hl2 hnext
  exact ⟨v1, v2, hexec1, hexec2, hreports1, hreports2⟩

/-- The data bytes of a word start with its low byte, and are as many as the status takes (R306). -/
theorem take_voiceLen_eq_cons (st x y : Byte) :
    ∃ rest, [x, y].take (voiceLen st) = x :: rest ∧ (x :: rest).length = voiceLen st := by
  rw [voiceLen]
  split
  · exact ⟨[], rfl, rfl⟩
  · exact ⟨[y], rfl, rfl⟩

/-! ### The obligations -/

/-- Settles O39: a failed check raises, and an output is held or committed. -/
theorem msgencOutcome : Obligations.MsgencOutcome :=
  ⟨decode_encode .msgenc, fun _ => ⟨(exec_eq_invalid (i := .msgenc)).2, fun _ hs hr hl hat =>
    exec_heldInstr_of_ok (c := .msgenc) (messageOut_ok hs hr hl hat)⟩⟩

/-- Settles O40: a failed check raises, and an output is held or committed. -/
theorem evtencOutcome : Obligations.EvtencOutcome :=
  ⟨decode_encode .evtenc, fun _ => ⟨(exec_eq_invalid (i := .evtenc)).2, fun _ hd hs hr hl hat =>
    exec_heldInstr_of_ok (c := .evtenc) (evtencOut_ok hd (messageOut_ok hs hr hl hat))⟩⟩

/-- Settles O44: with ERS = none MSGENC appends the status and the data, and the status is the head of a message. -/
theorem messageRoundTrip : Obligations.MessageRoundTrip := by
  intro s t u st data bs hv hl hers hready harg1 harg3 hrange hebuf hexec hout _ harg0 hat
  have hstatus : s.arg1.toNat = st.toNat := by
    rw [harg1, BitVec.toNat_setWidth_of_le (by decide)]
  have hcount : data.length = s.arg3.toNat := by
    have hle : voiceLen st ≤ 2 := by
      unfold voiceLen
      split <;> decide
    rw [harg3, BitVec.toNat_ofNat]
    omega
  have hwf : wfStatus s.arg1 := by
    obtain ⟨hlo, hhi⟩ := hv
    exact ⟨by omega, by omega⟩
  obtain ⟨-, houtcome⟩ := msgencOutcome
  obtain ⟨-, hok⟩ := houtcome s
  obtain ⟨-, hsent⟩ := hok data hwf hrange hcount hebuf
  have hbs : bs = st :: data := by
    obtain rfl := Host.Outcome.next.inj (hexec.symm.trans (hsent hready))
    have happend := List.append_cancel_left hout
    rwa [hers, compressed, if_neg (by simp), hstatus, BitVec.ofNat_toNat, BitVec.setWidth_eq, eq_comm] at happend
  subst hbs
  obtain ⟨hhead, hdata⟩ := msgHead_status hv hat
  refine ⟨rfl, msgdecVoiceMessage u st true 1 data ?_ hv hl hdata⟩
  rwa [harg0]

/-- Settles O45: the first CVENC leaves the status in ERS, so the second appends only its delta and data; the first EVTDEC
leaves it in DRS, so the second event's first data byte is the head of a message. -/
theorem runningStatusRoundTrip : Obligations.RunningStatusRoundTrip := by
  intro s t1 t2 u d2 data2 st x1 x2 hers hready hf hc hd1 hd2 hst hx1 hx2 h7 hexec1 hexec2 _ harg0 hat
  have hout := exec_cvenc_twice hers hready hf hc hd1 hd2 hst hexec1 hexec2
  rw [← hx1, ← hx2] at hout
  obtain ⟨n, hn⟩ := exists_familyOperand hf
  obtain ⟨-, -, hv, hfam, hchan⟩ := familyOperand_eq_some hn hc hst
  obtain ⟨rest1, hcons1, hlen1⟩ :=
    take_voiceLen_eq_cons st (BitVec.ofNat 8 s.arg3.toNat) (BitVec.ofNat 8 (s.arg3.toNat / 2 ^ 8))
  obtain ⟨rest2, hcons2, hlen2⟩ :=
    take_voiceLen_eq_cons st (BitVec.ofNat 8 data2.toNat) (BitVec.ofNat 8 (data2.toNat / 2 ^ 8))
  obtain rfl := hx1.trans hcons1
  obtain rfl := hx2.trans hcons2
  have hclear : (BitVec.ofNat 8 data2.toNat).getLsbD 7 = false := by
    rw [BitVec.ofNat_toNat, BitVec.getLsbD_setWidth, h7, Bool.and_false]
  obtain ⟨v1, v2, hdec1, hdec2, hreports1, hreports2⟩ := exec_evtdec_twice harg0 hd1 hd2 hv hlen1 hlen2 hclear hat
  obtain ⟨herr1, hval1, hdrs1, hmsg1, hdata1⟩ := hreports1
  rw [hfam, hchan]
  exact ⟨hout, v1, v2, hdec1, hdec2, herr1, hval1, hdrs1, hmsg1, hdata1, hreports2⟩

end Sys2Proof
end

section
/-! SUPPORT. The latch clears and the reserved words (43_latch_control.md): completion with OK as the statements write it,
and the words that give no command. -/

namespace Sys2Proof

open Sys2Proof.Machine

/-- A completion with OK sets ERR and DONE, releases a held command and keeps ERR_SEEN (R612). -/
theorem complete_ok (s : State) : complete .ok s = { s with err := .ok, done := true, held := none } := by
  simp [complete]

/-- A word with a non-zero Z, or with OP 0x0 or 0xC to 0xF, gives no command (R301, R325). -/
theorem decode_ne_command_of_reserved {w : Word} (h : w.toNat / 16 ≠ 0 ∨ w.toNat % 16 = 0 ∨ 0xC ≤ w.toNat % 16)
    (i : Instr) : decode w ≠ .command i := by
  intro hw
  have hnum := toNat_of_decode hw
  obtain ⟨hlow, hhigh⟩ := opcode_range i
  omega

/-! ### The obligations -/

/-- Settles O7: the step issues the word, and a word that gives no command completes as IllegalCommand. -/
theorem reservedWordCompletesIllegal : Obligations.ReservedWordCompletesIllegal := by
  refine ⟨rfl, fun s w rest hh hm hw => ?_⟩
  rw [step_writeReg (r := .cmd) hh hm, writeReg, issue_illegal (decode_ne_command_of_reserved hw),
    complete_error (by decide)]

/-- Settles O51: each clear writes its latch and completes with OK. -/
theorem latchClears : Obligations.LatchClears := by
  refine ⟨decode_encode .dclr, decode_encode .eclr, fun s => ⟨?_, ?_⟩⟩
  · rw [exec, execDclr, commitDrs, complete_ok]
  · rw [exec, execEclr, commitErs, complete_ok]

end Sys2Proof
end

section
/-! SUPPORT. Completion and errors (60_exceptions.md): a command that answers a next state has committed every write its rule
lists, or completed with one of its errors, or is held (R600, R612 to R617), and a held command completes in the first step
with the sink ready (R614). -/

namespace Sys2Proof

open Sys2Proof.Machine

/-! ### The commits, as the statements list them -/

/-- The commit of a parsed message writes the registers of a complete message (R451, R460). -/
theorem commitsMessage_of_msgParse {s : State} {p : Nat} {r : MsgRec} (pre : Nat) (h : msgParse s p = .ok r) :
    commitsMessage s pre p (complete .ok (storeMsg pre r s)) := by
  obtain ⟨st, sc, q, hhead, ⟨data, hv, hl, hat, rfl⟩ | ⟨rfl, t, bs, hf, hat, hl, rfl⟩⟩ := msgParse_cases h
  · exact .inl ⟨st, sc, q, data, hhead, hv, hl, hat, complete_voice s pre sc q data hv⟩
  · exact .inr ⟨sc, q, t, bs, hhead, hf, hat, hl, complete_meta s pre t hf (msgHead_offset hhead)⟩

/-- The message that MSGENC and EVTENC emit is the status in ARG1, compressed, before the data bytes in EBUF (R502, R505). -/
theorem messageOut_compressed {s : State} {o : EncOut} (h : messageOut s = .ok o) :
    ∃ data, data.length = s.arg3.toNat ∧ ebufAt s s.arg2.toNat data ∧
      o = { bytes := compressed s.ers (BitVec.ofNat 8 s.arg1.toNat) data
            ers := some (BitVec.ofNat 8 s.arg1.toNat) } := by
  obtain ⟨hs, hr, data, hl, hat, -⟩ := messageOut_eq_ok.1 h
  exact ⟨data, hl, hat, Attempt.ok.inj (h.symm.trans (messageOut_ok hs hr hl hat))⟩

/-- An encode command that has an output has every operand in its range (R305). -/
theorem operandsWf_of_encodeOf {c : EncCmd} {s : State} {o : EncOut} (h : encodeOf c s = .ok o) :
    (heldInstr c).operandsWf s.cfg s.arg0 s.arg1 s.arg2 s.arg3 := by
  by_contra hbad
  cases h.symm.trans (encodeOf_raises.2 hbad)

/-- The sum of a legal family and a legal channel is a status byte (R525). -/
theorem toNat_family_add_channel {f c : Word} (hf : wfFamily f) (hc : wfChannel c) :
    (BitVec.ofNat 8 (f.toNat + c.toNat)).toNat = f.toNat + c.toNat := by
  simp only [wfFamily, List.mem_cons, List.not_mem_nil, or_false] at hf
  rw [BitVec.toNat_ofNat]
  omega

/-- Appending its output is all that an encode command's rule lists (R425, R505, R515, R525). -/
theorem commitsAll_of_encodeOf {c : EncCmd} {s : State} {o : EncOut} (h : encodeOf c s = .ok o) :
    commitsAll (heldInstr c) s (afterAppend s o.bytes o.ers) := by
  cases c with
  | vlqenc =>
    obtain ⟨-, rfl⟩ := vlqencOut_eq_ok.1 h
    rfl
  | msgenc =>
    obtain ⟨data, hl, hat, rfl⟩ := messageOut_compressed h
    exact ⟨data, hl, hat, rfl⟩
  | evtenc =>
    obtain ⟨-, m, hm, rfl⟩ := evtencOut_eq_ok.1 h
    obtain ⟨data, hl, hat, rfl⟩ := messageOut_compressed hm
    exact ⟨data, hl, hat, rfl⟩
  | cvenc =>
    obtain ⟨hf, hc, hd⟩ := operandsWf_of_encodeOf h
    have hst := toNat_family_add_channel hf hc
    obtain rfl := Attempt.ok.inj (h.symm.trans (cvencOut_ok hf hc hd hst))
    exact ⟨_, hst, rfl⟩

/-! ### The three ways a command can end -/

/-- A command that answers a next state has committed every write its rule lists, or completed with one of its errors, or is
an encode command held with nothing else changed (R600, R614, R616, R617). -/
theorem exec_commits_raises_or_holds {i : Instr} {s t : State} (h : exec i s = .next t) :
    commitsAll i s t ∨ (∃ e ∈ canRaise i, t = afterError s e) ∨
      (∃ c, i = heldInstr c ∧ s.sinkReady = false ∧ t = { s with held := some c }) := by
  rcases exec_next h with ⟨e, he, rfl⟩ | ⟨c, o, rfl, ho, rfl⟩ | ⟨rfl, r, hr, rfl⟩ | ⟨rfl, r, hr, rfl⟩ |
    ⟨rfl, r, hr, rfl⟩ | ⟨rfl, rfl⟩ | ⟨rfl, rfl⟩ | ⟨rfl, l, hl, rfl⟩ | ⟨rfl, l, hl, rfl⟩
  · exact .inr (.inl ⟨e, he, complete_error (ne_ok_of_canRaise he) s⟩)
  · rcases commitOrHold_cases c o s with ⟨-, hc⟩ | ⟨hready, hc⟩
    · rw [hc, commitEncode_eq]
      exact .inl (commitsAll_of_encodeOf ho)
    · exact .inr (.inr ⟨c, rfl, hready, hc⟩)
  · obtain ⟨bs, hf, hat, rfl⟩ := vlqRead_eq_ok.1 hr
    exact .inl ⟨bs, hf, hat, complete_ok _⟩
  · exact .inl (commitsMessage_of_msgParse 0 hr)
  · obtain ⟨ds, m, hf, hat, hm, rfl⟩ := evtParse_eq_ok.1 hr
    exact .inl ⟨ds, _, hf, hat, commitsMessage_of_msgParse ds.length hm, rfl⟩
  · exact .inl (complete_ok _)
  · exact .inl (complete_ok _)
  · obtain ⟨hlatch, himg⟩ := latchOfImage_eq_some.1 hl
    exact .inl ⟨l, hlatch, himg, complete_ok _⟩
  · obtain ⟨hlatch, himg⟩ := latchOfImage_eq_some.1 hl
    exact .inl ⟨l, hlatch, himg, complete_ok _⟩

/-- From `s` to `t` a command has completed with OK: ERR and DONE are set, HELD is released and ERR_SEEN is kept (R612). -/
def CompletedOk (s t : State) : Prop :=
  t.err = .ok ∧ t.done = true ∧ t.errSeen = s.errSeen ∧ t.held = none

/-- The registers of a complete message come with the completion with OK (R460, R612). -/
theorem completedOk_of_commitsMessage {s t : State} {pre p : Nat} (h : commitsMessage s pre p t) : CompletedOk s t := by
  rcases h with ⟨st, sc, q, data, -, -, -, -, rfl⟩ | ⟨sc, q, ty, bs, -, -, -, -, rfl⟩
  · exact ⟨rfl, rfl, rfl, rfl⟩
  · exact ⟨rfl, rfl, rfl, rfl⟩

/-- The writes that a command's rule lists for a success include the completion with OK (R612, R616). -/
theorem completedOk_of_commitsAll {i : Instr} {s t : State} (h : commitsAll i s t) : CompletedOk s t := by
  cases i with
  | vlqdec =>
    obtain ⟨bs, -, -, rfl⟩ := h
    exact ⟨rfl, rfl, rfl, rfl⟩
  | msgdec => exact completedOk_of_commitsMessage h
  | evtdec =>
    obtain ⟨ds, u, -, -, hu, rfl⟩ := h
    have hmessage : CompletedOk s u := completedOk_of_commitsMessage hu
    exact hmessage
  | vlqenc | dclr | eclr =>
    obtain rfl := h
    exact ⟨rfl, rfl, rfl, rfl⟩
  | msgenc | evtenc =>
    obtain ⟨data, -, -, rfl⟩ := h
    exact ⟨rfl, rfl, rfl, rfl⟩
  | cvenc =>
    obtain ⟨st, -, rfl⟩ := h
    exact ⟨rfl, rfl, rfl, rfl⟩
  | ldrs | lers =>
    obtain ⟨l, -, -, rfl⟩ := h
    exact ⟨rfl, rfl, rfl, rfl⟩

/-! ### A held command -/

/-- The sink's level does not enter an encode command's output (R507, R614). -/
theorem encodeOf_drawSink (c : EncCmd) (s : State) : encodeOf c (drawSink s) = encodeOf c s := by
  obtain ⟨b, l, hdraw⟩ := drawSink_eq s
  rw [hdraw]
  apply encodeOf_congr <;> rfl

/-! ### The obligations -/

/-- Settles O48, by the three ways a command can end. -/
theorem commandCommitsAllOrOnlyStatus : Obligations.CommandCommitsAllOrOnlyStatus := by
  intro i s t h
  rcases exec_commits_raises_or_holds h with hall | ⟨e, he, ht⟩ | hheld
  · obtain ⟨herr, hdone, hseen, hnone⟩ := completedOk_of_commitsAll hall
    exact .inl ⟨herr, hdone, hseen, hnone, hall⟩
  · exact .inr (.inl ⟨e, ne_ok_of_canRaise he, ht⟩)
  · exact .inr (.inr hheld)

/-- Settles O49: of the three ways a command can end, only the error leaves a code other than OK with nothing held. -/
theorem errorCodesPerCommand : Obligations.ErrorCodesPerCommand := by
  refine ⟨rfl, fun i s t h hnone hcode => ?_⟩
  rcases exec_commits_raises_or_holds h with hall | ⟨e, he, rfl⟩ | ⟨c, -, -, rfl⟩
  · obtain ⟨herr, -⟩ := completedOk_of_commitsAll hall
    exact absurd herr hcode
  · exact he
  · cases hnone

/-- Settles O46: in a legal state the held command's operands passed every check, and the sink's draw keeps them. -/
theorem heldCommandCompletesWhenReady : Obligations.HeldCommandCompletesWhenReady := by
  intro s c hlegal hc hn
  obtain ⟨-, o, ho⟩ := hlegal.held_ok c hc
  refine ⟨fun hr hm => step_waits hm (.inr hr), fun hr => ⟨o, ho, ?_⟩⟩
  have hdrawn : encodeOf c (drawSink s) = .ok o := (encodeOf_drawSink c s).trans ho
  rw [step_held hc hr hn, exec_heldInstr_ready hdrawn hr, commitEncode_eq]

end Sys2Proof
end

section
/-! SUPPORT. Reset and the host's duties (70_reset_and_hazards.md): the reset values (R700), and what a decode answers when
the host appends bytes (R734) or tries it again (R735). -/

namespace Sys2Proof

open Sys2Proof.Machine

/-! ### Reset -/

theorem atReset_reset : AtReset State.reset where
  cmd := rfl
  args := ⟨rfl, rfl, rfl, rfl⟩
  inLen := rfl
  latches := ⟨rfl, rfl⟩
  status := ⟨rfl, rfl, rfl⟩
  results := ⟨rfl, rfl, rfl, rfl, rfl, rfl⟩
  outCnt := rfl
  held := rfl
  buffers := fun _ => ⟨rfl, rfl⟩
  out := rfl

/-- The reset input keeps only what stands outside the block (R700, R701). -/
theorem atReset_hwReset (s : State) : AtReset (hwReset s) :=
  { atReset_reset with }

/-! ### Appended input -/

/-- The state `u` has the input and the running status of `s`, and possibly more bytes behind the input (R734). -/
structure Appends (s u : State) : Prop where
  drs : u.drs = s.drs
  inLen : s.inLen.toNat ≤ u.inLen.toNat
  bytes : ∀ j, j < s.inLen.toNat → ibufByte u j = ibufByte s j

/-- The codes that say that the input ended too early (R406, R455). -/
def EndsEarly (e : ErrCode) : Prop := e = .needMoreData ∨ e = .truncatedInput

/-- The first attempt found its input too short, or the second one gives the same result. -/
def SameUnlessShort {α : Type} (x y : Attempt α) : Prop := (∃ e, EndsEarly e ∧ x = .raise e) ∨ y = x

theorem sameUnlessShort_refl {α : Type} (x : Attempt α) : SameUnlessShort x x := .inr rfl

theorem sameUnlessShort_raise {α : Type} {e : ErrCode} (he : EndsEarly e) (y : Attempt α) :
    SameUnlessShort (.raise e) y := .inl ⟨e, he, rfl⟩

theorem sameUnlessShort_bind {α β : Type} {x y : Attempt α} {f g : α → Attempt β} (hxy : SameUnlessShort x y)
    (hfg : ∀ a, SameUnlessShort (f a) (g a)) : SameUnlessShort (x.bind f) (y.bind g) := by
  rcases hxy with ⟨e, he, rfl⟩ | rfl
  · exact sameUnlessShort_raise he _
  · cases y with
    | ok a => exact hfg a
    | raise e => exact sameUnlessShort_refl _
    | refuse r => exact sameUnlessShort_refl _

/-- A test for the end of the input that the longer input passes too may hide a result, but not change it. -/
theorem sameUnlessShort_ite {α : Type} {e : ErrCode} {c d : Prop} [Decidable c] [Decidable d] {x y : Attempt α}
    (he : EndsEarly e) (hdc : d → c) (hxy : ¬ c → SameUnlessShort x y) :
    SameUnlessShort (if c then .raise e else x) (if d then .raise e else y) := by
  by_cases hc : c
  · rw [if_pos hc]
    exact sameUnlessShort_raise he _
  · rw [if_neg hc, if_neg (mt hdc hc)]
    exact hxy hc

theorem inByte_appends {s u : State} (h : Appends s u) {p : Nat} (hp : p < s.inLen.toNat) : inByte u p = inByte s p := by
  rw [inByte, inByte, h.bytes p hp]

theorem nextByte_appends {s u : State} (h : Appends s u) {e : ErrCode} (he : EndsEarly e) (p : Nat) :
    SameUnlessShort (nextByte s e p) (nextByte u e p) :=
  sameUnlessShort_ite he (Nat.le_trans h.inLen) fun hp => .inr (inByte_appends h (Nat.lt_of_not_le hp))

theorem vlqLoop_appends {s u : State} (h : Appends s u) {e : ErrCode} (he : EndsEarly e) (fuel p k acc : Nat) :
    SameUnlessShort (vlqLoop s e fuel p k acc) (vlqLoop u e fuel p k acc) := by
  induction fuel generalizing p k acc with
  | zero => exact sameUnlessShort_refl _
  | succ fuel ih =>
    rw [vlqLoop_succ, vlqLoop_succ]
    refine sameUnlessShort_bind (nextByte_appends h he p) fun b => ?_
    split
    · exact ih _ _ _
    · exact sameUnlessShort_refl _

theorem vlqRead_appends {s u : State} (h : Appends s u) {e : ErrCode} (he : EndsEarly e) (p : Nat) :
    SameUnlessShort (vlqRead s e p) (vlqRead u e p) := vlqLoop_appends h he _ _ _ _

theorem metaBody_appends {s u : State} (h : Appends s u) (p : Nat) (sc : Bool) (q : Nat) :
    SameUnlessShort (metaBody s p sc q) (metaBody u p sc q) := by
  have hneed : EndsEarly .needMoreData := .inl rfl
  refine sameUnlessShort_bind (nextByte_appends h hneed q) fun t => ?_
  refine sameUnlessShort_bind (vlqRead_appends h hneed _) fun r => ?_
  exact sameUnlessShort_ite hneed (Nat.lt_of_le_of_lt h.inLen) fun _ => sameUnlessShort_refl _

theorem voiceBody_appends {s u : State} (h : Appends s u) (st : Byte) (sc : Bool) (q : Nat) :
    SameUnlessShort (voiceBody s st sc q) (voiceBody u st sc q) := by
  by_cases hv : voiceStatus st
  · have hpos : 1 ≤ voiceLen st := by
      unfold voiceLen
      split <;> decide
    simp only [voiceBody, familyLen_eq_some.2 ⟨hv, rfl⟩]
    refine sameUnlessShort_ite (.inl rfl) (Nat.lt_of_le_of_lt h.inLen) fun hl => .inr ?_
    rw [inByte_appends h (by omega)]
    congr 1
    funext d0
    split
    · rw [inByte_appends h (by omega)]
    · rfl
  · rw [voiceBody_unknown sc hv, voiceBody_unknown sc hv]
    exact sameUnlessShort_refl _

theorem msgBody_appends {s u : State} (h : Appends s u) (p : Nat) (st : Byte) (sc : Bool) (q : Nat) :
    SameUnlessShort (msgBody s p st sc q) (msgBody u p st sc q) := by
  unfold msgBody
  split
  · exact metaBody_appends h p sc q
  · exact voiceBody_appends h st sc q

theorem msgParse_appends {s u : State} (h : Appends s u) (p : Nat) : SameUnlessShort (msgParse s p) (msgParse u p) := by
  refine sameUnlessShort_bind (nextByte_appends h (.inl rfl) p) fun b => ?_
  rw [h.drs]
  split
  · exact msgBody_appends h p b true (p + 1)
  · cases s.drs with
    | none => exact sameUnlessShort_refl _
    | some st => exact msgBody_appends h p st false p

theorem evtParse_appends {s u : State} (h : Appends s u) (p : Nat) : SameUnlessShort (evtParse s p) (evtParse u p) := by
  refine sameUnlessShort_bind (vlqRead_appends h (.inl rfl) p) fun d => ?_
  exact sameUnlessShort_bind (msgParse_appends h _) fun r => sameUnlessShort_refl _

/-- A command whose attempt found its input long enough ends with the same code from both states, and with OK the next states
are related as its commits are. -/
theorem finish_sameUnlessShort {α : Type} {P : State → State → Prop} {x y : Attempt α} {commit : α → State → State}
    {s t u : State} (hxy : SameUnlessShort x y) (hcommit : ∀ a w, (commit a w).err = .ok)
    (hraise : ∀ e, x = .raise e → e ≠ .ok) (hP : ∀ a, P (commit a s) (commit a u)) (hlong : ¬ EndsEarly t.err)
    (h : finish x commit s = .next t) :
    ∃ v, finish y commit u = .next v ∧ v.err = t.err ∧ (t.err = .ok → P t v) := by
  rcases finish_next.1 h with ⟨a, rfl, rfl⟩ | ⟨e, rfl, rfl⟩
  · obtain ⟨e, -, hx⟩ | rfl := hxy
    · cases hx
    · exact ⟨commit a u, rfl, by rw [hcommit, hcommit], fun _ => hP a⟩
  · obtain ⟨e', he', hx⟩ | rfl := hxy
    · cases hx
      exact absurd he' hlong
    · exact ⟨complete e u, rfl, rfl, fun hok => absurd hok (hraise e rfl)⟩

/-- The results that a decode command writes with OK, and DRS, are the same in both states (R147). -/
def SameResults (i : Instr) (t v : State) : Prop :=
  v.resCons = t.resCons ∧ (i ≠ .msgdec → v.resVal = t.resVal) ∧
    (i ≠ .vlqdec → v.drs = t.drs ∧ v.resMsg0 = t.resMsg0 ∧ v.resMsg1 = t.resMsg1 ∧ v.resLen = t.resLen ∧
      v.resPoff = t.resPoff)

theorem commitVlqdec_sameResults (r : Nat × Nat) (s u : State) :
    SameResults .vlqdec (commitVlqdec r s) (commitVlqdec r u) := ⟨rfl, fun _ => rfl, fun h => absurd rfl h⟩

theorem commitMsg_sameResults (r : MsgRec) (s u : State) : SameResults .msgdec (commitMsg r s) (commitMsg r u) :=
  ⟨rfl, fun h => absurd rfl h, fun _ => ⟨rfl, rfl, rfl, rfl, rfl⟩⟩

theorem commitEvt_sameResults (r : EvtRec) (s u : State) : SameResults .evtdec (commitEvt r s) (commitEvt r u) :=
  ⟨rfl, fun _ => rfl, fun _ => ⟨rfl, rfl, rfl, rfl, rfl⟩⟩

/-! ### A retry -/

/-- A command whose attempt, completion and commit are the same from two states answers the same from both. -/
theorem finish_congr {α : Type} {x x' : Attempt α} {commit : α → State → State} {s s' : State} (hx : x' = x)
    (hcomplete : ∀ e, complete e s' = complete e s) (hcommit : ∀ a, commit a s' = commit a s) :
    finish x' commit s' = finish x commit s := by
  subst hx
  cases x' with
  | ok a => rw [finish_ok, finish_ok, hcommit]
  | raise e => rw [finish_raise, finish_raise, hcomplete]
  | refuse r => rfl

/-- A decode command does not read ERR, DONE and HELD, and it sets all three (R612). -/
theorem exec_decode_status {i : Instr} (hi : i = .msgdec ∨ i = .evtdec) (s : State) (e : ErrCode) (b : Bool)
    (c : Option EncCmd) : exec i { s with err := e, done := b, held := c } = exec i s := by
  rcases hi with rfl | rfl
  · exact finish_congr (msgParse_congr rfl rfl rfl _) (fun _ => rfl) (fun _ => rfl)
  · exact finish_congr (evtParse_congr rfl rfl rfl _) (fun _ => rfl) (fun _ => rfl)

/-- The state in which some command has completed with an error since reset. -/
def withErrSeen (s : State) : State := { s with errSeen := true }

/-- A decode command does not read ERR_SEEN, and keeps it when it is set (R120). -/
theorem exec_decode_withErrSeen {i : Instr} (hi : i = .msgdec ∨ i = .evtdec) {s w : State} (h : exec i s = .next w) :
    exec i (withErrSeen s) = .next (withErrSeen w) := by
  rcases hi with rfl | rfl
  · exact finish_commutes withErrSeen (msgParse_congr rfl rfl rfl _) (fun _ => rfl) (fun _ => rfl) h
  · exact finish_commutes withErrSeen (evtParse_congr rfl rfl rfl _) (fun _ => rfl) (fun _ => rfl) h

/-- A decode command after a failed attempt answers what it would have answered without it, but for ERR_SEEN (R617, R735). -/
theorem exec_decode_afterError {i : Instr} (hi : i = .msgdec ∨ i = .evtdec) {s w : State} (e : ErrCode)
    (h : exec i s = .next w) : exec i (afterError s e) = .next (withErrSeen w) :=
  (exec_decode_status hi (withErrSeen s) e true none).trans (exec_decode_withErrSeen hi h)

/-! ### The obligations -/

/-- Settles O37: a decode that its input was long enough for reads nothing that tells the longer input from the old one. -/
theorem decodeIsStableUnderAppend : Obligations.DecodeIsStableUnderAppend := by
  intro i s u t hi harg hdrs hlen hbytes h hneed htrunc
  have happ : Appends s u := ⟨hdrs, hlen, hbytes⟩
  have hlong : ¬ EndsEarly t.err := not_or.2 ⟨hneed, htrunc⟩
  rcases hi with rfl | rfl | rfl
  · have hraise : ∀ e, vlqRead s .truncatedInput s.arg0.toNat = .raise e → e ≠ .ok := by
      intro e he
      rcases vlqRead_raise he with rfl | rfl <;> decide
    simp only [exec, execVlqdec, harg] at h ⊢
    exact finish_sameUnlessShort (P := SameResults .vlqdec) (vlqRead_appends happ (.inr rfl) _) (fun _ _ => rfl) hraise
      (commitVlqdec_sameResults · s u) hlong h
  · have hraise : ∀ e, msgParse s s.arg0.toNat = .raise e → e ≠ .ok := fun _ he => ne_ok_of_canRaise (msgParse_raise he)
    simp only [exec, execMsgdec, harg] at h ⊢
    exact finish_sameUnlessShort (P := SameResults .msgdec) (msgParse_appends happ _) (fun _ _ => rfl) hraise
      (commitMsg_sameResults · s u) hlong h
  · have hraise : ∀ e, evtParse s s.arg0.toNat = .raise e → e ≠ .ok := fun _ he => ne_ok_of_canRaise (evtParse_raise he)
    simp only [exec, execEvtdec, harg] at h ⊢
    exact finish_sameUnlessShort (P := SameResults .evtdec) (evtParse_appends happ _) (fun _ _ => rfl) hraise
      (commitEvt_sameResults · s u) hlong h

/-- Settles O38: the failed attempt has left its error completion and nothing else. -/
theorem retryAfterNeedMoreData : Obligations.RetryAfterNeedMoreData := by
  intro i s t w m n hi h herr hw
  rcases exec_decode_next hi h with ⟨e, he, rfl⟩ | ⟨pre, r, v, -, rfl⟩
  · rw [complete_error he]
    exact exec_decode_afterError hi e hw
  · cases herr

/-- Settles O15: the host's turn, since the held command waits for the sink. -/
theorem noHostWriteWhileBusy : Obligations.NoHostWriteWhileBusy := by
  intro s c rest hc hr
  have hbusy : s.held ≠ none := by simp [hc]
  exact ⟨fun w a data hm => step_write_busy hbusy hr hm, fun r hm => step_readReg (.inr hr) hm⟩

/-- Settles O16, by the step that an asserted reset takes. -/
theorem resetGivesResetState : Obligations.ResetGivesResetState :=
  ⟨atReset_reset, fun _ _ hm => ⟨_, step_reset hm, atReset_hwReset _, rfl⟩⟩

end Sys2Proof
end
